-- ==== Sys2Proof/Word.lean ====
section
/-! DEFINITION. The word types of the block: the byte (R9, R41) and the 64-bit words of a command's
arguments and of a response (R56, R59). -/
namespace Sys2Proof

/-- An 8-bit byte, value 0..255 (R41). -/
abbrev Byte := BitVec 8

/-- A 64-bit word: an argument of a command (R58) or a result of a response (R59). -/
abbrev Word64 := BitVec 64

/-- The 32-bit header of a command (R56). -/
abbrev Header := BitVec 32

end Sys2Proof
end

