-- ==== Sys2Proof/Syntax.lean ====
section
/-! DEFINITION. The syntax of the block: the command record (R56), and one constructor of `Instr` per row of
spec/opcode_table.json, carrying exactly the operands the column "uses" of R62 gives it. -/
namespace Sys2Proof

/-- The number of a bit-sequence register, 0..15 (R21, R57). -/
abbrev Reg := Fin 16

/-- The endianness tag of a BitSequence (R12, R22): `LE` is LittleEndian, `BE` is BigEndian. -/
inductive Tag where
  | LE
  | BE
  deriving DecidableEq, Repr

/-- A command record of 160 bits (R56): the 32-bit header and the two 64-bit arguments. -/
structure Command where
  hdr : Header
  arg0 : Word64
  arg1 : Word64
  deriving DecidableEq, Repr

/-- The 57 commands (R62). Integer operands are the arguments read as R58 says: signed 64-bit
integers, but FROMUINT64 reads its argument as the unsigned 64-bit pattern (R129). -/
inductive Instr where
  -- Bit-sequence construction and access (`40_bitseq_construct_access.md`)
  /-- CONSTRUCT (R81), opcode 0x01. -/
  | construct (rd : Reg) (e : Tag) (n : Int)
  /-- CONSTRUCTA (R82), opcode 0x02. -/
  | constructA (rd : Reg) (e : Tag)
  /-- COPY (R83), opcode 0x03. -/
  | copy (rd rs1 : Reg)
  /-- GET (R84), opcode 0x04. -/
  | get (rs1 : Reg) (i : Int)
  /-- SET (R85), opcode 0x05. -/
  | set (rd : Reg) (b : Bool) (i : Int)
  /-- ADD (R86), opcode 0x06. -/
  | add (rd : Reg) (b : Bool)
  /-- FLIP (R87), opcode 0x07. -/
  | flip (rd : Reg) (i : Int)
  /-- REVERSE (R88), opcode 0x08. -/
  | reverse (rd : Reg)
  /-- INSERT (R89), opcode 0x09. -/
  | insert (rd : Reg) (b : Bool) (i : Int)
  /-- REMOVE (R90), opcode 0x0A. -/
  | remove (rd : Reg) (i : Int)
  /-- APPEND (R91), opcode 0x0B. -/
  | append (rd rs1 : Reg)
  /-- COUNT (R92), opcode 0x0C. -/
  | count (rs1 : Reg)
  /-- ENDIAN (R93), opcode 0x0D. -/
  | endian (rs1 : Reg)
  -- Pad and trim (`41_bitseq_pad_trim.md`)
  /-- PAD (R100), opcode 0x10. -/
  | pad (rd : Reg) (b : Bool) (n : Int)
  /-- PADTOBYTE (R101), opcode 0x11. -/
  | padToByte (rd : Reg)
  /-- TRIMSTART (R102), opcode 0x12. -/
  | trimStart (rd : Reg) (b : Bool)
  /-- TRIMEND (R103), opcode 0x13. -/
  | trimEnd (rd : Reg) (b : Bool)
  /-- TRIMENDIAN (R104), opcode 0x14. -/
  | trimEndian (rd : Reg) (b : Bool)
  -- Conversion to bytes and integers (`42_bitseq_convert.md`)
  /-- TOBYTEARRAY (R110), opcode 0x20. -/
  | toByteArray (rs1 : Reg) (bitCount offset : Int)
  /-- TOBYTE (R112), opcode 0x21. -/
  | toByte (rs1 : Reg) (offset : Int)
  /-- TOSBYTE (R113), opcode 0x22. -/
  | toSByte (rs1 : Reg) (offset : Int)
  /-- TOINT16 (R114), opcode 0x23. -/
  | toInt16 (rs1 : Reg) (offset : Int)
  /-- TOUINT16 (R115), opcode 0x24. -/
  | toUInt16 (rs1 : Reg) (offset : Int)
  /-- TOINT32 (R116), opcode 0x25. -/
  | toInt32 (rs1 : Reg) (offset : Int)
  /-- TOUINT32 (R117), opcode 0x26. -/
  | toUInt32 (rs1 : Reg) (offset : Int)
  /-- TOINT64 (R118), opcode 0x27. -/
  | toInt64 (rs1 : Reg) (offset : Int)
  /-- TOUINT64 (R119), opcode 0x28. -/
  | toUInt64 (rs1 : Reg) (offset : Int)
  -- Conversion from bytes and integers (`42_bitseq_convert.md`)
  /-- FROMBYTEARRAY (R120), opcode 0x30. -/
  | fromByteArray (rd : Reg)
  /-- FROMBYTE (R122), opcode 0x31. -/
  | fromByte (rd : Reg) (value : Int)
  /-- FROMSBYTE (R123), opcode 0x32. -/
  | fromSByte (rd : Reg) (value : Int)
  /-- FROMINT16 (R124), opcode 0x33. -/
  | fromInt16 (rd : Reg) (value : Int)
  /-- FROMUINT16 (R125), opcode 0x34. -/
  | fromUInt16 (rd : Reg) (value : Int)
  /-- FROMINT32 (R126), opcode 0x35. -/
  | fromInt32 (rd : Reg) (value : Int)
  /-- FROMUINT32 (R127), opcode 0x36. -/
  | fromUInt32 (rd : Reg) (value : Int)
  /-- FROMINT64 (R128), opcode 0x37. -/
  | fromInt64 (rd : Reg) (value : Int)
  /-- FROMUINT64 (R129), opcode 0x38. -/
  | fromUInt64 (rd : Reg) (value : Int)
  -- Bitwise, rotate, counter (`43_bitseq_bitwise_shift.md`)
  /-- AND (R141), opcode 0x40. -/
  | and (rd rs1 rs2 : Reg)
  /-- OR (R142), opcode 0x41. -/
  | or (rd rs1 rs2 : Reg)
  /-- XOR (R143), opcode 0x42. -/
  | xor (rd rs1 rs2 : Reg)
  /-- NOT (R144), opcode 0x43. -/
  | not (rd rs1 : Reg)
  /-- ROL (R146), opcode 0x44. -/
  | rol (rd rs1 : Reg) (n : Int)
  /-- ROR (R147), opcode 0x45. -/
  | ror (rd rs1 : Reg) (n : Int)
  /-- INC (R152), opcode 0x46. -/
  | inc (rd rs1 : Reg)
  /-- DEC (R153), opcode 0x47. -/
  | dec (rd rs1 : Reg)
  -- Priority queue (`44_priority_queue.md`)
  /-- ENQUEUE (R161), opcode 0x50. -/
  | enqueue (item weight : Int)
  /-- DEQUEUE (R162), opcode 0x51. -/
  | dequeue
  /-- QCOUNT (R163), opcode 0x52. -/
  | qcount
  /-- QCLEAR (R164), opcode 0x53. -/
  | qclear
  -- Codec (`45_huffman_encoder.md`, `46_huffman_decoder.md`)
  /-- COMPRESS (R170), opcode 0x60. -/
  | compress
  /-- DECOMPRESS (R190), opcode 0x61. -/
  | decompress
  -- Host and system (`47_host_system.md`)
  /-- IBCLR (R210), opcode 0x70. -/
  | ibclr
  /-- IBPUSH (R211), opcode 0x71. -/
  | ibpush (byte : Int)
  /-- OBRD (R212), opcode 0x72. -/
  | obrd (i : Int)
  /-- OLENR (R213), opcode 0x73. -/
  | olenr
  /-- OBTOIB (R214), opcode 0x74. -/
  | obtoib
  /-- RDERR (R215), opcode 0x75. -/
  | rderr
  /-- CLRERR (R216), opcode 0x76. -/
  | clrerr
  deriving DecidableEq, Repr

end Sys2Proof
end

