-- ==== Sys2Proof/WellFormed.lean ====
section
/-! DEFINITION. The operands an encoding can carry: each integer operand fits its 64-bit argument word
(R58). Registers, the tag and the bit are well formed by their types. -/
namespace Sys2Proof

/-- A signed 64-bit argument: -2^63 .. 2^63 - 1 (R58). -/
def signed64 (v : Int) : Bool := decide (-(2 ^ 63) ≤ v) && decide (v < 2 ^ 63)

/-- An argument read as the unsigned 64-bit pattern: 0 .. 2^64 - 1 (R58, R129). -/
def unsigned64 (v : Int) : Bool := decide (0 ≤ v) && decide (v < 2 ^ 64)

/-- Every integer operand is a value its argument word can carry (R58). -/
def Instr.wf : Instr → Bool
  | .construct _ _ n => signed64 n
  | .constructA _ _ => true
  | .copy _ _ => true
  | .get _ i => signed64 i
  | .set _ _ i => signed64 i
  | .add _ _ => true
  | .flip _ i => signed64 i
  | .reverse _ => true
  | .insert _ _ i => signed64 i
  | .remove _ i => signed64 i
  | .append _ _ => true
  | .count _ => true
  | .endian _ => true
  | .pad _ _ n => signed64 n
  | .padToByte _ => true
  | .trimStart _ _ => true
  | .trimEnd _ _ => true
  | .trimEndian _ _ => true
  | .toByteArray _ bitCount offset => signed64 bitCount && signed64 offset
  | .toByte _ offset => signed64 offset
  | .toSByte _ offset => signed64 offset
  | .toInt16 _ offset => signed64 offset
  | .toUInt16 _ offset => signed64 offset
  | .toInt32 _ offset => signed64 offset
  | .toUInt32 _ offset => signed64 offset
  | .toInt64 _ offset => signed64 offset
  | .toUInt64 _ offset => signed64 offset
  | .fromByteArray _ => true
  | .fromByte _ value => signed64 value
  | .fromSByte _ value => signed64 value
  | .fromInt16 _ value => signed64 value
  | .fromUInt16 _ value => signed64 value
  | .fromInt32 _ value => signed64 value
  | .fromUInt32 _ value => signed64 value
  | .fromInt64 _ value => signed64 value
  | .fromUInt64 _ value => unsigned64 value
  | .and _ _ _ => true
  | .or _ _ _ => true
  | .xor _ _ _ => true
  | .not _ _ => true
  | .rol _ _ n => signed64 n
  | .ror _ _ n => signed64 n
  | .inc _ _ => true
  | .dec _ _ => true
  | .enqueue item weight => signed64 item && signed64 weight
  | .dequeue => true
  | .qcount => true
  | .qclear => true
  | .compress => true
  | .decompress => true
  | .ibclr => true
  | .ibpush byte => signed64 byte
  | .obrd i => signed64 i
  | .olenr => true
  | .obtoib => true
  | .rderr => true
  | .clrerr => true

end Sys2Proof
end

