-- ==== Sys2Proof/Decode.lean ====
section
/-! DEFINITION. Decoding (R57, R58, R60, R61, R63), total on every command record and rejecting by name, and
after it the encoder (R57, R62, R67). -/
namespace Sys2Proof

/-! ## Fields of the header (R57) and the arguments (R58) -/

/-- hdr[11:8]. -/
def Command.rd (c : Command) : Reg := (c.hdr.extractLsb' 8 4).toFin

/-- hdr[15:12]. -/
def Command.rs1 (c : Command) : Reg := (c.hdr.extractLsb' 12 4).toFin

/-- hdr[19:16]. -/
def Command.rs2 (c : Command) : Reg := (c.hdr.extractLsb' 16 4).toFin

/-- The tag a one-bit code stands for: 0 is LE, 1 is BE (R22, R57). -/
def Tag.ofBit (b : Bool) : Tag := if b then .BE else .LE

/-- hdr[20]. -/
def Command.tag (c : Command) : Tag := Tag.ofBit (c.hdr.getLsbD 20)

/-- hdr[21]. -/
def Command.bit (c : Command) : Bool := c.hdr.getLsbD 21

/-- `arg0` as a signed integer (R58). -/
def Command.signedArg0 (c : Command) : Int := c.arg0.toInt

/-- `arg1` as a signed integer (R58). -/
def Command.signedArg1 (c : Command) : Int := c.arg1.toInt

/-- `arg0` as the unsigned 64-bit pattern, which FROMUINT64 alone reads (R58, R129). -/
def Command.unsignedArg0 (c : Command) : Int := c.arg0.toNat

/-! ## The decoder -/

/-- Why a record is no command (R63); both raise IllegalCommand. -/
inductive DecodeReject where
  /-- hdr[31:22] is not all 0. -/
  | reservedBits
  /-- the opcode field is not one of the 57 values. -/
  | unknownOpcode
  deriving DecidableEq, Repr

/-- The mask of every row of the opcode table: the reserved bits and the opcode (R61). -/
def tableMask : Header := 0xFFC000FF#32

/-- The command a record stands for: the row for which `hdr AND mask = match` (R61, R62), its
operands from the fields the row uses (R60), or the reason there is none (R63). -/
def decode (c : Command) : Except DecodeReject Instr :=
  match c.hdr &&& tableMask with
  | 0x00000001#32 => .ok (.construct c.rd c.tag c.signedArg0)
  | 0x00000002#32 => .ok (.constructA c.rd c.tag)
  | 0x00000003#32 => .ok (.copy c.rd c.rs1)
  | 0x00000004#32 => .ok (.get c.rs1 c.signedArg0)
  | 0x00000005#32 => .ok (.set c.rd c.bit c.signedArg0)
  | 0x00000006#32 => .ok (.add c.rd c.bit)
  | 0x00000007#32 => .ok (.flip c.rd c.signedArg0)
  | 0x00000008#32 => .ok (.reverse c.rd)
  | 0x00000009#32 => .ok (.insert c.rd c.bit c.signedArg0)
  | 0x0000000A#32 => .ok (.remove c.rd c.signedArg0)
  | 0x0000000B#32 => .ok (.append c.rd c.rs1)
  | 0x0000000C#32 => .ok (.count c.rs1)
  | 0x0000000D#32 => .ok (.endian c.rs1)
  | 0x00000010#32 => .ok (.pad c.rd c.bit c.signedArg0)
  | 0x00000011#32 => .ok (.padToByte c.rd)
  | 0x00000012#32 => .ok (.trimStart c.rd c.bit)
  | 0x00000013#32 => .ok (.trimEnd c.rd c.bit)
  | 0x00000014#32 => .ok (.trimEndian c.rd c.bit)
  | 0x00000020#32 => .ok (.toByteArray c.rs1 c.signedArg0 c.signedArg1)
  | 0x00000021#32 => .ok (.toByte c.rs1 c.signedArg0)
  | 0x00000022#32 => .ok (.toSByte c.rs1 c.signedArg0)
  | 0x00000023#32 => .ok (.toInt16 c.rs1 c.signedArg0)
  | 0x00000024#32 => .ok (.toUInt16 c.rs1 c.signedArg0)
  | 0x00000025#32 => .ok (.toInt32 c.rs1 c.signedArg0)
  | 0x00000026#32 => .ok (.toUInt32 c.rs1 c.signedArg0)
  | 0x00000027#32 => .ok (.toInt64 c.rs1 c.signedArg0)
  | 0x00000028#32 => .ok (.toUInt64 c.rs1 c.signedArg0)
  | 0x00000030#32 => .ok (.fromByteArray c.rd)
  | 0x00000031#32 => .ok (.fromByte c.rd c.signedArg0)
  | 0x00000032#32 => .ok (.fromSByte c.rd c.signedArg0)
  | 0x00000033#32 => .ok (.fromInt16 c.rd c.signedArg0)
  | 0x00000034#32 => .ok (.fromUInt16 c.rd c.signedArg0)
  | 0x00000035#32 => .ok (.fromInt32 c.rd c.signedArg0)
  | 0x00000036#32 => .ok (.fromUInt32 c.rd c.signedArg0)
  | 0x00000037#32 => .ok (.fromInt64 c.rd c.signedArg0)
  | 0x00000038#32 => .ok (.fromUInt64 c.rd c.unsignedArg0)
  | 0x00000040#32 => .ok (.and c.rd c.rs1 c.rs2)
  | 0x00000041#32 => .ok (.or c.rd c.rs1 c.rs2)
  | 0x00000042#32 => .ok (.xor c.rd c.rs1 c.rs2)
  | 0x00000043#32 => .ok (.not c.rd c.rs1)
  | 0x00000044#32 => .ok (.rol c.rd c.rs1 c.signedArg0)
  | 0x00000045#32 => .ok (.ror c.rd c.rs1 c.signedArg0)
  | 0x00000046#32 => .ok (.inc c.rd c.rs1)
  | 0x00000047#32 => .ok (.dec c.rd c.rs1)
  | 0x00000050#32 => .ok (.enqueue c.signedArg0 c.signedArg1)
  | 0x00000051#32 => .ok .dequeue
  | 0x00000052#32 => .ok .qcount
  | 0x00000053#32 => .ok .qclear
  | 0x00000060#32 => .ok .compress
  | 0x00000061#32 => .ok .decompress
  | 0x00000070#32 => .ok .ibclr
  | 0x00000071#32 => .ok (.ibpush c.signedArg0)
  | 0x00000072#32 => .ok (.obrd c.signedArg0)
  | 0x00000073#32 => .ok .olenr
  | 0x00000074#32 => .ok .obtoib
  | 0x00000075#32 => .ok .rderr
  | 0x00000076#32 => .ok .clrerr
  | _ => .error (if c.hdr.extractLsb' 22 10 = 0#10 then .unknownOpcode else .reservedBits)

/-- A record given as one number, bit 0 the least significant bit of the header, `arg0` from bit 32
and `arg1` from bit 96 (R56). -/
def Command.ofNat (w : Nat) : Command where
  hdr := BitVec.ofNat 32 w
  arg0 := BitVec.ofNat 64 (w >>> 32)
  arg1 := BitVec.ofNat 64 (w >>> 96)

/-- The record whose low `nbits` bits are those of `w` and whose other bits are 0. -/
def tableCommand (nbits w : Nat) : Command := Command.ofNat (w % 2 ^ nbits)

/-- What the decoder reads from `tableCommand nbits w`. -/
def decodeTableWord (nbits w : Nat) : Option Instr := (decode (tableCommand nbits w)).toOption

/-! ## The encoder -/

/-- The one-bit code of a tag (R22, R57). -/
def Tag.toBit : Tag → Bool
  | .LE => false
  | .BE => true

/-- A header from its fields (R57), the reserved bits 0. -/
def Header.ofFields (op : BitVec 8) (rd rs1 rs2 : Reg) (e : Tag) (b : Bool) : Header :=
  0#10 ++ BitVec.ofBool b ++ BitVec.ofBool e.toBit ++ (BitVec.ofFin rs2 : BitVec 4) ++
    (BitVec.ofFin rs1 : BitVec 4) ++ (BitVec.ofFin rd : BitVec 4) ++ op

/-- A record from its fields; an integer argument is stored as its 64-bit pattern (R58). A field not
given is 0, as in the encoding of an assembled command (R67). -/
def Command.ofFields (op : BitVec 8) (rd rs1 rs2 : Reg := 0) (e : Tag := .LE) (b : Bool := false)
    (arg0 arg1 : Int := 0) : Command where
  hdr := Header.ofFields op rd rs1 rs2 e b
  arg0 := BitVec.ofInt 64 arg0
  arg1 := BitVec.ofInt 64 arg1

/-- The record of a command (R62), unused fields 0. -/
def encode : Instr → Command
  | .construct rd e n => .ofFields 0x01#8 (rd := rd) (e := e) (arg0 := n)
  | .constructA rd e => .ofFields 0x02#8 (rd := rd) (e := e)
  | .copy rd rs1 => .ofFields 0x03#8 (rd := rd) (rs1 := rs1)
  | .get rs1 i => .ofFields 0x04#8 (rs1 := rs1) (arg0 := i)
  | .set rd b i => .ofFields 0x05#8 (rd := rd) (b := b) (arg0 := i)
  | .add rd b => .ofFields 0x06#8 (rd := rd) (b := b)
  | .flip rd i => .ofFields 0x07#8 (rd := rd) (arg0 := i)
  | .reverse rd => .ofFields 0x08#8 (rd := rd)
  | .insert rd b i => .ofFields 0x09#8 (rd := rd) (b := b) (arg0 := i)
  | .remove rd i => .ofFields 0x0A#8 (rd := rd) (arg0 := i)
  | .append rd rs1 => .ofFields 0x0B#8 (rd := rd) (rs1 := rs1)
  | .count rs1 => .ofFields 0x0C#8 (rs1 := rs1)
  | .endian rs1 => .ofFields 0x0D#8 (rs1 := rs1)
  | .pad rd b n => .ofFields 0x10#8 (rd := rd) (b := b) (arg0 := n)
  | .padToByte rd => .ofFields 0x11#8 (rd := rd)
  | .trimStart rd b => .ofFields 0x12#8 (rd := rd) (b := b)
  | .trimEnd rd b => .ofFields 0x13#8 (rd := rd) (b := b)
  | .trimEndian rd b => .ofFields 0x14#8 (rd := rd) (b := b)
  | .toByteArray rs1 bitCount offset => .ofFields 0x20#8 (rs1 := rs1) (arg0 := bitCount) (arg1 := offset)
  | .toByte rs1 offset => .ofFields 0x21#8 (rs1 := rs1) (arg0 := offset)
  | .toSByte rs1 offset => .ofFields 0x22#8 (rs1 := rs1) (arg0 := offset)
  | .toInt16 rs1 offset => .ofFields 0x23#8 (rs1 := rs1) (arg0 := offset)
  | .toUInt16 rs1 offset => .ofFields 0x24#8 (rs1 := rs1) (arg0 := offset)
  | .toInt32 rs1 offset => .ofFields 0x25#8 (rs1 := rs1) (arg0 := offset)
  | .toUInt32 rs1 offset => .ofFields 0x26#8 (rs1 := rs1) (arg0 := offset)
  | .toInt64 rs1 offset => .ofFields 0x27#8 (rs1 := rs1) (arg0 := offset)
  | .toUInt64 rs1 offset => .ofFields 0x28#8 (rs1 := rs1) (arg0 := offset)
  | .fromByteArray rd => .ofFields 0x30#8 (rd := rd)
  | .fromByte rd value => .ofFields 0x31#8 (rd := rd) (arg0 := value)
  | .fromSByte rd value => .ofFields 0x32#8 (rd := rd) (arg0 := value)
  | .fromInt16 rd value => .ofFields 0x33#8 (rd := rd) (arg0 := value)
  | .fromUInt16 rd value => .ofFields 0x34#8 (rd := rd) (arg0 := value)
  | .fromInt32 rd value => .ofFields 0x35#8 (rd := rd) (arg0 := value)
  | .fromUInt32 rd value => .ofFields 0x36#8 (rd := rd) (arg0 := value)
  | .fromInt64 rd value => .ofFields 0x37#8 (rd := rd) (arg0 := value)
  | .fromUInt64 rd value => .ofFields 0x38#8 (rd := rd) (arg0 := value)
  | .and rd rs1 rs2 => .ofFields 0x40#8 (rd := rd) (rs1 := rs1) (rs2 := rs2)
  | .or rd rs1 rs2 => .ofFields 0x41#8 (rd := rd) (rs1 := rs1) (rs2 := rs2)
  | .xor rd rs1 rs2 => .ofFields 0x42#8 (rd := rd) (rs1 := rs1) (rs2 := rs2)
  | .not rd rs1 => .ofFields 0x43#8 (rd := rd) (rs1 := rs1)
  | .rol rd rs1 n => .ofFields 0x44#8 (rd := rd) (rs1 := rs1) (arg0 := n)
  | .ror rd rs1 n => .ofFields 0x45#8 (rd := rd) (rs1 := rs1) (arg0 := n)
  | .inc rd rs1 => .ofFields 0x46#8 (rd := rd) (rs1 := rs1)
  | .dec rd rs1 => .ofFields 0x47#8 (rd := rd) (rs1 := rs1)
  | .enqueue item weight => .ofFields 0x50#8 (arg0 := item) (arg1 := weight)
  | .dequeue => .ofFields 0x51#8
  | .qcount => .ofFields 0x52#8
  | .qclear => .ofFields 0x53#8
  | .compress => .ofFields 0x60#8
  | .decompress => .ofFields 0x61#8
  | .ibclr => .ofFields 0x70#8
  | .ibpush byte => .ofFields 0x71#8 (arg0 := byte)
  | .obrd i => .ofFields 0x72#8 (arg0 := i)
  | .olenr => .ofFields 0x73#8
  | .obtoib => .ofFields 0x74#8
  | .rderr => .ofFields 0x75#8
  | .clrerr => .ofFields 0x76#8

end Sys2Proof
end

