-- ==== Sys2Proof/Config.lean ====
section
/-! DEFINITION. What an implementation fixes (the parameters of R6) and the one free value. -/
namespace Sys2Proof

/-- A capacity: `some n` is the bound n, `none` is the spec's `inf` (R6). -/
abbrev Cap := Option Nat

/-- The implementation parameters of R6 that are open. NBF = 16 and WEIGHT_BITS = 32 are fixed. -/
structure Params where
  /-- MAXBITS: largest Count a bit-sequence register can hold. -/
  maxBits : Cap
  /-- BUF_CAP: largest length in bytes of IBUF and of OBUF. -/
  bufCap : Cap
  /-- QCAP: largest number of entries in Q. -/
  qCap : Cap
  /-- NODE_CAP: largest number of tree nodes in the codec's scratch node store. -/
  nodeCap : Cap
  /-- ITEM_BITS: width of a queue item, always finite (log entry 13). -/
  itemBits : Nat
  deriving DecidableEq, Repr

/-- The default values of R6. -/
def Params.default : Params where
  maxBits := some 65536
  bufCap := some 65536
  qCap := some 256
  nodeCap := some 511
  itemBits := 16

/-- FREE VALUE (log entry 6): what a 64-bit result word holds for a length of 2^64 or more.
R59 gives `r0` 64 bits and no rule gives the word for such a length, which only an unbounded or
enormous capacity admits. Nothing in Lean can evaluate it. -/
opaque Config.wideLength : Nat → Word64

end Sys2Proof
end

