-- ==== Sys2Proof/Machine/State.lean ====
section
/-! DEFINITION. The state of the block (R20 to R34) as plain data, its reset value (R34, R240), and the reasons a step can stop. -/
namespace Sys2Proof.Machine

/-- A BitSequence value `<bits, tag>` (R12): the stored bits, index 0 first (R10), and the tag. -/
structure BitSeq where
  bits : List Bool
  tag : Tag
  deriving DecidableEq, Repr

/-- An entry of a queue (R29): an item and its signed weight. -/
structure Entry (α : Type) where
  item : α
  weight : Int
  deriving DecidableEq, Repr

/-- A byte array (R30): the bytes from index 0 up to its length; no other byte exists. -/
abbrev Memory := List Byte

/-- The fault kinds of R221. -/
inductive FaultKind where
  | outOfRange
  | boundaryOutOfRange
  | invalidArgument
  | nullArgument
  | corruptData
  | illegalCommand
  | capacityExceeded
  | queueEmpty
  deriving DecidableEq, Repr

/-- A response (R59): the status (0 = OK, otherwise a fault-kind code) and the two result words. -/
structure Response where
  status : BitVec 8
  r0 : Word64
  r1 : Word64
  deriving DecidableEq, Repr

/-- Everything the block holds between two commands (R20), and what the host sees and supplies. -/
structure State where
  /-- The parameters of R6, fixed for the life of the block (R33); log entry 1. -/
  cfg : Params
  /-- BF[0]..BF[15] (R21, R22); `none` is a null register, `valid` = 0 (R23). -/
  bf : Vector (Option BitSeq) 16
  /-- Q, oldest entry first (R29). -/
  q : List (Entry Nat)
  /-- IBUF with IVALID and ILEN (R28, R30); `none` is the null array, IVALID = 0. -/
  ibuf : Option Memory
  /-- OBUF with OLEN (R28, R30). -/
  obuf : Memory
  /-- ERR, the code of the first fault since reset or the last CLRERR (R27). -/
  err : BitVec 8
  /-- The commands the host has issued and the block has not yet run, oldest first (R25, R54); log
  entry 2. -/
  cmds : List Command
  /-- The response of the last command (R54, R59); `none` before the first; log entry 3. -/
  resp : Option Response
  deriving DecidableEq, Repr

/-- No step of the block stops the machine: every fault of the spec ends one command with a response
and the block goes on (R220, R227). So there is no reason to stop, and no constructor. -/
inductive Fault where
  deriving DecidableEq, Repr

/-- Why the model gives an instruction no meaning. -/
inductive Refusal where
  /-- Raised by `exec` for an instruction whose meaning is not written; safe. No arm raises it. -/
  | notModelled (mnemonic : String)
  deriving DecidableEq, Repr

/-- What a command answers: always a next state in this machine (R227). -/
abbrev Out := Host.Outcome State Fault Refusal

/-- The block with the parameters `p`, right after reset (R34, R240): every register null, Q empty,
the input array null, OBUF empty, ERR 0; no command issued and none answered. -/
def State.resetWith (p : Params) : State where
  cfg := p
  bf := Vector.replicate 16 none
  q := []
  ibuf := none
  obuf := []
  err := 0#8
  cmds := []
  resp := none

/-- The block right after reset, with the default parameters of R6. -/
def State.reset : State := State.resetWith Params.default

end Sys2Proof.Machine
end

