-- ==== Sys2Proof/Machine/Bits.lean ====
section
/-! DEFINITION. Bit lists, bytes and BitSequence values: the primitives of `00_scope.md` (R10 to R15) and the pure
part of the bit-sequence operations of `40_` to `43_`. -/
namespace Sys2Proof.Machine

/-! ## Values, slices, reversal -/

/-- The unsigned value of a bit list whose index 0 is the least significant bit (R13, tag LE). -/
def valLsb : List Bool → Nat
  | [] => 0
  | b :: s => b.toNat + 2 * valLsb s

/-- The logical value of a BitSequence (R13): index 0 is least significant for LE, most significant
for BE. -/
def BitSeq.val (x : BitSeq) : Nat :=
  match x.tag with
  | .LE => valLsb x.bits
  | .BE => valLsb x.bits.reverse

/-- Count, the number of bits (R12, R22). -/
def BitSeq.count (x : BitSeq) : Nat := x.bits.length

/-- `s[a .. a + n)` (R11). -/
def slice (s : List Bool) (a n : Nat) : List Bool := (s.drop a).take n

/-- The other tag. -/
def flipTag : Tag → Tag
  | .LE => .BE
  | .BE => .LE

/-- Reverse (R88): stored order reversed and tag toggled. -/
def BitSeq.reversed (x : BitSeq) : BitSeq := ⟨x.bits.reverse, flipTag x.tag⟩

/-! ## Bits and bytes (R14, R15, R120, R121) -/

/-- The value of a bit list whose first bit is the most significant. -/
def valMsb (s : List Bool) : Nat := valLsb s.reverse

/-- `pack_msb` (R14): each group of 8 bits, its first bit the most significant, is one byte. A rest of
fewer than 8 bits gives none; every use has a multiple of 8 bits. -/
def packMsb : List Bool → List Byte
  | b0 :: b1 :: b2 :: b3 :: b4 :: b5 :: b6 :: b7 :: s =>
    BitVec.ofNat 8 (valMsb [b0, b1, b2, b3, b4, b5, b6, b7]) :: packMsb s
  | _ => []

/-- `bits8_msb` (R14): the 8 bits of a byte, most significant first. -/
def bitsMsb (v : Byte) : List Bool := (List.range 8).map fun t => v.getMsbD t

/-- `unpack_msb` (R14). -/
def unpackMsb (m : Memory) : List Bool := m.flatMap bitsMsb

/-- The bits 0 .. w-1 of `v mod 2^w`, bit 0 first (R15, R121). -/
def lowBits (w : Nat) (v : Int) : List Bool :=
  (List.range w).map fun i => (BitVec.ofInt w v).getLsbD i

/-- The bits of a byte array in the order FROMBYTEARRAY stores them (R45, R120): byte m at indices
8m .. 8m+7, its least significant bit first. -/
def unpackLsb (m : Memory) : List Bool :=
  m.flatMap fun v => (List.range 8).map fun t => v.getLsbD t

/-- The bit list CONSTRUCTA copies (R82): one element per byte, false exactly when the byte is 0. -/
def boolArray (m : Memory) : List Bool := m.map fun v => v != 0#8

/-- The bytes TOBYTEARRAY gives for the selected bits `w` of a sequence tagged `t` (R44, R110): bring
them to big-endian stored order, then pack. -/
def bytesOf (w : List Bool) (t : Tag) : Memory :=
  match t with
  | .LE => packMsb w.reverse
  | .BE => packMsb w

/-! ## Access and mutation (R85 to R91) -/

/-- The bit at `i` replaced by `b` (R85). -/
def BitSeq.setBit (x : BitSeq) (i : Nat) (b : Bool) : BitSeq := ⟨x.bits.set i b, x.tag⟩

/-- The stored bit at `i` (R84). -/
def BitSeq.getBit (x : BitSeq) (i : Nat) : Bool := x.bits.getD i false

/-- The bit at `i` inverted (R87). -/
def BitSeq.flipBit (x : BitSeq) (i : Nat) : BitSeq := x.setBit i (!x.getBit i)

/-- Bit `b` inserted so that it becomes index `i` (R89). -/
def BitSeq.insertBit (x : BitSeq) (i : Nat) (b : Bool) : BitSeq :=
  ⟨x.bits.take i ++ [b] ++ x.bits.drop i, x.tag⟩

/-- The bit at index `i` deleted (R90). -/
def BitSeq.removeBit (x : BitSeq) (i : Nat) : BitSeq :=
  ⟨x.bits.take i ++ x.bits.drop (i + 1), x.tag⟩

/-- Bits added at the end, the tag kept (R86, R91). -/
def BitSeq.appendBits (x : BitSeq) (s : List Bool) : BitSeq := ⟨x.bits ++ s, x.tag⟩

/-! ## Pad and trim (R100 to R104) -/

/-- `n` copies of `b` added at index 0 for BE, at the end for LE (R100). -/
def BitSeq.padded (x : BitSeq) (b : Bool) (n : Nat) : BitSeq :=
  match x.tag with
  | .LE => ⟨x.bits ++ List.replicate n b, .LE⟩
  | .BE => ⟨List.replicate n b ++ x.bits, .BE⟩

/-- `(-n) mod 8`, the least k with `(n + k) mod 8 = 0` (R74, R101). -/
def padCount (n : Nat) : Nat := (8 - n % 8) % 8

/-- The leading bits equal to `b` removed (R102). -/
def trimLeading (b : Bool) (s : List Bool) : List Bool := s.dropWhile (· == b)

/-- The trailing bits equal to `b` removed (R103). -/
def trimTrailing (b : Bool) (s : List Bool) : List Bool := (trimLeading b s.reverse).reverse

/-- TrimStart (R102). -/
def BitSeq.trimmedStart (x : BitSeq) (b : Bool) : BitSeq := ⟨trimLeading b x.bits, x.tag⟩

/-- TrimEnd (R103). -/
def BitSeq.trimmedEnd (x : BitSeq) (b : Bool) : BitSeq := ⟨trimTrailing b x.bits, x.tag⟩

/-- TrimEndian (R104): TrimEnd for LE, else TrimStart. -/
def BitSeq.trimmedEndian (x : BitSeq) (b : Bool) : BitSeq :=
  match x.tag with
  | .LE => x.trimmedEnd b
  | .BE => x.trimmedStart b

/-! ## Bitwise operators, rotates, counters (R140 to R153) -/

/-- `op` over the prefix both lists have; the rest of the first list is copied (R140). -/
def zipPrefix (op : Bool → Bool → Bool) : List Bool → List Bool → List Bool
  | x :: s, y :: t => op x y :: zipPrefix op s t
  | s, [] => s
  | [], _ => []

/-- A binary operator on a longer (or equally long first) operand `l` and a shorter one `s` (R140):
the shorter is reversed first when both the tags and the lengths differ. -/
def combineOnto (op : Bool → Bool → Bool) (l s : BitSeq) : BitSeq :=
  let s' := if l.tag ≠ s.tag ∧ l.count ≠ s.count then s.reversed else s
  ⟨zipPrefix op l.bits s'.bits, l.tag⟩

/-- AND, OR and XOR of `a` (rs1) and `b` (rs2) (R140): on equal lengths `a` counts as the longer. -/
def combine (op : Bool → Bool → Bool) (a b : BitSeq) : BitSeq :=
  if b.count > a.count then combineOnto op b a else combineOnto op a b

/-- Every bit complemented (R144). -/
def BitSeq.complement (x : BitSeq) : BitSeq := ⟨x.bits.map (!·), x.tag⟩

/-- Rotate left by `n` mod Count (R145, R146): every bit moves toward index 0, the first bits wrap to
the end. -/
def BitSeq.rotatedLeft (x : BitSeq) (n : Nat) : BitSeq :=
  let c := n % x.count
  ⟨x.bits.drop c ++ x.bits.take c, x.tag⟩

/-- Rotate right (R145, R147): "reverse, left-rotate-by-count, reverse". -/
def BitSeq.rotatedRight (x : BitSeq) (n : Nat) : BitSeq :=
  (x.reversed.rotatedLeft n).reversed

/-- Ripple carry from index 0 (R152). -/
def incBits : List Bool → List Bool
  | [] => []
  | false :: s => true :: s
  | true :: s => false :: incBits s

/-- Ripple borrow from index 0 (R153). -/
def decBits : List Bool → List Bool
  | [] => []
  | true :: s => false :: s
  | false :: s => true :: decBits s

/-- A counter step on the LE view, given back in the source's orientation (R150, R152). -/
def BitSeq.counted (f : List Bool → List Bool) (x : BitSeq) : BitSeq :=
  match x.tag with
  | .LE => ⟨f x.bits, .LE⟩
  | .BE => (BitSeq.mk (f x.reversed.bits) .LE).reversed

end Sys2Proof.Machine
end

