-- ==== Sys2Proof/Machine/Ops.lean ====
section
/-! DEFINITION. The named operations over the state: registers, byte arrays, queue, response, fault entry (R226), and taking
the next command. -/
namespace Sys2Proof.Machine

/-! ## Capacities (R6) -/

/-- A container of length `n` is within the capacity; `inf` bounds nothing (R6). -/
def admits (c : Cap) (n : Nat) : Bool :=
  match c with
  | none => true
  | some m => decide (n ≤ m)

/-! ## Bit-sequence registers (R16, R21, R36) -/

/-- `BF[r]`: the value of a register, `none` if null. -/
def State.reg (s : State) (r : Reg) : Option BitSeq := s.bf[r]

/-- `BF[r] <- x`, which also sets `valid` (R16). -/
def State.setReg (s : State) (r : Reg) (x : BitSeq) : State :=
  { s with bf := s.bf.set r (some x) }

/-! ## Byte arrays (R16, R28, R30, R40) -/

/-- The byte at index `a`; no byte exists at or beyond the length (R30, R40). -/
def Memory.read (m : Memory) (a : Nat) : Option Byte := m[a]?

/-- One byte appended (R211). -/
def Memory.push (m : Memory) (v : Byte) : Memory := m ++ [v]

/-- A byte array is within the capacity BUF_CAP (R30). A byte list has no other form to keep. -/
def Memory.wf (c : Cap) (m : Memory) : Bool := admits c m.length

/-- IVALID (R28). -/
def State.ivalid (s : State) : Bool := s.ibuf.isSome

/-- IBUF[0..ILEN), empty while the array is null. -/
def State.input (s : State) : Memory := s.ibuf.getD []

/-- ILEN (R28). -/
def State.ilen (s : State) : Nat := s.input.length

/-- OLEN (R28). -/
def State.olen (s : State) : Nat := s.obuf.length

/-- `IBUF <- m`, which sets ILEN and sets IVALID to 1 (R16). -/
def State.setInput (s : State) (m : Memory) : State := { s with ibuf := some m }

/-- `OBUF <- m`, which sets OLEN (R16). -/
def State.setOutput (s : State) (m : Memory) : State := { s with obuf := m }

/-! ## The queue (R29, R160 to R162) -/

/-- `enqueue(item, weight)`: at the end of the list (R161). -/
def enqueue {α : Type} (q : List (Entry α)) (item : α) (weight : Int) : List (Entry α) :=
  q ++ [⟨item, weight⟩]

/-- `dequeue()` (R162): the earliest entry of least weight, and the other entries in their order. -/
def dequeue {α : Type} : List (Entry α) → Option (Entry α × List (Entry α))
  | [] => none
  | e :: q =>
    match dequeue q with
    | none => some (e, [])
    | some (m, rest) => if e.weight ≤ m.weight then some (e, q) else some (m, e :: rest)

/-- `Q <- q`. -/
def State.setQueue (s : State) (q : List (Entry Nat)) : State := { s with q := q }

/-! ## Responses and fault entry (R59, R221, R226) -/

/-- The code of a fault kind (R221). -/
def FaultKind.code : FaultKind → BitVec 8
  | .outOfRange => 1#8
  | .boundaryOutOfRange => 2#8
  | .invalidArgument => 3#8
  | .nullArgument => 4#8
  | .corruptData => 5#8
  | .illegalCommand => 6#8
  | .capacityExceeded => 7#8
  | .queueEmpty => 8#8

/-- A command ends with status OK and the two result words (R16 `resp`, R59). -/
def State.answer (s : State) (r0 r1 : Word64) : State := { s with resp := some ⟨0#8, r0, r1⟩ }

/-- FAULT ENTRY (R226), the one operation by which every fault of the block is taken: ERR takes the
code if it held 0, the response carries the code with `r0 = r1 = 0`, nothing else changes. There is
nothing to return from (R227). -/
def State.enterFault (s : State) (k : FaultKind) : State :=
  { s with
    err := if s.err = 0#8 then k.code else s.err
    resp := some ⟨k.code, 0#64, 0#64⟩ }

/-- ERR <- 0 (R216). -/
def State.clearErr (s : State) : State := { s with err := 0#8 }

/-- What a command that raises no fault leaves: the state and the two result words. -/
structure Result where
  state : State
  r0 : Word64
  r1 : Word64

/-- `resp()`: the updated state, both result words 0 (R16). -/
def done (s : State) : Except FaultKind Result := .ok ⟨s, 0#64, 0#64⟩

/-- `resp(r0, r1)`: the updated state and the result words (R16). -/
def returning (s : State) (r0 : Word64) (r1 : Word64 := 0#64) : Except FaultKind Result :=
  .ok ⟨s, r0, r1⟩

/-- A command's run from `s`: its checks and its one update (R17), then its response (R59) or, when a
check fails, fault entry on the unchanged state (R226). -/
def run (s : State) (body : Except FaultKind Result) : Out :=
  match body with
  | .ok r => .next (r.state.answer r.r0 r.r1)
  | .error k => .next (s.enterFault k)

/-! ## Taking the next command (R25, R54) -/

/-- The command the block runs next, and the state once it is taken: the oldest the host has issued
(R25); `none` while the host has issued nothing more. -/
def fetch (s : State) : Option (Command × State) :=
  match s.cmds with
  | [] => none
  | c :: rest => some (c, { s with cmds := rest })

/-- The host issues one more command: it runs after all that are still waiting, in the order in which
the host issues them (R25, R52). -/
def State.issue (s : State) (c : Command) : State := { s with cmds := s.cmds ++ [c] }

/-- The state whose next command is `c`, in the place of the one that was to run next (of none when
none was waiting). This is no act of the host: `issue` is that (log entry 2). -/
def State.withNext (s : State) (c : Command) : State := { s with cmds := c :: s.cmds.tail }

/-- An illegal command (R63): IllegalCommand, nothing else changes. -/
def illegalCommand (s : State) : Out := run s (.error .illegalCommand)

/-- No command is issued: the block waits and nothing changes (R240, log entry 2). -/
def waitForCommand (s : State) : Out := .next s

end Sys2Proof.Machine
end

