-- ==== Sys2Proof/Machine/Operands.lean ====
section
/-! DEFINITION. The operand forms and checks every command rule is written with (R17, R66, R80), and the result words. There
is no Flags.lean: the block has no flag (R26). -/
namespace Sys2Proof.Machine

/-- `if bad then raise k` (R16). -/
def raiseIf (bad : Prop) [Decidable bad] (k : FaultKind) : Except FaultKind Unit :=
  if bad then .error k else .ok ()

/-- `need(r)` (R80): the value of a register, NullArgument if it is null. -/
def need (s : State) (r : Reg) : Except FaultKind BitSeq :=
  match s.reg r with
  | some x => .ok x
  | none => .error .nullArgument

/-- The input byte array IBUF[0..ILEN), NullArgument if IVALID = 0 (R222). -/
def needInput (s : State) : Except FaultKind Memory :=
  match s.ibuf with
  | some m => .ok m
  | none => .error .nullArgument

/-- `fits(n)` (R80): CapacityExceeded if `n > MAXBITS`. -/
def fits (s : State) (n : Nat) : Except FaultKind Unit :=
  raiseIf (admits s.cfg.maxBits n = false) .capacityExceeded

/-- CapacityExceeded if a byte array of length `n` is longer than BUF_CAP (R222). -/
def fitsBuffer (s : State) (n : Nat) : Except FaultKind Unit :=
  raiseIf (admits s.cfg.bufCap n = false) .capacityExceeded

/-- An index below `n` (R66): OutOfRange unless `0 <= i < n`. -/
def indexBelow (i : Int) (n : Nat) : Except FaultKind Nat :=
  if i < 0 ∨ i ≥ n then .error .outOfRange else .ok i.toNat

/-- A count (R66): InvalidArgument if negative. -/
def countArg (n : Int) : Except FaultKind Nat :=
  if n < 0 then .error .invalidArgument else .ok n.toNat

/-- A value within `[lo, hi]`, else InvalidArgument (R66, R121, R161). -/
def valueWithin (v lo hi : Int) : Except FaultKind Unit := raiseIf (v < lo ∨ v > hi) .invalidArgument

/-- A sequence of Count 0 is rejected with InvalidArgument (R140, R144, R145, R150). -/
def nonEmpty (x : BitSeq) : Except FaultKind Unit := raiseIf (x.count = 0) .invalidArgument

/-- A length as a result word (R59). A length of 2^64 or more has no stated word: free value, log
entry 6. -/
def lengthWord (n : Nat) : Word64 := if n < 2 ^ 64 then BitVec.ofNat 64 n else Config.wideLength n

/-- A bit as a result word (R84). -/
def bitWord (b : Bool) : Word64 := if b then 1#64 else 0#64

/-- A tag as a result word: LE is 0, BE is 1 (R93). -/
def tagWord : Tag → Word64
  | .LE => 0#64
  | .BE => 1#64

/-- `zext_64` of a value below 2^64 (R15). -/
def zext64 (v : Nat) : Word64 := BitVec.ofNat 64 v

/-- `sext_W_64` of a `w`-bit pattern (R15). -/
def sext64 (w v : Nat) : Word64 := (BitVec.ofNat w v).signExtend 64

/-- The 64-bit two's complement pattern of a signed weight (R162, `sext_32_64`). -/
def weightWord (w : Int) : Word64 := BitVec.ofInt 64 w

/-- Whether a conversion is of a signed type (R112 to R119). -/
inductive Sign where
  | signed
  | unsigned
  deriving DecidableEq, Repr

/-- The least and the greatest value of a `w`-bit type (R121). -/
def typeRange (sg : Sign) (w : Nat) : Int × Int :=
  match sg with
  | .unsigned => (0, 2 ^ w - 1)
  | .signed => (-(2 ^ (w - 1)), 2 ^ (w - 1) - 1)

end Sys2Proof.Machine
end

