-- ==== Sys2Proof/Machine/Bitwise.lean ====
section
/-! DEFINITION. The bitwise, rotate and counter commands (`43_bitseq_bitwise_shift.md`). -/
namespace Sys2Proof.Machine

/-- The common rule of AND, OR, XOR (R140). -/
def bitwise (op : Bool → Bool → Bool) (rd rs1 rs2 : Reg) (s : State) : Out := run s do
  let a ← need s rs1
  let b ← need s rs2
  nonEmpty a
  nonEmpty b
  done (s.setReg rd (combine op a b))

/-- AND (R141). -/
def execAnd (rd rs1 rs2 : Reg) (s : State) : Out := bitwise (fun x y => x && y) rd rs1 rs2 s

/-- OR (R142). -/
def execOr (rd rs1 rs2 : Reg) (s : State) : Out := bitwise (fun x y => x || y) rd rs1 rs2 s

/-- XOR (R143). -/
def execXor (rd rs1 rs2 : Reg) (s : State) : Out := bitwise (fun x y => x != y) rd rs1 rs2 s

/-- NOT (R144). -/
def execNot (rd rs1 : Reg) (s : State) : Out := run s do
  let x ← need s rs1
  nonEmpty x
  done (s.setReg rd x.complement)

/-- The common rule of ROL and ROR (R145): a zero length is rejected before a negative count (R225). -/
def rotate (f : BitSeq → Nat → BitSeq) (rd rs1 : Reg) (n : Int) (s : State) : Out := run s do
  let x ← need s rs1
  nonEmpty x
  let n ← countArg n
  done (s.setReg rd (f x n))

/-- ROL (R146). -/
def execRol (rd rs1 : Reg) (n : Int) (s : State) : Out := rotate BitSeq.rotatedLeft rd rs1 n s

/-- ROR (R147). -/
def execRor (rd rs1 : Reg) (n : Int) (s : State) : Out := rotate BitSeq.rotatedRight rd rs1 n s

/-- The common rule of INC and DEC (R150). -/
def counter (f : List Bool → List Bool) (rd rs1 : Reg) (s : State) : Out := run s do
  let x ← need s rs1
  nonEmpty x
  done (s.setReg rd (x.counted f))

/-- INC (R152). -/
def execInc (rd rs1 : Reg) (s : State) : Out := counter incBits rd rs1 s

/-- DEC (R153). -/
def execDec (rd rs1 : Reg) (s : State) : Out := counter decBits rd rs1 s

end Sys2Proof.Machine
end

