-- ==== Sys2Proof/Machine/Huffman.lean ====
section
/-! DEFINITION. The functions `compress` (R171 to R179) and `decompress` (R191 to R198) over the format of R70 to R77. Their
scratch state lives in these functions only (R31). -/
namespace Sys2Proof.Machine

/-- A node of the scratch node store (R32). -/
inductive Tree where
  | leaf (symbol : Byte)
  | node (left right : Tree) (weight : Int)
  deriving DecidableEq, Repr

/-! ## Building the tree (R171 to R174) -/

/-- `freq(s)`: how often the byte occurs (R171). -/
def freq (b : Memory) (v : Byte) : Nat := b.count v

/-- The seeded queue: one leaf per distinct byte value, in ascending value (R172). -/
def seedQueue (b : Memory) : List (Entry Tree) :=
  (List.range 256).filterMap fun n =>
    let v := BitVec.ofNat 8 n
    if freq b v > 0 then some ⟨.leaf v, freq b v⟩ else none

/-- The combine loop (R173): while two entries can be dequeued, combine them, the first dequeued on
the left; the last entry is the root. `fuel` is the number of entries, one fewer each round. -/
def combineLoop : (fuel : Nat) → List (Entry Tree) → Option Tree
  | 0, _ => none
  | fuel + 1, q =>
    match dequeue q with
    | none => none
    | some (x, q1) =>
      match dequeue q1 with
      | none => some x.item
      | some (y, q2) =>
        combineLoop fuel
          (enqueue q2 (.node x.item y.item (x.weight + y.weight)) (x.weight + y.weight))

/-- The Huffman tree of an input, `none` when the input is empty (R173, R174, R179). -/
def huffmanTree (b : Memory) : Option Tree := combineLoop (seedQueue b).length (seedQueue b)

/-! ## Codes, serialization, assembly (R72, R175 to R178) -/

/-- `codes(t, p)`: the path to each leaf, root to leaf, behind `p` (R175). -/
def codes : Tree → List Bool → List (Byte × List Bool)
  | .leaf v, p => [(v, p)]
  | .node l r _, p => codes l (p ++ [false]) ++ codes r (p ++ [true])

/-- The code table of a root: the code of an only symbol is the one bit 0 (R175, D24). -/
def codeTable : Tree → List (Byte × List Bool)
  | .leaf v => [(v, [false])]
  | .node l r w => codes (.node l r w) []

/-- The code of a byte in the tree's table (R175). -/
def codeOf (root : Tree) (v : Byte) : List Bool := ((codeTable root).lookup v).getD []

/-- `ser` (R72). -/
def serialize : Tree → List Bool
  | .leaf v => true :: bitsMsb v
  | .node l r _ => false :: (serialize l ++ serialize r)

/-- The payload bits: the code of every input byte, in input order (R73, R177). -/
def payload (root : Tree) (b : Memory) : List Bool := b.flatMap (codeOf root)

/-- The assembled stream (R71, R74, R178): pad count, tree, payload, pad bits. -/
def assemble (t p : List Bool) : List Bool :=
  let pad := padCount (t.length + p.length)
  bitsMsb (BitVec.ofNat 8 pad) ++ t ++ p ++ List.replicate pad false

/-- `compress` (R171 to R179); an input with no root, the empty one, gives [0x00] (R76, R179). -/
def compress (b : Memory) : Memory :=
  match huffmanTree b with
  | none => [0x00#8]
  | some root => packMsb (assemble (serialize root) (payload root b))

/-! ## Decoding (R191 to R198) -/

/-- `parse` (R194) on the bits from the current position on, with `n` nodes parsed so far: the tree,
the nodes parsed then, and the bits left. Faults in stream order (R225; log entry 7): the bits run
out, a leaf's 8 bits are cut off, or the node exceeds NODE_CAP. Each call consumes a bit, so `fuel`,
the number of bits at the start, runs out only when no bit is left. -/
def parseTree (cap : Cap) : (fuel : Nat) → (n : Nat) → List Bool →
    Except FaultKind (Tree × Nat × List Bool)
  | 0, _, _ => .error .corruptData
  | _ + 1, _, [] => .error .corruptData
  | _ + 1, n, true :: s =>
    if (s.take 8).length < 8 then .error .corruptData
    else if admits cap (n + 1) then
      .ok (.leaf (BitVec.ofNat 8 (valMsb (s.take 8))), n + 1, s.drop 8)
    else .error .capacityExceeded
  | fuel + 1, n, false :: s =>
    if admits cap (n + 1) then
      match parseTree cap fuel (n + 1) s with
      | .error k => .error k
      | .ok (l, n1, s1) =>
        match parseTree cap fuel n1 s1 with
        | .error k => .error k
        | .ok (r, n2, s2) => .ok (.node l r 0, n2, s2)
    else .error .capacityExceeded

/-- One step of the walk (R195): 0 goes left, 1 goes right; a leaf has no child to go to. -/
def Tree.child (t : Tree) (x : Bool) : Tree :=
  match t with
  | .leaf v => .leaf v
  | .node l r _ => if x then r else l

/-- The walk when the root is an internal node (R195), from node `cur` with `n` bytes emitted so far:
a leaf emits its symbol and resets the walk to the root. The output growing beyond BUF_CAP is
CapacityExceeded (R198); ending inside a code is CorruptData (R197). -/
def walk (cap : Cap) (root : Tree) : (cur : Tree) → (n : Nat) → List Bool → Except FaultKind Memory
  | cur, _, [] => if cur = root then .ok [] else .error .corruptData
  | cur, n, x :: s =>
    match cur.child x with
    | .leaf v =>
      if admits cap (n + 1) then
        match walk cap root root (n + 1) s with
        | .error k => .error k
        | .ok out => .ok (v :: out)
      else .error .capacityExceeded
    | .node l r w => walk cap root (.node l r w) n s

/-- The payload of a single-leaf tree (R196): each 0 emits the symbol, a 1 is CorruptData. -/
def repeatLeaf (cap : Cap) (v : Byte) : (n : Nat) → List Bool → Except FaultKind Memory
  | _, [] => .ok []
  | _, true :: _ => .error .corruptData
  | n, false :: s =>
    if admits cap (n + 1) then
      match repeatLeaf cap v (n + 1) s with
      | .error k => .error k
      | .ok out => .ok (v :: out)
    else .error .capacityExceeded

/-- Step 4 (R195, R196): by the form of the root. -/
def decodePayload (cap : Cap) (root : Tree) (s : List Bool) : Except FaultKind Memory :=
  match root with
  | .leaf v => repeatLeaf cap v 0 s
  | .node l r w => walk cap (.node l r w) (.node l r w) 0 s

/-- `decompress` (R191 to R198). -/
def decompress (cfg : Params) : Memory → Except FaultKind Memory
  | [] => .error .corruptData
  | trim :: rest =>
    if trim.toNat > 7 then .error .corruptData
    else
      let s := unpackMsb rest
      if trim.toNat > s.length then .error .corruptData
      else
        match s.take (s.length - trim.toNat) with
        | [] => .ok []
        | x :: t =>
          match parseTree cfg.nodeCap (t.length + 1) 0 (x :: t) with
          | .error k => .error k
          | .ok (root, _, p) => decodePayload cfg.bufCap root p

end Sys2Proof.Machine
end

