-- ==== Sys2Proof/Machine/Codec.lean ====
section
/-! DEFINITION. The codec commands (`45_huffman_encoder.md`, `46_huffman_decoder.md`). -/
namespace Sys2Proof.Machine

/-- COMPRESS (R170): the result replaces OBUF, and Q is left empty (R180). -/
def execCompress (s : State) : Out := run s do
  let m ← needInput s
  fitsBuffer s (compress m).length
  returning ((s.setOutput (compress m)).setQueue []) (lengthWord (compress m).length)

/-- DECOMPRESS (R190): the result replaces OBUF; on a fault nothing does (R200). -/
def execDecompress (s : State) : Out := run s do
  let m ← needInput s
  let out ← decompress s.cfg m
  fitsBuffer s out.length
  returning (s.setOutput out) (lengthWord out.length)

end Sys2Proof.Machine
end

