-- ==== Sys2Proof/Machine/Construct.lean ====
section
/-! DEFINITION. The construction and access commands (`40_bitseq_construct_access.md`). -/
namespace Sys2Proof.Machine

/-- CONSTRUCT (R81). -/
def execConstruct (rd : Reg) (e : Tag) (n : Int) (s : State) : Out := run s do
  let n ← countArg n
  fits s n
  done (s.setReg rd ⟨List.replicate n false, e⟩)

/-- CONSTRUCTA (R82). -/
def execConstructA (rd : Reg) (e : Tag) (s : State) : Out := run s do
  let m ← needInput s
  fits s m.length
  done (s.setReg rd ⟨boolArray m, e⟩)

/-- COPY (R83). -/
def execCopy (rd rs1 : Reg) (s : State) : Out := run s do
  let x ← need s rs1
  done (s.setReg rd x)

/-- GET (R84). -/
def execGet (rs1 : Reg) (i : Int) (s : State) : Out := run s do
  let x ← need s rs1
  let i ← indexBelow i x.count
  returning s (bitWord (x.getBit i))

/-- SET (R85). -/
def execSet (rd : Reg) (b : Bool) (i : Int) (s : State) : Out := run s do
  let x ← need s rd
  let i ← indexBelow i x.count
  done (s.setReg rd (x.setBit i b))

/-- ADD (R86). -/
def execAdd (rd : Reg) (b : Bool) (s : State) : Out := run s do
  let x ← need s rd
  fits s (x.count + 1)
  done (s.setReg rd (x.appendBits [b]))

/-- FLIP (R87). -/
def execFlip (rd : Reg) (i : Int) (s : State) : Out := run s do
  let x ← need s rd
  let i ← indexBelow i x.count
  done (s.setReg rd (x.flipBit i))

/-- REVERSE (R88). -/
def execReverse (rd : Reg) (s : State) : Out := run s do
  let x ← need s rd
  done (s.setReg rd x.reversed)

/-- INSERT (R89): the index may equal Count. -/
def execInsert (rd : Reg) (b : Bool) (i : Int) (s : State) : Out := run s do
  let x ← need s rd
  let i ← indexBelow i (x.count + 1)
  fits s (x.count + 1)
  done (s.setReg rd (x.insertBit i b))

/-- REMOVE (R90). -/
def execRemove (rd : Reg) (i : Int) (s : State) : Out := run s do
  let x ← need s rd
  let i ← indexBelow i x.count
  done (s.setReg rd (x.removeBit i))

/-- APPEND (R91): the tag of the source is ignored. -/
def execAppend (rd rs1 : Reg) (s : State) : Out := run s do
  let x ← need s rd
  let y ← need s rs1
  fits s (x.count + y.count)
  done (s.setReg rd (x.appendBits y.bits))

/-- COUNT (R92). -/
def execCount (rs1 : Reg) (s : State) : Out := run s do
  let x ← need s rs1
  returning s (lengthWord x.count)

/-- ENDIAN (R93). -/
def execEndian (rs1 : Reg) (s : State) : Out := run s do
  let x ← need s rs1
  returning s (tagWord x.tag)

end Sys2Proof.Machine
end

