-- ==== Sys2Proof/Machine/Convert.lean ====
section
/-! DEFINITION. The conversion commands (`42_bitseq_convert.md`). -/
namespace Sys2Proof.Machine

/-- TOBYTEARRAY (R110): select by stored index, then normalize (D15). -/
def execToByteArray (rs1 : Reg) (bitCount offset : Int) (s : State) : Out := run s do
  let x ← need s rs1
  raiseIf (bitCount ≤ 0 ∨ bitCount % 8 ≠ 0) .outOfRange
  raiseIf (offset < 0 ∨ offset + bitCount > x.count) .outOfRange
  fitsBuffer s (bitCount.toNat / 8)
  returning (s.setOutput (bytesOf (slice x.bits offset.toNat bitCount.toNat) x.tag))
    (lengthWord (bitCount.toNat / 8))

/-! ## The eight TO commands -/

/-- The common rule of the TO commands (R111): the value of the `w` bits at `offset`, extended. -/
def toInteger (w : Nat) (sg : Sign) (rs1 : Reg) (offset : Int) (s : State) : Out := run s do
  let x ← need s rs1
  raiseIf (offset < 0) .outOfRange
  raiseIf (offset + w > x.count) .boundaryOutOfRange
  let v := (BitSeq.mk (slice x.bits offset.toNat w) x.tag).val
  match sg with
  | .signed => returning s (sext64 w v)
  | .unsigned => returning s (zext64 v)

/-- TOBYTE (R112). -/
def execToByte (rs1 : Reg) (offset : Int) (s : State) : Out :=
  toInteger 8 .unsigned rs1 offset s

/-- TOSBYTE (R113). -/
def execToSByte (rs1 : Reg) (offset : Int) (s : State) : Out :=
  toInteger 8 .signed rs1 offset s

/-- TOINT16 (R114). -/
def execToInt16 (rs1 : Reg) (offset : Int) (s : State) : Out :=
  toInteger 16 .signed rs1 offset s

/-- TOUINT16 (R115). -/
def execToUInt16 (rs1 : Reg) (offset : Int) (s : State) : Out :=
  toInteger 16 .unsigned rs1 offset s

/-- TOINT32 (R116). -/
def execToInt32 (rs1 : Reg) (offset : Int) (s : State) : Out :=
  toInteger 32 .signed rs1 offset s

/-- TOUINT32 (R117). -/
def execToUInt32 (rs1 : Reg) (offset : Int) (s : State) : Out :=
  toInteger 32 .unsigned rs1 offset s

/-- TOINT64 (R118). -/
def execToInt64 (rs1 : Reg) (offset : Int) (s : State) : Out :=
  toInteger 64 .signed rs1 offset s

/-- TOUINT64 (R119). -/
def execToUInt64 (rs1 : Reg) (offset : Int) (s : State) : Out :=
  toInteger 64 .unsigned rs1 offset s

/-- FROMBYTEARRAY (R120). -/
def execFromByteArray (rd : Reg) (s : State) : Out := run s do
  let m ← needInput s
  fits s (8 * m.length)
  done (s.setReg rd ⟨unpackLsb m, .LE⟩)

/-! ## The eight FROM commands -/

/-- The common rule of the FROM commands (R121): bit i of the value at stored index i, tag LE. -/
def fromInteger (w : Nat) (sg : Sign) (rd : Reg) (v : Int) (s : State) : Out := run s do
  valueWithin v (typeRange sg w).1 (typeRange sg w).2
  done (s.setReg rd ⟨lowBits w v, .LE⟩)

/-- FROMBYTE (R122). -/
def execFromByte (rd : Reg) (value : Int) (s : State) : Out :=
  fromInteger 8 .unsigned rd value s

/-- FROMSBYTE (R123). -/
def execFromSByte (rd : Reg) (value : Int) (s : State) : Out :=
  fromInteger 8 .signed rd value s

/-- FROMINT16 (R124). -/
def execFromInt16 (rd : Reg) (value : Int) (s : State) : Out :=
  fromInteger 16 .signed rd value s

/-- FROMUINT16 (R125). -/
def execFromUInt16 (rd : Reg) (value : Int) (s : State) : Out :=
  fromInteger 16 .unsigned rd value s

/-- FROMINT32 (R126). -/
def execFromInt32 (rd : Reg) (value : Int) (s : State) : Out :=
  fromInteger 32 .signed rd value s

/-- FROMUINT32 (R127). -/
def execFromUInt32 (rd : Reg) (value : Int) (s : State) : Out :=
  fromInteger 32 .unsigned rd value s

/-- FROMINT64 (R128). -/
def execFromInt64 (rd : Reg) (value : Int) (s : State) : Out :=
  fromInteger 64 .signed rd value s

/-- FROMUINT64 (R129). -/
def execFromUInt64 (rd : Reg) (value : Int) (s : State) : Out :=
  fromInteger 64 .unsigned rd value s

end Sys2Proof.Machine
end

