-- ==== Sys2Proof/Machine/HostCommands.lean ====
section
/-! DEFINITION. The host and system commands (`47_host_system.md`). -/
namespace Sys2Proof.Machine

/-- IBCLR (R210). -/
def execIbclr (s : State) : Out := run s (done (s.setInput []))

/-- IBPUSH (R211). -/
def execIbpush (byte : Int) (s : State) : Out := run s do
  let m ← needInput s
  valueWithin byte 0 255
  fitsBuffer s (m.length + 1)
  done (s.setInput (Memory.push m (BitVec.ofInt 8 byte)))

/-- OBRD (R212). -/
def execObrd (i : Int) (s : State) : Out := run s
  (if i < 0 then .error .outOfRange
  else
    match Memory.read s.obuf i.toNat with
    | none => .error .outOfRange
    | some v => returning s (zext64 v.toNat))

/-- OLENR (R213). -/
def execOlenr (s : State) : Out := run s (returning s (lengthWord s.olen))

/-- OBTOIB (R214). -/
def execObtoib (s : State) : Out := run s (returning (s.setInput s.obuf) (lengthWord s.olen))

/-- RDERR (R215). -/
def execRderr (s : State) : Out := run s (returning s (zext64 s.err.toNat))

/-- CLRERR (R216). -/
def execClrerr (s : State) : Out := run s (done s.clearErr)

end Sys2Proof.Machine
end

