-- ==== Sys2Proof/Machine/PadTrim.lean ====
section
/-! DEFINITION. The pad and trim commands (`41_bitseq_pad_trim.md`). -/
namespace Sys2Proof.Machine

/-- PAD (R100). -/
def execPad (rd : Reg) (b : Bool) (n : Int) (s : State) : Out := run s do
  let x ← need s rd
  let n ← countArg n
  fits s (x.count + n)
  done (s.setReg rd (x.padded b n))

/-- PADTOBYTE (R101). -/
def execPadToByte (rd : Reg) (s : State) : Out := run s do
  let x ← need s rd
  fits s (x.count + padCount x.count)
  done (s.setReg rd (x.padded false (padCount x.count)))

/-- TRIMSTART (R102). -/
def execTrimStart (rd : Reg) (b : Bool) (s : State) : Out := run s do
  let x ← need s rd
  done (s.setReg rd (x.trimmedStart b))

/-- TRIMEND (R103). -/
def execTrimEnd (rd : Reg) (b : Bool) (s : State) : Out := run s do
  let x ← need s rd
  done (s.setReg rd (x.trimmedEnd b))

/-- TRIMENDIAN (R104; the dispatch, not its gloss: C1 of `90_conflicts.md`). -/
def execTrimEndian (rd : Reg) (b : Bool) (s : State) : Out := run s do
  let x ← need s rd
  done (s.setReg rd (x.trimmedEndian b))

end Sys2Proof.Machine
end

