-- ==== Sys2Proof/Machine/Queue.lean ====
section
/-! DEFINITION. The queue commands (`44_priority_queue.md`). -/
namespace Sys2Proof.Machine

/-- ENQUEUE (R161). -/
def execEnqueue (item weight : Int) (s : State) : Out := run s do
  valueWithin item 0 (2 ^ s.cfg.itemBits - 1)
  valueWithin weight (-(2 ^ 31)) (2 ^ 31 - 1)
  raiseIf (admits s.cfg.qCap (s.q.length + 1) = false) .capacityExceeded
  done (s.setQueue (enqueue s.q item.toNat weight))

/-- DEQUEUE (R162). -/
def execDequeue (s : State) : Out := run s
  (match dequeue s.q with
  | none => .error .queueEmpty
  | some (e, q) => returning (s.setQueue q) (zext64 e.item) (weightWord e.weight))

/-- QCOUNT (R163). -/
def execQcount (s : State) : Out := run s (returning s (lengthWord s.q.length))

/-- QCLEAR (R164). -/
def execQclear (s : State) : Out := run s (done (s.setQueue []))

end Sys2Proof.Machine
end

