-- ==== Sys2Proof/Machine/Dispatch.lean ====
section
/-! DEFINITION. One arm per constructor of `Instr`, each one direct call of its meaning. -/
namespace Sys2Proof.Machine

/-- What a command does (R62 names its rule), from the state in which it has been taken. -/
def exec (i : Instr) (s : State) : Host.Outcome State Fault Refusal :=
  match i with
  | .construct rd e n => Sys2Proof.Machine.execConstruct rd e n s
  | .constructA rd e => Sys2Proof.Machine.execConstructA rd e s
  | .copy rd rs1 => Sys2Proof.Machine.execCopy rd rs1 s
  | .get rs1 k => Sys2Proof.Machine.execGet rs1 k s
  | .set rd b k => Sys2Proof.Machine.execSet rd b k s
  | .add rd b => Sys2Proof.Machine.execAdd rd b s
  | .flip rd k => Sys2Proof.Machine.execFlip rd k s
  | .reverse rd => Sys2Proof.Machine.execReverse rd s
  | .insert rd b k => Sys2Proof.Machine.execInsert rd b k s
  | .remove rd k => Sys2Proof.Machine.execRemove rd k s
  | .append rd rs1 => Sys2Proof.Machine.execAppend rd rs1 s
  | .count rs1 => Sys2Proof.Machine.execCount rs1 s
  | .endian rs1 => Sys2Proof.Machine.execEndian rs1 s
  | .pad rd b n => Sys2Proof.Machine.execPad rd b n s
  | .padToByte rd => Sys2Proof.Machine.execPadToByte rd s
  | .trimStart rd b => Sys2Proof.Machine.execTrimStart rd b s
  | .trimEnd rd b => Sys2Proof.Machine.execTrimEnd rd b s
  | .trimEndian rd b => Sys2Proof.Machine.execTrimEndian rd b s
  | .toByteArray rs1 bitCount offset => Sys2Proof.Machine.execToByteArray rs1 bitCount offset s
  | .toByte rs1 offset => Sys2Proof.Machine.execToByte rs1 offset s
  | .toSByte rs1 offset => Sys2Proof.Machine.execToSByte rs1 offset s
  | .toInt16 rs1 offset => Sys2Proof.Machine.execToInt16 rs1 offset s
  | .toUInt16 rs1 offset => Sys2Proof.Machine.execToUInt16 rs1 offset s
  | .toInt32 rs1 offset => Sys2Proof.Machine.execToInt32 rs1 offset s
  | .toUInt32 rs1 offset => Sys2Proof.Machine.execToUInt32 rs1 offset s
  | .toInt64 rs1 offset => Sys2Proof.Machine.execToInt64 rs1 offset s
  | .toUInt64 rs1 offset => Sys2Proof.Machine.execToUInt64 rs1 offset s
  | .fromByteArray rd => Sys2Proof.Machine.execFromByteArray rd s
  | .fromByte rd value => Sys2Proof.Machine.execFromByte rd value s
  | .fromSByte rd value => Sys2Proof.Machine.execFromSByte rd value s
  | .fromInt16 rd value => Sys2Proof.Machine.execFromInt16 rd value s
  | .fromUInt16 rd value => Sys2Proof.Machine.execFromUInt16 rd value s
  | .fromInt32 rd value => Sys2Proof.Machine.execFromInt32 rd value s
  | .fromUInt32 rd value => Sys2Proof.Machine.execFromUInt32 rd value s
  | .fromInt64 rd value => Sys2Proof.Machine.execFromInt64 rd value s
  | .fromUInt64 rd value => Sys2Proof.Machine.execFromUInt64 rd value s
  | .and rd rs1 rs2 => Sys2Proof.Machine.execAnd rd rs1 rs2 s
  | .or rd rs1 rs2 => Sys2Proof.Machine.execOr rd rs1 rs2 s
  | .xor rd rs1 rs2 => Sys2Proof.Machine.execXor rd rs1 rs2 s
  | .not rd rs1 => Sys2Proof.Machine.execNot rd rs1 s
  | .rol rd rs1 n => Sys2Proof.Machine.execRol rd rs1 n s
  | .ror rd rs1 n => Sys2Proof.Machine.execRor rd rs1 n s
  | .inc rd rs1 => Sys2Proof.Machine.execInc rd rs1 s
  | .dec rd rs1 => Sys2Proof.Machine.execDec rd rs1 s
  | .enqueue item weight => Sys2Proof.Machine.execEnqueue item weight s
  | .dequeue => Sys2Proof.Machine.execDequeue s
  | .qcount => Sys2Proof.Machine.execQcount s
  | .qclear => Sys2Proof.Machine.execQclear s
  | .compress => Sys2Proof.Machine.execCompress s
  | .decompress => Sys2Proof.Machine.execDecompress s
  | .ibclr => Sys2Proof.Machine.execIbclr s
  | .ibpush byte => Sys2Proof.Machine.execIbpush byte s
  | .obrd k => Sys2Proof.Machine.execObrd k s
  | .olenr => Sys2Proof.Machine.execOlenr s
  | .obtoib => Sys2Proof.Machine.execObtoib s
  | .rderr => Sys2Proof.Machine.execRderr s
  | .clrerr => Sys2Proof.Machine.execClrerr s

end Sys2Proof.Machine
end

