-- ==== Sys2Proof/Machine/Step.lean ====
section
/-! DEFINITION. One step of the block: the next command taken, decoded and run. -/
namespace Sys2Proof.Machine

/-- One step (R20, R25): take the oldest command the host has issued, decode it (R61) and run it; a
record that is no command is an illegal command (R63); with no command issued the block waits (R240). -/
def step (s : State) : Host.Outcome State Fault Refusal :=
  match fetch s with
  | none => waitForCommand s
  | some (c, t) =>
    match decode c with
    | .ok i => exec i t
    | .error _ => illegalCommand t

/-- The state whose next command is the record whose low `nbits` bits are those of `w`, its other bits
0 (log entry 2). -/
def State.withFetchWord (s : State) (nbits w : Nat) : State := s.withNext (tableCommand nbits w)

end Sys2Proof.Machine
end

