-- ==== Sys2Proof/Safety.lean ====
section
/-! DEFINITION. The terms claims are stated in: the constraints on the parameters (R6), the legal states (the invariant), and
the states a successful and a faulting command leave, written out from R59 and R226. -/
namespace Sys2Proof.Machine

/-! ## Capacities and parameters (R6) -/

/-- A length is within a capacity: at most every finite bound. -/
def Within (c : Cap) (n : Nat) : Prop := ∀ m, c = some m → n ≤ m

/-- A length exceeds a capacity: there is a finite bound below it. -/
def Exceeds (c : Cap) (n : Nat) : Prop := ∃ m, c = some m ∧ m < n

/-- The constraints R6 puts on the parameters. -/
structure ParamsOk (p : Params) : Prop where
  maxBits : Within p.maxBits 64
  bufCap : Within p.bufCap 1
  bufCapSmall : ∀ m, p.bufCap = some m → m ≤ 2 ^ 31 - 1
  qCap : Within p.qCap 256
  nodeCap : Within p.nodeCap 511
  itemBits : 9 ≤ p.itemBits ∧ p.itemBits ≤ 63

/-! ## Legal states -/

/-- A queue entry as R29 has it: an item of ITEM_BITS bits, a weight of 32 signed bits. -/
def EntryOk (p : Params) (e : Entry Nat) : Prop :=
  e.item < 2 ^ p.itemBits ∧ -(2 ^ 31) ≤ e.weight ∧ e.weight ≤ 2 ^ 31 - 1

/-- A response as R59 has it: status 0 to 8, and both result words 0 on a fault. -/
def ResponseOk (r : Response) : Prop :=
  r.status.toNat ≤ 8 ∧ (r.status ≠ 0#8 → r.r0 = 0#64 ∧ r.r1 = 0#64)

/-- The legal states: every bound of R6, R22, R27, R28, R29 and R59 holds. -/
structure Legal (s : State) : Prop where
  params : ParamsOk s.cfg
  bits : ∀ r x, s.reg r = some x → Within s.cfg.maxBits x.bits.length
  input : ∀ m, s.ibuf = some m → Within s.cfg.bufCap m.length
  output : Within s.cfg.bufCap s.obuf.length
  queueLength : Within s.cfg.qCap s.q.length
  entries : ∀ e ∈ s.q, EntryOk s.cfg e
  err : s.err.toNat ≤ 8
  resp : ∀ r, s.resp = some r → ResponseOk r

/-! ## What a command leaves -/

/-- The state after a successful command: the update `s` and the response OK with `r0`, `r1` (R59). -/
def okState (s : State) (r0 r1 : Word64) : State := { s with resp := some ⟨0#8, r0, r1⟩ }

/-- The state after a fault of code `code` (R226): ERR takes the code if it held 0, the response
carries it with both words 0, and nothing else changes. -/
def faultState (s : State) (code : BitVec 8) : State :=
  { s with
    err := if s.err = 0#8 then code else s.err
    resp := some ⟨code, 0#64, 0#64⟩ }

/-- `s` with `<bits, tag>` in register `r`. -/
def withReg (s : State) (r : Reg) (bits : List Bool) (tag : Tag) : State :=
  { s with bf := s.bf.set r (some ⟨bits, tag⟩) }

/-! ## What a command names (R24, R42, R62) -/

/-- The registers a command reads, in the order they are checked (R80, R225). -/
def readRegs : Instr → List Reg
  | .copy _ rs1 | .get rs1 _ | .count rs1 | .endian rs1 | .toByteArray rs1 _ _ => [rs1]
  | .set rd _ _ | .add rd _ | .flip rd _ | .reverse rd | .insert rd _ _ | .remove rd _ => [rd]
  | .append rd rs1 => [rd, rs1]
  | .pad rd _ _ | .padToByte rd | .trimStart rd _ | .trimEnd rd _ | .trimEndian rd _ => [rd]
  | .toByte rs1 _ | .toSByte rs1 _ | .toInt16 rs1 _ | .toUInt16 rs1 _ => [rs1]
  | .toInt32 rs1 _ | .toUInt32 rs1 _ | .toInt64 rs1 _ | .toUInt64 rs1 _ => [rs1]
  | .and _ rs1 rs2 | .or _ rs1 rs2 | .xor _ rs1 rs2 => [rs1, rs2]
  | .not _ rs1 | .rol _ rs1 _ | .ror _ rs1 _ | .inc _ rs1 | .dec _ rs1 => [rs1]
  | .construct _ _ _ | .constructA _ _ | .fromByteArray _ | .fromByte _ _ | .fromSByte _ _ => []
  | .fromInt16 _ _ | .fromUInt16 _ _ | .fromInt32 _ _ | .fromUInt32 _ _ => []
  | .fromInt64 _ _ | .fromUInt64 _ _ | .enqueue _ _ | .dequeue | .qcount | .qclear => []
  | .compress | .decompress | .ibclr | .ibpush _ | .obrd _ | .olenr | .obtoib | .rderr | .clrerr => []

/-- The register a constructing command writes whole without reading it (R23, R24). -/
def constructedReg : Instr → Option Reg
  | .construct rd _ _ | .constructA rd _ | .copy rd _ | .fromByteArray rd => some rd
  | .fromByte rd _ | .fromSByte rd _ | .fromInt16 rd _ | .fromUInt16 rd _ => some rd
  | .fromInt32 rd _ | .fromUInt32 rd _ | .fromInt64 rd _ | .fromUInt64 rd _ => some rd
  | .and rd _ _ | .or rd _ _ | .xor rd _ _ | .not rd _ => some rd
  | .rol rd _ _ | .ror rd _ _ | .inc rd _ | .dec rd _ => some rd
  | .get _ _ | .set _ _ _ | .add _ _ | .flip _ _ | .reverse _ | .insert _ _ _ | .remove _ _ => none
  | .append _ _ | .count _ | .endian _ | .pad _ _ _ | .padToByte _ | .trimStart _ _ => none
  | .trimEnd _ _ | .trimEndian _ _ | .toByteArray _ _ _ | .toByte _ _ | .toSByte _ _ => none
  | .toInt16 _ _ | .toUInt16 _ _ | .toInt32 _ _ | .toUInt32 _ _ | .toInt64 _ _ | .toUInt64 _ _ => none
  | .enqueue _ _ | .dequeue | .qcount | .qclear | .compress | .decompress => none
  | .ibclr | .ibpush _ | .obrd _ | .olenr | .obtoib | .rderr | .clrerr => none

/-- The register an in-place command changes (R24). -/
def mutatedReg : Instr → Option Reg
  | .set rd _ _ | .add rd _ | .flip rd _ | .reverse rd | .insert rd _ _ | .remove rd _ => some rd
  | .append rd _ | .pad rd _ _ | .padToByte rd => some rd
  | .trimStart rd _ | .trimEnd rd _ | .trimEndian rd _ => some rd
  | .construct _ _ _ | .constructA _ _ | .copy _ _ | .get _ _ | .count _ | .endian _ => none
  | .toByteArray _ _ _ | .toByte _ _ | .toSByte _ _ | .toInt16 _ _ | .toUInt16 _ _ => none
  | .toInt32 _ _ | .toUInt32 _ _ | .toInt64 _ _ | .toUInt64 _ _ | .fromByteArray _ => none
  | .fromByte _ _ | .fromSByte _ _ | .fromInt16 _ _ | .fromUInt16 _ _ | .fromInt32 _ _ => none
  | .fromUInt32 _ _ | .fromInt64 _ _ | .fromUInt64 _ _ | .and _ _ _ | .or _ _ _ | .xor _ _ _ => none
  | .not _ _ | .rol _ _ _ | .ror _ _ _ | .inc _ _ | .dec _ _ => none
  | .enqueue _ _ | .dequeue | .qcount | .qclear | .compress | .decompress => none
  | .ibclr | .ibpush _ | .obrd _ | .olenr | .obtoib | .rderr | .clrerr => none

/-- The commands that need the input byte array and raise NullArgument when it is null (R222). -/
def NeedsInput (i : Instr) : Prop :=
  (∃ rd e, i = .constructA rd e) ∨ (∃ rd, i = .fromByteArray rd) ∨ i = .compress ∨
    i = .decompress ∨ ∃ byte, i = .ibpush byte

/-! ## Tables and values for the conversion rules (R110, R111, R121, R140) -/

/-- The TO commands with their width and whether they are signed (R112 to R119). -/
def toCommands : List ((Reg → Int → Instr) × Nat × Bool) :=
  [(.toByte, 8, false), (.toSByte, 8, true), (.toInt16, 16, true), (.toUInt16, 16, false),
    (.toInt32, 32, true), (.toUInt32, 32, false), (.toInt64, 64, true), (.toUInt64, 64, false)]

/-- The FROM commands with their width and the least and greatest value of their type (R122 to
R129). -/
def fromCommands : List ((Reg → Int → Instr) × Nat × Int × Int) :=
  [(.fromByte, 8, 0, 255), (.fromSByte, 8, -128, 127), (.fromInt16, 16, -32768, 32767),
    (.fromUInt16, 16, 0, 65535), (.fromInt32, 32, -2147483648, 2147483647),
    (.fromUInt32, 32, 0, 4294967295),
    (.fromInt64, 64, -9223372036854775808, 9223372036854775807),
    (.fromUInt64, 64, 0, 18446744073709551615)]

/-- The binary operators with their bit functions (R141, R142, R143). -/
def bitwiseCommands : List ((Reg → Reg → Reg → Instr) × (Bool → Bool → Bool)) :=
  [(.and, fun x y => decide (x = true ∧ y = true)), (.or, fun x y => decide (x = true ∨ y = true)),
    (.xor, fun x y => decide (x ≠ y))]

/-- The value of a byte list whose first byte is the most significant (R110). -/
def bigEndianValue (m : Memory) : Nat := m.foldl (fun a v => a * 256 + v.toNat) 0

/-- The value of a byte list whose first byte is the least significant (R120). -/
def littleEndianValue (m : Memory) : Nat := m.foldr (fun v a => v.toNat + 256 * a) 0

/-- The other tag (R88). -/
def otherTag : Tag → Tag
  | .LE => .BE
  | .BE => .LE

/-- The responses of `n` DEQUEUE commands in a row, and the queue they leave (R165). -/
def dequeued : (n : Nat) → State → List (Option Response) × List (Entry Nat)
  | 0, s => ([], s.q)
  | n + 1, s =>
    match exec .dequeue s with
    | .next t => (t.resp :: (dequeued n t).1, (dequeued n t).2)
    | .fault _ => ([], s.q)
    | .refused _ => ([], s.q)

/-- The symbols at the leaves of a tree, left to right (R32). -/
def leaves : Tree → List Byte
  | .leaf v => [v]
  | .node l r _ => leaves l ++ leaves r

/-! ## The compressed-buffer format and its tree, written out from R70 to R74 and R172 to R175 -/

/-- The 8 bits of a byte, the most significant first: bit t is bit 7 - t of the byte (R14, R72). -/
def msbFirst (v : Byte) : List Bool :=
  [v.getLsbD 7, v.getLsbD 6, v.getLsbD 5, v.getLsbD 4, v.getLsbD 3, v.getLsbD 2, v.getLsbD 1,
    v.getLsbD 0]

/-- A byte list as stream bits (R14, R70). -/
def bufferBits : Memory → List Bool
  | [] => []
  | v :: m => msbFirst v ++ bufferBits m

/-- The bits of a serialized tree, pre-order: 1 and the literal for a leaf, 0 for an internal node
(R72). -/
def treeBits : Tree → List Bool
  | .leaf v => [true] ++ msbFirst v
  | .node l r _ => [false] ++ treeBits l ++ treeBits r

/-- The symbol at the end of a path from the root, 0 to the left and 1 to the right (R73, R175);
`none` when the path ends before a leaf or goes on behind one. -/
def symbolAt : Tree → List Bool → Option Byte
  | .leaf v, [] => some v
  | .leaf _, _ :: _ => none
  | .node _ _ _, [] => none
  | .node l _ _, false :: p => symbolAt l p
  | .node _ r _, true :: p => symbolAt r p

/-- `e` is the earliest entry of least weight of `q`, and `rest` the other entries in their order
(R160, R162). -/
def TakesLeast {α : Type} (q : List (Entry α)) (e : Entry α) (rest : List (Entry α)) : Prop :=
  ∃ before after, q = before ++ e :: after ∧ rest = before ++ after ∧
    (∀ x ∈ before, e.weight < x.weight) ∧ ∀ x ∈ after, e.weight ≤ x.weight

/-- The loop of R173: the only entry left is the root; of two or more, the first taken becomes the
left child and the second the right child of a node that goes behind all others with their sum. -/
inductive CombinesTo : List (Entry Tree) → Tree → Prop where
  | root (e : Entry Tree) : CombinesTo [e] e.item
  | combine (q q1 q2 : List (Entry Tree)) (x y : Entry Tree) (root : Tree) :
      TakesLeast q x q1 → TakesLeast q1 y q2 →
      CombinesTo (q2 ++ [⟨.node x.item y.item (x.weight + y.weight), x.weight + y.weight⟩]) root →
      CombinesTo q root

/-! ## Which fields a command uses (R60, R62) -/

/-- The fields of a record that take part in a command, the column "uses" of R62. -/
structure Uses where
  rd : Bool := false
  rs1 : Bool := false
  rs2 : Bool := false
  e : Bool := false
  b : Bool := false
  arg0 : Bool := false
  arg1 : Bool := false

/-- The column "uses" of R62, by opcode. -/
def usesOf (opcode : Nat) : Uses :=
  match opcode with
  | 0x01 => { rd := true, e := true, arg0 := true }
  | 0x02 => { rd := true, e := true }
  | 0x03 => { rd := true, rs1 := true }
  | 0x04 => { rs1 := true, arg0 := true }
  | 0x05 => { rd := true, b := true, arg0 := true }
  | 0x06 => { rd := true, b := true }
  | 0x07 => { rd := true, arg0 := true }
  | 0x08 => { rd := true }
  | 0x09 => { rd := true, b := true, arg0 := true }
  | 0x0A => { rd := true, arg0 := true }
  | 0x0B => { rd := true, rs1 := true }
  | 0x0C | 0x0D => { rs1 := true }
  | 0x10 => { rd := true, b := true, arg0 := true }
  | 0x11 => { rd := true }
  | 0x12 | 0x13 | 0x14 => { rd := true, b := true }
  | 0x20 => { rs1 := true, arg0 := true, arg1 := true }
  | 0x21 | 0x22 | 0x23 | 0x24 | 0x25 | 0x26 | 0x27 | 0x28 => { rs1 := true, arg0 := true }
  | 0x30 => { rd := true }
  | 0x31 | 0x32 | 0x33 | 0x34 | 0x35 | 0x36 | 0x37 | 0x38 => { rd := true, arg0 := true }
  | 0x40 | 0x41 | 0x42 => { rd := true, rs1 := true, rs2 := true }
  | 0x43 | 0x46 | 0x47 => { rd := true, rs1 := true }
  | 0x44 | 0x45 => { rd := true, rs1 := true, arg0 := true }
  | 0x50 => { arg0 := true, arg1 := true }
  | 0x71 | 0x72 => { arg0 := true }
  | _ => {}

/-- Bits `lo .. lo + n - 1` of a header (R57). -/
def field (hdr : Header) (lo n : Nat) : Nat := hdr.toNat / 2 ^ lo % 2 ^ n

/-- Two records agree on the opcode, the reserved bits and every field the command uses (R60). -/
def SameUsedFields (c d : Command) : Prop :=
  let u := usesOf (field c.hdr 0 8)
  field c.hdr 0 8 = field d.hdr 0 8 ∧ field c.hdr 22 10 = field d.hdr 22 10 ∧
    (u.rd = true → field c.hdr 8 4 = field d.hdr 8 4) ∧
    (u.rs1 = true → field c.hdr 12 4 = field d.hdr 12 4) ∧
    (u.rs2 = true → field c.hdr 16 4 = field d.hdr 16 4) ∧
    (u.e = true → field c.hdr 20 1 = field d.hdr 20 1) ∧
    (u.b = true → field c.hdr 21 1 = field d.hdr 21 1) ∧
    (u.arg0 = true → c.arg0 = d.arg0) ∧ (u.arg1 = true → c.arg1 = d.arg1)

/-- The 57 opcode values of R62. -/
def opcodeValues : List Nat :=
  [0x01, 0x02, 0x03, 0x04, 0x05, 0x06, 0x07, 0x08, 0x09, 0x0A, 0x0B, 0x0C, 0x0D, 0x10, 0x11, 0x12,
    0x13, 0x14, 0x20, 0x21, 0x22, 0x23, 0x24, 0x25, 0x26, 0x27, 0x28, 0x30, 0x31, 0x32, 0x33, 0x34,
    0x35, 0x36, 0x37, 0x38, 0x40, 0x41, 0x42, 0x43, 0x44, 0x45, 0x46, 0x47, 0x50, 0x51, 0x52, 0x53,
    0x60, 0x61, 0x70, 0x71, 0x72, 0x73, 0x74, 0x75, 0x76]

end Sys2Proof.Machine
end

