-- ==== Sys2Proof/Certificates/Slice0/Obligations.lean ====
section
/-! DEFINITION. The statements for the provers, family by family. `faultState s n` is the state after a fault of code n, `okState t
r0 r1` the state after a success that updated `s` to `t`; both are written out in Sys2Proof/Safety.lean. -/
open Sys2Proof Sys2Proof.Machine

/-! ## Reset, legal states -/

/-- R34: the state after reset is as in the table, with the default parameters and with any others. The
scratch state of the table lives inside one command (R31) and is no field of State. -/
def Obligations.ResetStateIsAsTabulated : Prop :=
  ∀ s, (s = State.reset ∨ ∃ p, s = State.resetWith p) →
    (∀ r, s.reg r = none) ∧ s.q = [] ∧ s.ivalid = false ∧ s.ilen = 0 ∧ s.olen = 0 ∧ s.err = 0#8

/-- The state after reset is legal, whatever parameters R6 allows. -/
def Obligations.ResetStateIsLegal : Prop :=
  Legal State.reset ∧ ∀ p, ParamsOk p → Legal (State.resetWith p)

/-- Every step from a legal state leaves a legal state: the bounds of R6, R22, R27, R28, R29 and R59
hold for ever, whatever the host issues. -/
def Obligations.EveryStepKeepsLegalStates : Prop :=
  ∀ s t, Legal s → step s = .next t → Legal t

/-! ## Encoding -/

/-- Decoding the encoding of any well-formed command gives it back: no operand bit is dropped. -/
def Obligations.DecodeOfEncodeIsTheCommand : Prop :=
  ∀ i : Instr, i.wf = true → decode (encode i) = .ok i

/-- The other direction: a header is a command exactly when its opcode is one of the 57 values and its
reserved bits are 0, and then encoding the decoded command gives back the opcode, the reserved bits
and every field the command uses. -/
def Obligations.EncodeOfDecodeKeepsTheUsedFields : Prop :=
  ∀ c,
    ((∃ i, decode c = .ok i) ↔ field c.hdr 0 8 ∈ opcodeValues ∧ field c.hdr 22 10 = 0) ∧
    ∀ i, decode c = .ok i → SameUsedFields c (encode i)

/-- What the decoder gives is well formed: its integer operands are in the range of R58. -/
def Obligations.DecodedCommandsAreWellFormed : Prop :=
  ∀ c i, decode c = .ok i → i.wf = true

/-- Twelve words of `95_test_vectors.md`, one or more of every family, decode to their commands. -/
def Obligations.SpecWordsDecodeToTheirCommands : Prop :=
  decode ⟨0x00100101#32, 8#64, 0#64⟩ = .ok (.construct 1 .BE 8) ∧
  decode ⟨0x00000001#32, 65537#64, 0#64⟩ = .ok (.construct 0 .LE 65537) ∧
  decode ⟨0x00200005#32, 2#64, 0#64⟩ = .ok (.set 0 true 2) ∧
  decode ⟨0x0000100B#32, 0#64, 0#64⟩ = .ok (.append 0 1) ∧
  decode ⟨0x00200010#32, 2#64, 0#64⟩ = .ok (.pad 0 true 2) ∧
  decode ⟨0x00000020#32, 16#64, 4#64⟩ = .ok (.toByteArray 0 16 4) ∧
  decode ⟨0x00000035#32, 0xFFFFFFFF7FFFFFFF#64, 0#64⟩ = .ok (.fromInt32 0 (-2147483649)) ∧
  decode ⟨0x00010240#32, 0#64, 0#64⟩ = .ok (.and 2 0 1) ∧
  decode ⟨0x00000144#32, 1#64, 0#64⟩ = .ok (.rol 1 0 1) ∧
  decode ⟨0x00000050#32, 65535#64, 0xFFFFFFFF80000000#64⟩ = .ok (.enqueue 65535 (-2147483648)) ∧
  decode ⟨0x00000060#32, 0#64, 0#64⟩ = .ok .compress ∧
  decode ⟨0x00000072#32, 0xFFFFFFFFFFFFFFFF#64, 0#64⟩ = .ok (.obrd (-1))

/-- R63: a header whose opcode field is none of the 57 values, or whose reserved bits are not all 0,
raises IllegalCommand (code 6) and changes no state but ERR, whatever the state; all-zero and all-one
headers are such. -/
def Obligations.IllegalHeadersRaiseIllegalCommand : Prop :=
  (∀ s c rest, s.cmds = c :: rest →
    field c.hdr 0 8 ∉ opcodeValues ∨ field c.hdr 22 10 ≠ 0 →
    step s = .next (faultState { s with cmds := rest } 6#8)) ∧
  field 0x00000000#32 0 8 ∉ opcodeValues ∧ field 0xFFFFFFFF#32 0 8 ∉ opcodeValues

/-- R60: a field a command does not use has no effect: two records that agree on the opcode, the
reserved bits and the fields the command uses are the same to the block. -/
def Obligations.UnusedFieldsAreIgnored : Prop :=
  ∀ c d, SameUsedFields c d →
    (decode c).toOption = (decode d).toOption ∧
    ∀ (s : State) rest, step { s with cmds := c :: rest } = step { s with cmds := d :: rest }

/-! ## The step -/

/-- When the next command decodes to `i`, the step is `exec i` on the state with that command taken.
R25, R52: a command issued to a waiting block is the next; one issued while others wait goes behind
them, and the oldest runs next. `withFetchWord` is the state whose next command is the given record.
With no command issued the block waits and nothing changes (R240's "waits for its first command"; that
the commands stand in State, and that a wait is a step that changes nothing, is log entry 2). -/
def Obligations.StepRunsTheDecodedCommand : Prop :=
  (∀ s c rest i, s.cmds = c :: rest → decode c = .ok i →
    step s = exec i { s with cmds := rest }) ∧
  (∀ (s : State) c i, s.cmds = [] → decode c = .ok i → step (s.issue c) = exec i s) ∧
  (∀ (s : State) c d rest i, s.cmds = d :: rest → decode d = .ok i →
    step (s.issue c) = exec i { s with cmds := rest ++ [c] }) ∧
  (∀ (s : State) n w i, decodeTableWord n w = some i →
    step (s.withFetchWord n w) = exec i { s with cmds := s.cmds.tail }) ∧
  ∀ s, s.cmds = [] → step s = .next s

/-! ## Whole-machine rules -/

/-- Every command, on every state, ends with exactly one response, legal by R59 (status 0 to 8, both
words 0 on a fault), and changes neither the parameters nor the commands still to run. R33, R52, R54:
what it does depends neither on the commands that wait nor on the last response. -/
def Obligations.EveryCommandAnswers : Prop :=
  ∀ i s, ∃ t r, exec i s = .next t ∧ t.resp = some r ∧ ResponseOk r ∧
    t.cfg = s.cfg ∧ t.cmds = s.cmds ∧
    ∀ cmds resp, exec i { s with cmds := cmds, resp := resp } = .next { t with cmds := cmds }

/-- R226: when a command, legal or not, ends with a fault, the state after is the state before with
only ERR (if it held 0) and the response changed, and the response carries the code with both words
0. -/
def Obligations.FaultsChangeNothingButErr : Prop :=
  ∀ s t c rest r, s.cmds = c :: rest → step s = .next t → t.resp = some r → r.status ≠ 0#8 →
    r.status.toNat ≤ 8 ∧ t = faultState { s with cmds := rest } r.status

/-- R27: only CLRERR clears ERR, a fault writes it only when it holds 0, and a command that ends OK
leaves it. -/
def Obligations.ErrKeepsTheFirstFault : Prop :=
  ∀ i s t, exec i s = .next t →
    (i = .clrerr → t.err = 0#8) ∧
    (i ≠ .clrerr → s.err ≠ 0#8 → t.err = s.err) ∧
    (i ≠ .clrerr → s.err = 0#8 → ∃ r, t.resp = some r ∧ t.err = r.status)

/-- R23: a command that names a null register as a source or in place raises NullArgument (code 4);
only a constructing command makes its destination non-null; no command makes a register null. -/
def Obligations.NullRegisterRule : Prop :=
  (∀ i s r, r ∈ readRegs i → s.reg r = none → exec i s = .next (faultState s 4#8)) ∧
  ∀ i s t r, exec i s = .next t →
    (s.reg r ≠ none → t.reg r ≠ none) ∧
    (s.reg r = none → t.reg r ≠ none → constructedReg i = some r)

/-- While the input array is null, CONSTRUCTA, FROMBYTEARRAY, COMPRESS, DECOMPRESS and IBPUSH raise
NullArgument (R222). -/
def Obligations.NullInputArrayRaisesNullArgument : Prop :=
  ∀ i s, NeedsInput i → s.ibuf = none → exec i s = .next (faultState s 4#8)

/-- R36: a command changes no register but the one it constructs or works on in place. -/
def Obligations.OtherRegistersAreUnchanged : Prop :=
  ∀ i s t r, exec i s = .next t → constructedReg i ≠ some r → mutatedReg i ≠ some r →
    t.reg r = s.reg r

/-- R42, byte by byte: only IBCLR, IBPUSH and OBTOIB change IBUF or IVALID, only TOBYTEARRAY, COMPRESS
and DECOMPRESS change OBUF; R29: only ENQUEUE, DEQUEUE, QCLEAR and COMPRESS change Q. Every other
command, in every form, leaves every byte and every entry. -/
def Obligations.OtherBytesAndEntriesAreUnchanged : Prop :=
  ∀ i s t, exec i s = .next t →
    (i ≠ .ibclr → (∀ v, i ≠ .ibpush v) → i ≠ .obtoib →
      t.ivalid = s.ivalid ∧ t.ilen = s.ilen ∧
        ∀ a, Memory.read t.input a = Memory.read s.input a) ∧
    ((∀ r n o, i ≠ .toByteArray r n o) → i ≠ .compress → i ≠ .decompress →
      t.olen = s.olen ∧ ∀ a, Memory.read t.obuf a = Memory.read s.obuf a) ∧
    ((∀ v w, i ≠ .enqueue v w) → i ≠ .dequeue → i ≠ .qclear → i ≠ .compress → t.q = s.q)

/-! ## Construction and access -/

/-- R13: the logical value is the sum of the bits' weights, index 0 least significant for LE and most
significant for BE. -/
def Obligations.LogicalValueIsTheWeightedSum : Prop :=
  ∀ s : List Bool,
    (BitSeq.mk s .LE).val = ∑ i ∈ Finset.range s.length, (s.getD i false).toNat * 2 ^ i ∧
    (BitSeq.mk s .BE).val =
      ∑ i ∈ Finset.range s.length, (s.getD i false).toNat * 2 ^ (s.length - 1 - i)

/-- R81: CONSTRUCT writes `count` zeros with the tag `e`; a negative count is InvalidArgument, a count
above MAXBITS CapacityExceeded. -/
def Obligations.ConstructMakesZeros : Prop :=
  ∀ s rd e (n : Int),
    (n < 0 → exec (.construct rd e n) s = .next (faultState s 3#8)) ∧
    (0 ≤ n → Exceeds s.cfg.maxBits n.toNat →
      exec (.construct rd e n) s = .next (faultState s 7#8)) ∧
    (0 ≤ n → Within s.cfg.maxBits n.toNat →
      exec (.construct rd e n) s =
        .next (okState (withReg s rd (List.replicate n.toNat false) e) 0#64 0#64))

/-- R82: CONSTRUCTA copies the boolean array: stored bit k is true exactly when byte k is not 0. -/
def Obligations.ConstructACopiesTheArray : Prop :=
  ∀ s rd e,
    (s.ibuf = none → exec (.constructA rd e) s = .next (faultState s 4#8)) ∧
    ∀ m, s.ibuf = some m →
      (Exceeds s.cfg.maxBits m.length → exec (.constructA rd e) s = .next (faultState s 7#8)) ∧
      (Within s.cfg.maxBits m.length →
        ∃ bits : List Bool, bits.length = m.length ∧
          (∀ k (h : k < m.length), bits.getD k false = decide (m[k] ≠ 0#8)) ∧
          exec (.constructA rd e) s = .next (okState (withReg s rd bits e) 0#64 0#64))

/-- R83: COPY copies bits and tag and changes no other register (that later commands keep the two
apart is OtherRegistersAreUnchanged). -/
def Obligations.CopyDuplicatesTheRegister : Prop :=
  ∀ s rd rs1,
    (s.reg rs1 = none → exec (.copy rd rs1) s = .next (faultState s 4#8)) ∧
    ∀ x, s.reg rs1 = some x →
      exec (.copy rd rs1) s = .next (okState (withReg s rd x.bits x.tag) 0#64 0#64)

/-- R84, R85, R87: GET, SET and FLIP read, replace and invert the stored bit at an index inside
[0, Count), and raise OutOfRange (code 1) at any other. -/
def Obligations.IndexedAccess : Prop :=
  ∀ s r b (i : Int),
    (s.reg r = none → ∀ j ∈ [Instr.get r i, .set r b i, .flip r i],
      exec j s = .next (faultState s 4#8)) ∧
    ∀ x, s.reg r = some x →
      (i < 0 ∨ i ≥ x.bits.length → ∀ j ∈ [Instr.get r i, .set r b i, .flip r i],
        exec j s = .next (faultState s 1#8)) ∧
      ∀ k (h : k < x.bits.length), i = k →
        exec (.get r i) s = .next (okState s (if x.bits[k] then 1#64 else 0#64) 0#64) ∧
        exec (.set r b i) s =
          .next (okState (withReg s r (x.bits.set k b) x.tag) 0#64 0#64) ∧
        exec (.flip r i) s =
          .next (okState (withReg s r (x.bits.set k (!x.bits[k])) x.tag) 0#64 0#64)

/-- R86: ADD puts the bit at the highest index, whatever the tag. -/
def Obligations.AddPutsTheBitLast : Prop :=
  ∀ s rd b,
    (s.reg rd = none → exec (.add rd b) s = .next (faultState s 4#8)) ∧
    ∀ x, s.reg rd = some x →
      (Exceeds s.cfg.maxBits (x.bits.length + 1) →
        exec (.add rd b) s = .next (faultState s 7#8)) ∧
      (Within s.cfg.maxBits (x.bits.length + 1) →
        exec (.add rd b) s = .next (okState (withReg s rd (x.bits ++ [b]) x.tag) 0#64 0#64))

/-- R91: APPEND adds the source's bits in stored order and keeps the destination's tag; with one
register as both it doubles it (decision D13). -/
def Obligations.AppendAddsTheSourceBits : Prop :=
  ∀ s rd rs1,
    (s.reg rd = none ∨ s.reg rs1 = none →
      exec (.append rd rs1) s = .next (faultState s 4#8)) ∧
    ∀ x y, s.reg rd = some x → s.reg rs1 = some y →
      (Exceeds s.cfg.maxBits (x.bits.length + y.bits.length) →
        exec (.append rd rs1) s = .next (faultState s 7#8)) ∧
      (Within s.cfg.maxBits (x.bits.length + y.bits.length) →
        exec (.append rd rs1) s =
          .next (okState (withReg s rd (x.bits ++ y.bits) x.tag) 0#64 0#64))

/-- R88, R95: REVERSE reverses the stored order, toggles the tag and keeps the logical value; two in a
row restore the register. -/
def Obligations.ReverseKeepsValueAndIsItsOwnInverse : Prop :=
  ∀ s rd,
    (s.reg rd = none → exec (.reverse rd) s = .next (faultState s 4#8)) ∧
    ∀ x, s.reg rd = some x →
      (BitSeq.mk x.bits.reverse (otherTag x.tag)).val = x.val ∧
      ∃ t, t = okState (withReg s rd x.bits.reverse (otherTag x.tag)) 0#64 0#64 ∧
        exec (.reverse rd) s = .next t ∧
        ∃ u, exec (.reverse rd) t = .next u ∧ u.reg rd = some x

/-- R89, R90: INSERT makes `b` the bit at index i and moves the bits from i on up by one; REMOVE
deletes the bit at i and moves the bits above down by one (decision D13). -/
def Obligations.InsertAndRemoveShiftTheBitsAbove : Prop :=
  ∀ s rd b (i : Int),
    (s.reg rd = none → exec (.insert rd b i) s = .next (faultState s 4#8) ∧
      exec (.remove rd i) s = .next (faultState s 4#8)) ∧
    ∀ x, s.reg rd = some x →
      (i < 0 ∨ i > x.bits.length → exec (.insert rd b i) s = .next (faultState s 1#8)) ∧
      (0 ≤ i → i ≤ x.bits.length → Exceeds s.cfg.maxBits (x.bits.length + 1) →
        exec (.insert rd b i) s = .next (faultState s 7#8)) ∧
      (∀ k : Nat, i = k → k ≤ x.bits.length → Within s.cfg.maxBits (x.bits.length + 1) →
        ∃ bits : List Bool, bits.length = x.bits.length + 1 ∧
          (∀ j, j < k → bits[j]? = x.bits[j]?) ∧ bits[k]? = some b ∧
          (∀ j, k ≤ j → bits[j + 1]? = x.bits[j]?) ∧
          exec (.insert rd b i) s = .next (okState (withReg s rd bits x.tag) 0#64 0#64)) ∧
      (i < 0 ∨ i ≥ x.bits.length → exec (.remove rd i) s = .next (faultState s 1#8)) ∧
      (∀ k : Nat, i = k → k < x.bits.length →
        ∃ bits : List Bool, bits.length + 1 = x.bits.length ∧
          (∀ j, j < k → bits[j]? = x.bits[j]?) ∧ (∀ j, k ≤ j → bits[j]? = x.bits[j + 1]?) ∧
          exec (.remove rd i) s = .next (okState (withReg s rd bits x.tag) 0#64 0#64))

/-- R92, R93: COUNT returns the number of bits, ENDIAN returns 0 for LE and 1 for BE; neither changes
state. For a Count of 2^64 or more, which only an unbounded or enormous MAXBITS admits, the spec
states no result word, and the word is free (log entry 6). -/
def Obligations.CountAndEndianReadTheRegister : Prop :=
  ∀ s rs1,
    (s.reg rs1 = none → exec (.count rs1) s = .next (faultState s 4#8) ∧
      exec (.endian rs1) s = .next (faultState s 4#8)) ∧
    ∀ x, s.reg rs1 = some x →
      (∃ w : Word64, (x.bits.length < 2 ^ 64 → w.toNat = x.bits.length) ∧
        exec (.count rs1) s = .next (okState s w 0#64)) ∧
      exec (.endian rs1) s = .next (okState s (if x.tag = .LE then 0#64 else 1#64) 0#64)

/-! ## Pad and trim -/

/-- R100: PAD adds `count` copies of the bit at index 0 for BE and at the end for LE, the most
significant side: padding with 0 keeps the logical value, padding with 1 adds 2^(n + count) - 2^n. -/
def Obligations.PadAddsOnTheMostSignificantSide : Prop :=
  ∀ s rd b (n : Int),
    (s.reg rd = none → exec (.pad rd b n) s = .next (faultState s 4#8)) ∧
    ∀ x, s.reg rd = some x →
      (n < 0 → exec (.pad rd b n) s = .next (faultState s 3#8)) ∧
      (0 ≤ n → Exceeds s.cfg.maxBits (x.bits.length + n.toNat) →
        exec (.pad rd b n) s = .next (faultState s 7#8)) ∧
      (0 ≤ n → Within s.cfg.maxBits (x.bits.length + n.toNat) →
        ∃ y : BitSeq, y.tag = x.tag ∧
          y.bits = (if x.tag = .BE then List.replicate n.toNat b ++ x.bits
            else x.bits ++ List.replicate n.toNat b) ∧
          y.val + (if b then 2 ^ x.bits.length else 0) =
            x.val + (if b then 2 ^ (x.bits.length + n.toNat) else 0) ∧
          exec (.pad rd b n) s = .next (okState (withReg s rd y.bits y.tag) 0#64 0#64))

/-- R101: PADTOBYTE pads with 0 on the same side up to the next multiple of 8 and keeps the logical
value. -/
def Obligations.PadToByteReachesAMultipleOfEight : Prop :=
  ∀ s rd,
    (s.reg rd = none → exec (.padToByte rd) s = .next (faultState s 4#8)) ∧
    ∀ x, s.reg rd = some x → ∃ k, k < 8 ∧ (x.bits.length + k) % 8 = 0 ∧
      (Exceeds s.cfg.maxBits (x.bits.length + k) →
        exec (.padToByte rd) s = .next (faultState s 7#8)) ∧
      (Within s.cfg.maxBits (x.bits.length + k) →
        ∃ y : BitSeq, y.tag = x.tag ∧ y.val = x.val ∧
          y.bits = (if x.tag = .BE then List.replicate k false ++ x.bits
            else x.bits ++ List.replicate k false) ∧
          exec (.padToByte rd) s = .next (okState (withReg s rd y.bits y.tag) 0#64 0#64))

/-- R102, R103: TRIMSTART removes every leading bit equal to `b`, TRIMEND every trailing one, and
nothing more. -/
def Obligations.TrimsRemoveTheWholeRun : Prop :=
  ∀ s rd b,
    (s.reg rd = none → exec (.trimStart rd b) s = .next (faultState s 4#8) ∧
      exec (.trimEnd rd b) s = .next (faultState s 4#8)) ∧
    ∀ x, s.reg rd = some x →
      (∃ k rest, x.bits = List.replicate k b ++ rest ∧ rest.head? ≠ some b ∧
        exec (.trimStart rd b) s = .next (okState (withReg s rd rest x.tag) 0#64 0#64)) ∧
      (∃ k rest, x.bits = rest ++ List.replicate k b ∧ rest.getLast? ≠ some b ∧
        exec (.trimEnd rd b) s = .next (okState (withReg s rd rest x.tag) 0#64 0#64))

/-- R104: TRIMENDIAN trims the end of an LE register and the start of a BE register; trimming 0 keeps
the logical value (the dispatch, not its gloss: C1). -/
def Obligations.TrimEndianTrimsTheMostSignificantSide : Prop :=
  ∀ s rd b,
    (s.reg rd = none → exec (.trimEndian rd b) s = .next (faultState s 4#8)) ∧
    ∀ x, s.reg rd = some x → ∃ k rest, rest.head? ≠ some b ∧
      (x.tag = .BE → x.bits = List.replicate k b ++ rest ∧
        exec (.trimEndian rd b) s = .next (okState (withReg s rd rest .BE) 0#64 0#64)) ∧
      (x.tag = .LE → x.bits = rest.reverse ++ List.replicate k b ∧
        exec (.trimEndian rd b) s = .next (okState (withReg s rd rest.reverse .LE) 0#64 0#64)) ∧
      (b = false → valLsb rest.reverse = x.val)

/-- R105: PAD and then TRIMENDIAN with the same bit restore the register, when it is empty or the bit
next to the padded side differs. -/
def Obligations.PadThenTrimEndianRestores : Prop :=
  ∀ s rd b (n : Nat) x, s.reg rd = some x → Within s.cfg.maxBits (x.bits.length + n) →
    (x.tag = .LE → x.bits.getLast? ≠ some b) → (x.tag = .BE → x.bits.head? ≠ some b) →
    ∃ t u, exec (.pad rd b n) s = .next t ∧ exec (.trimEndian rd b) t = .next u ∧
      u.reg rd = some x

/-! ## Conversion -/

/-- R110: TOBYTEARRAY writes to OBUF the bytes, most significant first, of the value of the selected
bits; it raises OutOfRange for every violation it names and CapacityExceeded last; the register is not
changed. -/
def Obligations.ToByteArrayGivesTheValueBigEndian : Prop :=
  ∀ s rs1 (n o : Int),
    (s.reg rs1 = none → exec (.toByteArray rs1 n o) s = .next (faultState s 4#8)) ∧
    ∀ x, s.reg rs1 = some x →
      (n ≤ 0 ∨ n % 8 ≠ 0 ∨ o < 0 ∨ o + n > x.bits.length →
        exec (.toByteArray rs1 n o) s = .next (faultState s 1#8)) ∧
      ∀ k a : Nat, n = 8 * k → 1 ≤ k → o = a → a + 8 * k ≤ x.bits.length →
        (Exceeds s.cfg.bufCap k → exec (.toByteArray rs1 n o) s = .next (faultState s 7#8)) ∧
        (Within s.cfg.bufCap k →
          ∃ (out : Memory) (w : Word64), out.length = k ∧
            bigEndianValue out = (BitSeq.mk ((x.bits.drop a).take (8 * k)) x.tag).val ∧
            (k < 2 ^ 64 → w.toNat = k) ∧
            exec (.toByteArray rs1 n o) s = .next (okState { s with obuf := out } w 0#64))

/-- R111 to R119: each TO command returns the logical value of the W bits at `offset`, sign- or
zero-extended, and changes no state; a negative offset is OutOfRange, too few bits BoundaryOutOfRange
(code 2).Two's complement and signedness: log entry 11. -/
def Obligations.ToCommandsReturnTheSliceValue : Prop :=
  ∀ p ∈ toCommands, ∀ s rs1 (o : Int),
    (s.reg rs1 = none → exec (p.1 rs1 o) s = .next (faultState s 4#8)) ∧
    ∀ x, s.reg rs1 = some x →
      (o < 0 → exec (p.1 rs1 o) s = .next (faultState s 1#8)) ∧
      (0 ≤ o → o + p.2.1 > x.bits.length → exec (p.1 rs1 o) s = .next (faultState s 2#8)) ∧
      ∀ a : Nat, o = a → a + p.2.1 ≤ x.bits.length →
        ∃ w : Word64, exec (p.1 rs1 o) s = .next (okState s w 0#64) ∧
          (p.2.2 = false →
            w.toNat = (BitSeq.mk ((x.bits.drop a).take p.2.1) x.tag).val) ∧
          (p.2.2 = true → ∀ v, v = (BitSeq.mk ((x.bits.drop a).take p.2.1) x.tag).val →
            w.toInt = if v < 2 ^ (p.2.1 - 1) then (v : Int) else (v : Int) - 2 ^ p.2.1)

/-- R120: FROMBYTEARRAY stores bit j of byte m at index 8m + j with the tag LE; the logical value is
the bytes' value, byte 0 least significant; IBUF is not changed. -/
def Obligations.FromByteArrayStoresBytesLittleEndian : Prop :=
  ∀ s rd,
    (s.ibuf = none → exec (.fromByteArray rd) s = .next (faultState s 4#8)) ∧
    ∀ m, s.ibuf = some m →
      (Exceeds s.cfg.maxBits (8 * m.length) →
        exec (.fromByteArray rd) s = .next (faultState s 7#8)) ∧
      (Within s.cfg.maxBits (8 * m.length) →
        ∃ bits : List Bool, bits.length = 8 * m.length ∧
          (∀ i (h : i / 8 < m.length), bits[i]? = some (m[i / 8].getLsbD (i % 8))) ∧
          (BitSeq.mk bits .LE).val = littleEndianValue m ∧
          exec (.fromByteArray rd) s = .next (okState (withReg s rd bits .LE) 0#64 0#64))

/-- R121 to R129: each FROM command stores bit i of its value at index i, Count W, tag LE; a value
outside the type's range is InvalidArgument, and the old register is not read.Two's complement: log entry
11. -/
def Obligations.FromCommandsStoreTheValueBits : Prop :=
  ∀ p ∈ fromCommands, ∀ s rd (v : Int),
    (v < p.2.2.1 ∨ v > p.2.2.2 → exec (p.1 rd v) s = .next (faultState s 3#8)) ∧
    (p.2.2.1 ≤ v → v ≤ p.2.2.2 →
      ∃ bits : List Bool, bits.length = p.2.1 ∧
        (∀ i, i < p.2.1 → bits[i]? = some (decide (v / 2 ^ i % 2 = 1))) ∧
        ((BitSeq.mk bits .LE).val : Int) = v % 2 ^ p.2.1 ∧
        exec (p.1 rd v) s = .next (okState (withReg s rd bits .LE) 0#64 0#64))

/-- R132: for each of the eight types and every value it can hold, FROM and then TO at offset 0 return
the value, sign-extended for the signed types and zero-extended for the others. Two's complement and
the signedness of the types: log entry 11. -/
def Obligations.ToAfterFromReturnsTheValue : Prop :=
  ∀ p ∈ List.zip toCommands fromCommands, ∀ s rd (v : Int), p.2.2.2.1 ≤ v → v ≤ p.2.2.2.2 →
    ∃ t w, exec (p.2.1 rd v) s = .next t ∧ exec (p.1.1 rd 0) t = .next (okState t w 0#64) ∧
      (p.1.2.2 = true → w.toInt = v) ∧ (p.1.2.2 = false → (w.toNat : Int) = v)

/-- R47: after a 32-bit FROM, a 16-bit TO at offset 0 sees the low 16 bits of the value and at offset
16 the high 16 bits; after REVERSE, the register being BE, the other way round. The bits of a
negative value are those of two's complement: log entry 11. -/
def Obligations.MixedWidthReads : Prop :=
  ∀ f ∈ [(Instr.fromInt32, (-2147483648 : Int), (2147483647 : Int)),
      (Instr.fromUInt32, 0, 4294967295)],
    ∀ s rd (v : Int), f.2.1 ≤ v → v ≤ f.2.2 →
      ∃ t u, exec (f.1 rd v) s = .next t ∧ exec (.reverse rd) t = .next u ∧
        ∀ g ∈ [Instr.toInt16, Instr.toUInt16],
          ∃ low high low' high' : Word64,
            exec (g rd 0) t = .next (okState t low 0#64) ∧
            exec (g rd 16) t = .next (okState t high 0#64) ∧
            exec (g rd 0) u = .next (okState u high' 0#64) ∧
            exec (g rd 16) u = .next (okState u low' 0#64) ∧
            (low.toNat : Int) % 65536 = v % 65536 ∧
            (high.toNat : Int) % 65536 = v / 65536 % 65536 ∧
            (low'.toNat : Int) % 65536 = v % 65536 ∧
            (high'.toNat : Int) % 65536 = v / 65536 % 65536

/-- R130, in the form that holds (C3): FROMBYTEARRAY of the reversed bytes of TOBYTEARRAY over a whole
register of 8k bits gives the register back for LE and its reverse for BE; FROMBYTEARRAY and then
TOBYTEARRAY over all bits reverse the bytes. -/
def Obligations.ByteConversionRoundTrip : Prop :=
  (∀ s rs rd x k, s.reg rs = some x → x.bits.length = 8 * k → 1 ≤ k → Within s.cfg.bufCap k →
    Within s.cfg.maxBits (8 * k) →
    ∃ t u, exec (.toByteArray rs (8 * k) 0) s = .next t ∧
      exec (.fromByteArray rd) { t with ibuf := some t.obuf.reverse } = .next u ∧
      u.reg rd = some (if x.tag = .LE then x else ⟨x.bits.reverse, .LE⟩)) ∧
  ∀ s rd (m : Memory), s.ibuf = some m → m ≠ [] → Within s.cfg.bufCap m.length →
    Within s.cfg.maxBits (8 * m.length) →
    ∃ t u, exec (.fromByteArray rd) s = .next t ∧
      exec (.toByteArray rd (8 * m.length) 0) t = .next u ∧ u.obuf = m.reverse

/-! ## Bitwise, rotate, counter -/

/-- R140 to R143: AND, OR and XOR combine the prefix both operands have, bit by bit, and copy the rest
of the longer one; the longer (rs1 on equal lengths) gives the tag; the shorter is reversed first when
tags and lengths differ; an empty operand is InvalidArgument (decision D18 for the open points). -/
def Obligations.BitwiseCommandsCombineThePrefix : Prop :=
  ∀ p ∈ bitwiseCommands, ∀ s rd rs1 rs2,
    (s.reg rs1 = none ∨ s.reg rs2 = none →
      exec (p.1 rd rs1 rs2) s = .next (faultState s 4#8)) ∧
    ∀ a b, s.reg rs1 = some a → s.reg rs2 = some b →
      (a.bits = [] ∨ b.bits = [] → exec (p.1 rd rs1 rs2) s = .next (faultState s 3#8)) ∧
      (a.bits ≠ [] → b.bits ≠ [] → ∀ l q : BitSeq,
        (l, q) = (if b.bits.length > a.bits.length then (b, a) else (a, b)) →
        ∀ z : List Bool,
          z = (if l.tag ≠ q.tag ∧ l.bits.length ≠ q.bits.length then q.bits.reverse else q.bits) →
          ∃ r : List Bool, r.length = l.bits.length ∧
            (∀ i, i < z.length → r.getD i false = p.2 (l.bits.getD i false) (z.getD i false)) ∧
            (∀ i, z.length ≤ i → r[i]? = l.bits[i]?) ∧
            exec (p.1 rd rs1 rs2) s = .next (okState (withReg s rd r l.tag) 0#64 0#64))

/-- R144: NOT complements every bit and keeps Count and tag; Count 0 is InvalidArgument. -/
def Obligations.NotComplementsEveryBit : Prop :=
  ∀ s rd rs1,
    (s.reg rs1 = none → exec (.not rd rs1) s = .next (faultState s 4#8)) ∧
    ∀ x, s.reg rs1 = some x →
      (x.bits = [] → exec (.not rd rs1) s = .next (faultState s 3#8)) ∧
      (x.bits ≠ [] → exec (.not rd rs1) s =
        .next (okState (withReg s rd (x.bits.map fun b => !b) x.tag) 0#64 0#64))

/-- R146, R147: bit i of ROL's result is the source's bit (i + c) mod n, of ROR's result bit
(i - c) mod n, with c = count mod n (which R147 derives from "reverse, left-rotate-by-count,
reverse"); Count 0 and then a negative count are InvalidArgument (decision D19 for the direction). -/
def Obligations.RotatesMoveEveryBit : Prop :=
  ∀ s rd rs1 (n : Int),
    (s.reg rs1 = none → exec (.rol rd rs1 n) s = .next (faultState s 4#8) ∧
      exec (.ror rd rs1 n) s = .next (faultState s 4#8)) ∧
    ∀ x, s.reg rs1 = some x →
      (x.bits = [] ∨ n < 0 → exec (.rol rd rs1 n) s = .next (faultState s 3#8) ∧
        exec (.ror rd rs1 n) s = .next (faultState s 3#8)) ∧
      ∀ k c : Nat, x.bits ≠ [] → n = k → c = k % x.bits.length →
        (∃ r : List Bool, r.length = x.bits.length ∧
          (∀ i, i < x.bits.length → r[i]? = x.bits[(i + c) % x.bits.length]?) ∧
          exec (.rol rd rs1 n) s = .next (okState (withReg s rd r x.tag) 0#64 0#64)) ∧
        (∃ r : List Bool, r.length = x.bits.length ∧
          (∀ i, i < x.bits.length →
            r[i]? = x.bits[(((i : Int) - c) % x.bits.length).toNat]?) ∧
          exec (.ror rd rs1 n) s = .next (okState (withReg s rd r x.tag) 0#64 0#64))

/-- R150, R152, R153: INC adds 1 to and DEC subtracts 1 from the logical value modulo 2^Count; Count
and tag are kept; Count 0 is InvalidArgument. -/
def Obligations.CountersStepTheLogicalValue : Prop :=
  ∀ s rd rs1,
    (s.reg rs1 = none → exec (.inc rd rs1) s = .next (faultState s 4#8) ∧
      exec (.dec rd rs1) s = .next (faultState s 4#8)) ∧
    ∀ x, s.reg rs1 = some x →
      (x.bits = [] → exec (.inc rd rs1) s = .next (faultState s 3#8) ∧
        exec (.dec rd rs1) s = .next (faultState s 3#8)) ∧
      (x.bits ≠ [] →
        (∃ y : BitSeq, y.tag = x.tag ∧ y.bits.length = x.bits.length ∧
          y.val = (x.val + 1) % 2 ^ x.bits.length ∧
          exec (.inc rd rs1) s = .next (okState (withReg s rd y.bits y.tag) 0#64 0#64)) ∧
        (∃ y : BitSeq, y.tag = x.tag ∧ y.bits.length = x.bits.length ∧
          (y.val : Int) = ((x.val : Int) - 1) % 2 ^ x.bits.length ∧
          exec (.dec rd rs1) s = .next (okState (withReg s rd y.bits y.tag) 0#64 0#64)))

/-- R154: for Count >= 1, NOT twice restores the register, AND with itself gives it back, XOR with
itself gives as many zeros with its tag. -/
def Obligations.BitwiseLaws : Prop :=
  ∀ s r x, s.reg r = some x → x.bits ≠ [] →
    (∃ t u, exec (.not r r) s = .next t ∧ exec (.not r r) t = .next u ∧ u.reg r = some x) ∧
    (∃ t, exec (.and r r r) s = .next t ∧ t.reg r = some x) ∧
    (∃ t, exec (.xor r r r) s = .next t ∧
      t.reg r = some ⟨List.replicate x.bits.length false, x.tag⟩)

/-! ## The queue -/

/-- R161: ENQUEUE puts the entry behind all others; an item outside ITEM_BITS bits or a weight outside
32 signed bits is InvalidArgument, a full queue CapacityExceeded. -/
def Obligations.EnqueueAppendsTheEntry : Prop :=
  ∀ s (v w : Int),
    (v < 0 ∨ v ≥ 2 ^ s.cfg.itemBits ∨ w < -(2 ^ 31) ∨ w > 2 ^ 31 - 1 →
      exec (.enqueue v w) s = .next (faultState s 3#8)) ∧
    (0 ≤ v → v < 2 ^ s.cfg.itemBits → -(2 ^ 31) ≤ w → w ≤ 2 ^ 31 - 1 →
      (s.cfg.qCap = some s.q.length →
        exec (.enqueue v w) s = .next (faultState s 7#8)) ∧
      (Within s.cfg.qCap (s.q.length + 1) →
        exec (.enqueue v w) s =
          .next (okState { s with q := s.q ++ [⟨v.toNat, w⟩] } 0#64 0#64)))

/-- R162: DEQUEUE takes out the earliest entry of least weight, keeps the order of the others, and
returns its item and weight; an empty queue is QueueEmpty (code 8). -/
def Obligations.DequeueTakesTheEarliestLeastWeight : Prop :=
  ∀ s,
    (s.q = [] → exec .dequeue s = .next (faultState s 8#8)) ∧
    (s.q ≠ [] → (∀ e ∈ s.q, EntryOk s.cfg e) → s.cfg.itemBits ≤ 63 →
      ∃ before e after, s.q = before ++ e :: after ∧
        (∀ x ∈ before, e.weight < x.weight) ∧ (∀ x ∈ after, e.weight ≤ x.weight) ∧
        ∃ r0 r1 : Word64, r0.toNat = e.item ∧ r1.toInt = e.weight ∧
          exec .dequeue s = .next (okState { s with q := before ++ after } r0 r1))

/-- R163, R164: QCOUNT returns the number of entries and changes no state; QCLEAR empties the queue.
A length of 2^64 or more, which only an unbounded or enormous QCAP admits, has no stated word (log
entry 6). -/
def Obligations.QueueCountAndClear : Prop :=
  ∀ s,
    (∃ w : Word64, (s.q.length < 2 ^ 64 → w.toNat = s.q.length) ∧
      exec .qcount s = .next (okState s w 0#64)) ∧
    exec .qclear s = .next (okState { s with q := [] } 0#64 0#64)

/-- R165: dequeuing until the queue is empty returns the entries in the stable order by weight:
weights ascending, equal weights in the order they went in. -/
def Obligations.DrainingTheQueueIsAStableSort : Prop :=
  ∀ s, (dequeued s.q.length s).2 = [] ∧
    (dequeued s.q.length s).1 =
      (s.q.mergeSort fun a b => decide (a.weight ≤ b.weight)).map fun e =>
        some ⟨0#8, BitVec.ofNat 64 e.item, BitVec.ofInt 64 e.weight⟩

/-! ## The codec -/

/-- R170, R180: COMPRESS replaces OBUF by the compressed input, empties Q, and changes nothing else;
whatever Q held has no influence; a result longer than BUF_CAP is CapacityExceeded and changes
nothing. -/
def Obligations.CompressReplacesTheOutputAndEmptiesTheQueue : Prop :=
  ∀ s,
    (s.ibuf = none → exec .compress s = .next (faultState s 4#8)) ∧
    ∀ m, s.ibuf = some m →
      (Exceeds s.cfg.bufCap (compress m).length →
        exec .compress s = .next (faultState s 7#8)) ∧
      (Within s.cfg.bufCap (compress m).length →
        ∃ w : Word64, ((compress m).length < 2 ^ 64 → w.toNat = (compress m).length) ∧
          exec .compress s = .next (okState { s with obuf := compress m, q := [] } w 0#64))

/-- R171 to R174: a non-empty input has the Huffman tree that R173's loop gives on a stable queue
seeded, in ascending order, with one leaf per distinct byte and its count as weight: the earliest of
equal weights first, the first dequeued on the left. Its leaves are the input's distinct bytes, each
once; an internal root weighs the input's length. The empty input has no tree. -/
def Obligations.HuffmanTreeIsBuiltByTheStableQueue : Prop :=
  huffmanTree [] = none ∧
  ∀ b : Memory, b ≠ [] → ∃ root, huffmanTree b = some root ∧
    (∃ seeds : List Byte, seeds.Pairwise (fun u v => u.toNat < v.toNat) ∧ (∀ v, v ∈ seeds ↔ v ∈ b) ∧
      CombinesTo (seeds.map fun v => ⟨.leaf v, b.count v⟩) root) ∧
    (leaves root).Nodup ∧ (∀ v, v ∈ leaves root ↔ v ∈ b) ∧
    ∀ l r w, root = .node l r w → w = b.length

/-- No code of an input's bytes is empty or the beginning of another (R18 prefix-free code). -/
def Obligations.CodesArePrefixFree : Prop :=
  ∀ (b : Memory) root, huffmanTree b = some root → ∀ u ∈ b, ∀ v ∈ b,
    codeOf root u ≠ [] ∧ (codeOf root u <+: codeOf root v → u = v)

/-- R70 to R74, R76, R178: the compressed form, bit by bit: the pad count, the tree, the code of every
byte in order, pad-count zeros, the pad count being the least that fills the last byte; a code is the
path to the byte's leaf, the one bit 0 when that leaf is the root (R175); the empty input gives
[0x00]. R77: its size, from the number k of distinct bytes, their counts and their codes' lengths. -/
def Obligations.CompressedFormAndItsSize : Prop :=
  compress [] = [0x00#8] ∧
  ∀ b : Memory, b ≠ [] → ∃ root, huffmanTree b = some root ∧
    (∀ v ∈ b, (root = .leaf v ∧ codeOf root v = [false]) ∨
      (root ≠ .leaf v ∧ symbolAt root (codeOf root v) = some v)) ∧
    (∃ pad, pad ≤ 7 ∧
      ((treeBits root).length + (b.flatMap (codeOf root)).length + pad) % 8 = 0 ∧
      bufferBits (compress b) = msbFirst (BitVec.ofNat 8 pad) ++ treeBits root ++
        b.flatMap (codeOf root) ++ List.replicate pad false) ∧
    (compress b).length =
      1 + (10 * b.dedup.length - 1 +
        (b.dedup.map fun v => b.count v * (codeOf root v).length).sum + 7) / 8 ∧
    (b.dedup.length = 1 → ∀ v ∈ b, (codeOf root v).length = 1)

/-- R190, R200: DECOMPRESS replaces OBUF by the decompressed input and changes nothing else, or raises
the decoder's fault and changes nothing. -/
def Obligations.DecompressReplacesTheOutputOrFails : Prop :=
  ∀ s,
    (s.ibuf = none → exec .decompress s = .next (faultState s 4#8)) ∧
    ∀ m, s.ibuf = some m →
      (decompress s.cfg m = .error .corruptData →
        exec .decompress s = .next (faultState s 5#8)) ∧
      (decompress s.cfg m = .error .capacityExceeded →
        exec .decompress s = .next (faultState s 7#8)) ∧
      (∀ k, decompress s.cfg m = .error k → k = .corruptData ∨ k = .capacityExceeded) ∧
      ∀ out, decompress s.cfg m = .ok out →
        Within s.cfg.bufCap out.length ∧
        ∃ w : Word64, (out.length < 2 ^ 64 → w.toNat = out.length) ∧
          exec .decompress s = .next (okState { s with obuf := out } w 0#64)

/-- R191, R192, R193: no first byte, a pad count above 7 or above the bits present is CorruptData; the
one buffer whose stripped sequence is empty decodes to the empty list. -/
def Obligations.DecoderHeaderChecks : Prop :=
  ∀ p : Params,
    decompress p [] = .error .corruptData ∧
    (∀ (t : Byte) (rest : Memory), t.toNat > 7 → decompress p (t :: rest) = .error .corruptData) ∧
    (∀ t : Byte, t ≠ 0#8 → decompress p [t] = .error .corruptData) ∧
    decompress p [0#8] = .ok []

/-- R192: the stripped tail bits are not examined: two buffers with the same pad count whose bits
differ only among the last `pad count` ones decode alike. -/
def Obligations.DecoderIgnoresThePadBits : Prop :=
  ∀ (p : Params) (t : Byte) (m n : Memory), m.length = n.length →
    (bufferBits m).take (8 * m.length - t.toNat) =
      (bufferBits n).take (8 * n.length - t.toNat) →
    decompress p (t :: m) = decompress p (t :: n)

/-- R194 to R198 on any tree, not only one an encoder builds, and any payload. The stripped bits are a
tree cut off: CorruptData (or, when the nodes already exceed NODE_CAP, CapacityExceeded). A whole tree
of more than NODE_CAP nodes: CapacityExceeded. Else, under an internal root the payload is root-to-leaf
paths and a rest: more than BUF_CAP paths are CapacityExceeded whatever the rest (log entry 7); else no
rest decodes to the paths' symbols, and a rest that ends inside a path is CorruptData. Under a single
leaf the same of zeros, each of which emits the symbol, and a 1 is CorruptData. -/
def Obligations.DecoderWalksAnyTree : Prop :=
  ∀ (p : Params) (t : Byte) (m : Memory) (root : Tree) (bits : List Bool),
    t.toNat ≤ 7 → t.toNat ≤ 8 * m.length →
    bits = (bufferBits m).take (8 * m.length - t.toNat) →
    (bits ≠ [] → ∀ missing, missing ≠ [] → bits ++ missing = treeBits root →
      ∃ k, decompress p (t :: m) = .error k ∧ (k = .corruptData ∨ k = .capacityExceeded) ∧
        (Within p.nodeCap (2 * (leaves root).length - 1) → k = .corruptData)) ∧
    ∀ rest, bits = treeBits root ++ rest →
      (Exceeds p.nodeCap (2 * (leaves root).length - 1) →
        decompress p (t :: m) = .error .capacityExceeded) ∧
      (Within p.nodeCap (2 * (leaves root).length - 1) →
        (∀ l r w, root = .node l r w → ∀ (paths : List (Byte × List Bool)) (z : List Bool),
          (∀ x ∈ paths, symbolAt root x.2 = some x.1) → rest = paths.flatMap Prod.snd ++ z →
          (Exceeds p.bufCap paths.length → decompress p (t :: m) = .error .capacityExceeded) ∧
          (Within p.bufCap paths.length →
            (z = [] → decompress p (t :: m) = .ok (paths.map Prod.fst)) ∧
            ∀ v y, z ≠ [] → y ≠ [] → symbolAt root (z ++ y) = some v →
              decompress p (t :: m) = .error .corruptData)) ∧
        ∀ v, root = .leaf v → ∀ k z, rest = List.replicate k false ++ z →
          (Exceeds p.bufCap k → decompress p (t :: m) = .error .capacityExceeded) ∧
          (Within p.bufCap k →
            (z = [] → decompress p (t :: m) = .ok (List.replicate k v)) ∧
            ∀ s, z = true :: s → decompress p (t :: m) = .error .corruptData))

/-- R199, the load-bearing property: on a block whose parameters R6 allows, COMPRESS, OBTOIB,
DECOMPRESS of any input whose compressed form fits BUF_CAP ends without a fault and with OBUF equal to
the input. -/
def Obligations.DecompressAfterCompressRestoresTheInput : Prop :=
  ∀ s (b : Memory), ParamsOk s.cfg → s.ibuf = some b → Within s.cfg.bufCap b.length →
    Within s.cfg.bufCap (compress b).length →
    ∃ t u v, exec .compress s = .next t ∧ exec .obtoib t = .next u ∧
      exec .decompress u = .next v ∧ v.obuf = b ∧ v.err = s.err ∧
      (∃ w, t.resp = some ⟨0#8, w, 0#64⟩) ∧ (∃ w, u.resp = some ⟨0#8, w, 0#64⟩) ∧
      ∃ w, v.resp = some ⟨0#8, w, 0#64⟩

/-! ## Host and system commands -/

/-- R210, R211: IBCLR makes the input array empty and non-null; IBPUSH appends one byte and leaves the
others; a null array is NullArgument, a value that is no byte InvalidArgument, a full array
CapacityExceeded. -/
def Obligations.InputArrayClearAndPush : Prop :=
  ∀ s (v : Int),
    exec .ibclr s = .next (okState { s with ibuf := some [] } 0#64 0#64) ∧
    (s.ibuf = none → exec (.ibpush v) s = .next (faultState s 4#8)) ∧
    ∀ m, s.ibuf = some m →
      (v < 0 ∨ v > 255 → exec (.ibpush v) s = .next (faultState s 3#8)) ∧
      (0 ≤ v → v ≤ 255 → s.cfg.bufCap = some m.length →
        exec (.ibpush v) s = .next (faultState s 7#8)) ∧
      (0 ≤ v → v ≤ 255 → Within s.cfg.bufCap (m.length + 1) →
        ∃ (c : Memory) (y : Byte), (y.toNat : Int) = v ∧ c.length = m.length + 1 ∧
          Memory.read c m.length = some y ∧
          (∀ a, a < m.length → Memory.read c a = Memory.read m a) ∧
          exec (.ibpush v) s = .next (okState { s with ibuf := some c } 0#64 0#64))

/-- R212, R213: OBRD returns the byte at an index inside [0, OLEN) and raises OutOfRange at any other;
OLENR returns OLEN; neither changes state. A length of 2^64 or more has no stated word (log entry 6). -/
def Obligations.OutputArrayReads : Prop :=
  ∀ s (i : Int),
    (i < 0 ∨ i ≥ s.obuf.length → exec (.obrd i) s = .next (faultState s 1#8)) ∧
    (∀ k (h : k < s.obuf.length), i = k →
      ∃ w : Word64, w.toNat = s.obuf[k].toNat ∧ exec (.obrd i) s = .next (okState s w 0#64)) ∧
    ∃ w : Word64, (s.obuf.length < 2 ^ 64 → w.toNat = s.obuf.length) ∧
      exec .olenr s = .next (okState s w 0#64)

/-- R214, R215, R216: OBTOIB copies OBUF to IBUF and returns the length; RDERR returns ERR and changes
no state; CLRERR sets ERR to 0 and changes no other state. -/
def Obligations.OutputToInputAndErrorRegister : Prop :=
  ∀ s,
    (∃ w : Word64, (s.obuf.length < 2 ^ 64 → w.toNat = s.obuf.length) ∧
      exec .obtoib s = .next (okState { s with ibuf := some s.obuf } w 0#64)) ∧
    (∃ w : Word64, w.toNat = s.err.toNat ∧ exec .rderr s = .next (okState s w 0#64)) ∧
    exec .clrerr s = .next (okState { s with err := 0#8 } 0#64 0#64)
end

