-- ==== Sys2Proof/Laws/Bits.lean ====
section
/-! SUPPORT. Lengths and values of the bit-sequence operations. -/
namespace Sys2Proof.Machine

/-! ## Values (R13) -/

@[simp] theorem valLsb_nil : valLsb [] = 0 := rfl

@[simp] theorem valLsb_cons (b : Bool) (s : List Bool) : valLsb (b :: s) = b.toNat + 2 * valLsb s := rfl

/-- The later bits weigh 2^length of the earlier ones. -/
theorem valLsb_append (s t : List Bool) : valLsb (s ++ t) = valLsb s + 2 ^ s.length * valLsb t := by
  induction s with
  | nil => simp
  | cons b s ih => simp [ih, Nat.pow_succ]; ring

@[simp] theorem valLsb_replicate_false (n : Nat) : valLsb (List.replicate n false) = 0 := by
  induction n with
  | zero => rfl
  | succ n ih => simp [List.replicate_succ, ih]

theorem valLsb_replicate_true (n : Nat) : valLsb (List.replicate n true) + 1 = 2 ^ n := by
  induction n with
  | zero => rfl
  | succ n ih => simp only [List.replicate_succ, valLsb_cons, Bool.toNat_true, Nat.pow_succ]; omega

/-- A value fits its number of bits. -/
theorem valLsb_lt (s : List Bool) : valLsb s < 2 ^ s.length := by
  induction s with
  | nil => simp
  | cons b s ih =>
    have hb : b.toNat ≤ 1 := Bool.toNat_le b
    simp only [valLsb_cons, List.length_cons, Nat.pow_succ]; omega

/-- Equal lengths and equal values are equal bit lists. -/
theorem valLsb_injective {s t : List Bool} (hl : s.length = t.length) (hv : valLsb s = valLsb t) :
    s = t := by
  induction s generalizing t with
  | nil => simpa [eq_comm] using hl
  | cons b s ih =>
    cases t with
    | nil => simp at hl
    | cons c t =>
      simp only [valLsb_cons] at hv
      have hb : b.toNat ≤ 1 := Bool.toNat_le b
      have hc : c.toNat ≤ 1 := Bool.toNat_le c
      have h1 : b.toNat = c.toNat := by omega
      have h2 : b = c := by cases b <;> cases c <;> simp_all
      rw [h2, ih (by simpa using hl) (by omega)]

@[simp] theorem flipTag_flipTag (t : Tag) : flipTag (flipTag t) = t := by cases t <;> rfl

@[simp] theorem BitSeq.reversed_bits (x : BitSeq) : x.reversed.bits = x.bits.reverse := rfl

@[simp] theorem BitSeq.reversed_tag (x : BitSeq) : x.reversed.tag = flipTag x.tag := rfl

@[simp] theorem BitSeq.reversed_reversed (x : BitSeq) : x.reversed.reversed = x := by
  simp [BitSeq.reversed]

/-- Reversing keeps the logical value (R88). -/
@[simp] theorem BitSeq.reversed_val (x : BitSeq) : x.reversed.val = x.val := by
  rcases x with ⟨s, t⟩
  cases t <;> simp [BitSeq.val, BitSeq.reversed, flipTag]

/-! ## Lengths -/

@[simp] theorem bitsMsb_length (v : Byte) : (bitsMsb v).length = 8 := by simp [bitsMsb]

@[simp] theorem unpackMsb_length (m : Memory) : (unpackMsb m).length = 8 * m.length := by
  simp [unpackMsb, List.length_flatMap, Nat.mul_comm]

@[simp] theorem unpackLsb_length (m : Memory) : (unpackLsb m).length = 8 * m.length := by
  simp [unpackLsb, List.length_flatMap, Nat.mul_comm]

@[simp] theorem lowBits_length (w : Nat) (v : Int) : (lowBits w v).length = w := by simp [lowBits]

@[simp] theorem boolArray_length (m : Memory) : (boolArray m).length = m.length := by simp [boolArray]

/-- Eight bits a byte. -/
theorem packMsb_length (s : List Bool) : (packMsb s).length = s.length / 8 := by
  fun_induction packMsb s with
  | case1 b0 b1 b2 b3 b4 b5 b6 b7 s ih => simp only [List.length_cons, ih]; omega
  | case2 s h =>
    match s, h with
    | [], _ | [_], _ | [_, _], _ | [_, _, _], _ | [_, _, _, _], _ | [_, _, _, _, _], _
    | [_, _, _, _, _, _], _ | [_, _, _, _, _, _, _], _ => simp
    | b0 :: b1 :: b2 :: b3 :: b4 :: b5 :: b6 :: b7 :: s, h =>
      exact (h b0 b1 b2 b3 b4 b5 b6 b7 s rfl).elim

theorem bytesOf_length (s : List Bool) (t : Tag) : (bytesOf s t).length = s.length / 8 := by
  cases t <;> simp [bytesOf, packMsb_length]

theorem slice_length (s : List Bool) (a n : Nat) (h : a + n ≤ s.length) : (slice s a n).length = n := by
  simp [slice]; omega

@[simp] theorem BitSeq.setBit_length (x : BitSeq) (i : Nat) (b : Bool) :
    (x.setBit i b).bits.length = x.bits.length := by simp [BitSeq.setBit]

@[simp] theorem BitSeq.flipBit_length (x : BitSeq) (i : Nat) :
    (x.flipBit i).bits.length = x.bits.length := by simp [BitSeq.flipBit]

theorem BitSeq.insertBit_length (x : BitSeq) (i : Nat) (b : Bool) (h : i ≤ x.bits.length) :
    (x.insertBit i b).bits.length = x.bits.length + 1 := by simp [BitSeq.insertBit]; omega

theorem BitSeq.removeBit_length (x : BitSeq) (i : Nat) (h : i < x.bits.length) :
    (x.removeBit i).bits.length + 1 = x.bits.length := by simp [BitSeq.removeBit]; omega

@[simp] theorem BitSeq.appendBits_length (x : BitSeq) (s : List Bool) :
    (x.appendBits s).bits.length = x.bits.length + s.length := by simp [BitSeq.appendBits]

@[simp] theorem BitSeq.padded_length (x : BitSeq) (b : Bool) (n : Nat) :
    (x.padded b n).bits.length = x.bits.length + n := by
  unfold BitSeq.padded; split <;> simp [Nat.add_comm]

/-- The pad count is the least that reaches a multiple of 8 (R74, R101). -/
theorem padCount_spec (n : Nat) : padCount n < 8 ∧ (n + padCount n) % 8 = 0 := by
  unfold padCount; omega

/-- Trimming splits off a run of the trimmed bit (R102). -/
theorem trimLeading_spec (b : Bool) (s : List Bool) :
    ∃ k, s = List.replicate k b ++ trimLeading b s ∧ (trimLeading b s).head? ≠ some b := by
  induction s with
  | nil => exact ⟨0, rfl, by simp [trimLeading]⟩
  | cons c s ih =>
    by_cases h : c = b
    · obtain ⟨k, hk, hh⟩ := ih
      have he : trimLeading b (c :: s) = trimLeading b s := by simp [trimLeading, h]
      refine ⟨k + 1, ?_, he ▸ hh⟩
      rw [he, List.replicate_succ, List.cons_append, ← hk, h]
    · have he : trimLeading b (c :: s) = c :: s := by simp [trimLeading, h]
      exact ⟨0, by simp [he], by simp [he, h]⟩

theorem trimLeading_length_le (b : Bool) (s : List Bool) : (trimLeading b s).length ≤ s.length := by
  obtain ⟨k, hk, -⟩ := trimLeading_spec b s
  have := congrArg List.length hk
  simp at this; omega

theorem trimTrailing_length_le (b : Bool) (s : List Bool) : (trimTrailing b s).length ≤ s.length := by
  have := trimLeading_length_le b s.reverse
  simpa [trimTrailing] using this

theorem BitSeq.trimmedStart_length_le (x : BitSeq) (b : Bool) :
    (x.trimmedStart b).bits.length ≤ x.bits.length := trimLeading_length_le b x.bits

theorem BitSeq.trimmedEnd_length_le (x : BitSeq) (b : Bool) :
    (x.trimmedEnd b).bits.length ≤ x.bits.length := trimTrailing_length_le b x.bits

theorem BitSeq.trimmedEndian_length_le (x : BitSeq) (b : Bool) :
    (x.trimmedEndian b).bits.length ≤ x.bits.length := by
  unfold BitSeq.trimmedEndian
  split
  · exact x.trimmedEnd_length_le b
  · exact x.trimmedStart_length_le b

/-- The longer first operand gives the length (R140). -/
theorem zipPrefix_length (op : Bool → Bool → Bool) (s t : List Bool) (h : t.length ≤ s.length) :
    (zipPrefix op s t).length = s.length := by
  fun_induction zipPrefix op s t with
  | case1 x s y t ih => simp only [List.length_cons] at h ⊢; rw [ih (by omega)]
  | case2 s => rfl
  | case3 t => simp

/-- The result of a binary operator is as long as its longer operand (R140). -/
theorem combine_length (op : Bool → Bool → Bool) (a b : BitSeq) :
    (combine op a b).bits.length = max a.bits.length b.bits.length := by
  have key : ∀ l s : BitSeq, s.bits.length ≤ l.bits.length →
      (combineOnto op l s).bits.length = l.bits.length := by
    intro l s h
    unfold combineOnto
    split <;> exact zipPrefix_length op _ _ (by simpa using h)
  unfold combine BitSeq.count
  split
  · next h => rw [key _ _ (by omega)]; omega
  · next h => rw [key _ _ (by omega)]; omega

@[simp] theorem BitSeq.complement_length (x : BitSeq) : x.complement.bits.length = x.bits.length := by
  simp [BitSeq.complement]

@[simp] theorem BitSeq.rotatedLeft_length (x : BitSeq) (n : Nat) :
    (x.rotatedLeft n).bits.length = x.bits.length := by
  simp only [BitSeq.rotatedLeft, List.length_append, List.length_drop, List.length_take, BitSeq.count]
  rcases Nat.eq_zero_or_pos x.bits.length with h | h
  · simp [h]
  · have := Nat.mod_lt n h
    omega

@[simp] theorem BitSeq.rotatedRight_length (x : BitSeq) (n : Nat) :
    (x.rotatedRight n).bits.length = x.bits.length := by
  simp only [BitSeq.rotatedRight, BitSeq.reversed_bits, List.length_reverse, BitSeq.rotatedLeft_length]

@[simp] theorem incBits_length (s : List Bool) : (incBits s).length = s.length := by
  fun_induction incBits s <;> simp_all

@[simp] theorem decBits_length (s : List Bool) : (decBits s).length = s.length := by
  fun_induction decBits s <;> simp_all

/-- A counter step keeps Count when its bit function does (R150). -/
theorem BitSeq.counted_length (f : List Bool → List Bool) (hf : ∀ s, (f s).length = s.length)
    (x : BitSeq) : (x.counted f).bits.length = x.bits.length := by
  unfold BitSeq.counted
  split <;> simp [hf]

@[simp] theorem BitSeq.counted_tag (f : List Bool → List Bool) (x : BitSeq) :
    (x.counted f).tag = x.tag := by
  unfold BitSeq.counted
  split <;> simp [*, flipTag]

end Sys2Proof.Machine
end

