-- ==== Sys2Proof/Laws/State.lean ====
section
/-! SUPPORT. One lemma per field per update of the state, each true by unfolding, so that no proof unfolds a record update. -/
namespace Sys2Proof.Machine

@[simp] theorem State.setReg_cfg (s : State) (r : Reg) (x : BitSeq) : (s.setReg r x).cfg = s.cfg := rfl
@[simp] theorem State.setReg_bf (s : State) (r : Reg) (x : BitSeq) : (s.setReg r x).bf = s.bf.set r (some x) := rfl
@[simp] theorem State.setReg_q (s : State) (r : Reg) (x : BitSeq) : (s.setReg r x).q = s.q := rfl
@[simp] theorem State.setReg_ibuf (s : State) (r : Reg) (x : BitSeq) : (s.setReg r x).ibuf = s.ibuf := rfl
@[simp] theorem State.setReg_obuf (s : State) (r : Reg) (x : BitSeq) : (s.setReg r x).obuf = s.obuf := rfl
@[simp] theorem State.setReg_err (s : State) (r : Reg) (x : BitSeq) : (s.setReg r x).err = s.err := rfl
@[simp] theorem State.setReg_cmds (s : State) (r : Reg) (x : BitSeq) : (s.setReg r x).cmds = s.cmds := rfl
@[simp] theorem State.setReg_resp (s : State) (r : Reg) (x : BitSeq) : (s.setReg r x).resp = s.resp := rfl

@[simp] theorem State.setInput_cfg (s : State) (m : Memory) : (s.setInput m).cfg = s.cfg := rfl
@[simp] theorem State.setInput_bf (s : State) (m : Memory) : (s.setInput m).bf = s.bf := rfl
@[simp] theorem State.setInput_q (s : State) (m : Memory) : (s.setInput m).q = s.q := rfl
@[simp] theorem State.setInput_ibuf (s : State) (m : Memory) : (s.setInput m).ibuf = some m := rfl
@[simp] theorem State.setInput_obuf (s : State) (m : Memory) : (s.setInput m).obuf = s.obuf := rfl
@[simp] theorem State.setInput_err (s : State) (m : Memory) : (s.setInput m).err = s.err := rfl
@[simp] theorem State.setInput_cmds (s : State) (m : Memory) : (s.setInput m).cmds = s.cmds := rfl
@[simp] theorem State.setInput_resp (s : State) (m : Memory) : (s.setInput m).resp = s.resp := rfl
@[simp] theorem State.setInput_reg (s : State) (m : Memory) (r : Reg) : (s.setInput m).reg r = s.reg r := rfl

@[simp] theorem State.setOutput_cfg (s : State) (m : Memory) : (s.setOutput m).cfg = s.cfg := rfl
@[simp] theorem State.setOutput_bf (s : State) (m : Memory) : (s.setOutput m).bf = s.bf := rfl
@[simp] theorem State.setOutput_q (s : State) (m : Memory) : (s.setOutput m).q = s.q := rfl
@[simp] theorem State.setOutput_ibuf (s : State) (m : Memory) : (s.setOutput m).ibuf = s.ibuf := rfl
@[simp] theorem State.setOutput_obuf (s : State) (m : Memory) : (s.setOutput m).obuf = m := rfl
@[simp] theorem State.setOutput_err (s : State) (m : Memory) : (s.setOutput m).err = s.err := rfl
@[simp] theorem State.setOutput_cmds (s : State) (m : Memory) : (s.setOutput m).cmds = s.cmds := rfl
@[simp] theorem State.setOutput_resp (s : State) (m : Memory) : (s.setOutput m).resp = s.resp := rfl
@[simp] theorem State.setOutput_reg (s : State) (m : Memory) (r : Reg) : (s.setOutput m).reg r = s.reg r := rfl

@[simp] theorem State.setQueue_cfg (s : State) (q : List (Entry Nat)) : (s.setQueue q).cfg = s.cfg := rfl
@[simp] theorem State.setQueue_bf (s : State) (q : List (Entry Nat)) : (s.setQueue q).bf = s.bf := rfl
@[simp] theorem State.setQueue_q (s : State) (q : List (Entry Nat)) : (s.setQueue q).q = q := rfl
@[simp] theorem State.setQueue_ibuf (s : State) (q : List (Entry Nat)) : (s.setQueue q).ibuf = s.ibuf := rfl
@[simp] theorem State.setQueue_obuf (s : State) (q : List (Entry Nat)) : (s.setQueue q).obuf = s.obuf := rfl
@[simp] theorem State.setQueue_err (s : State) (q : List (Entry Nat)) : (s.setQueue q).err = s.err := rfl
@[simp] theorem State.setQueue_cmds (s : State) (q : List (Entry Nat)) : (s.setQueue q).cmds = s.cmds := rfl
@[simp] theorem State.setQueue_resp (s : State) (q : List (Entry Nat)) : (s.setQueue q).resp = s.resp := rfl
@[simp] theorem State.setQueue_reg (s : State) (q : List (Entry Nat)) (r : Reg) : (s.setQueue q).reg r = s.reg r := rfl

@[simp] theorem State.answer_cfg (s : State) (r0 r1 : Word64) : (s.answer r0 r1).cfg = s.cfg := rfl
@[simp] theorem State.answer_bf (s : State) (r0 r1 : Word64) : (s.answer r0 r1).bf = s.bf := rfl
@[simp] theorem State.answer_q (s : State) (r0 r1 : Word64) : (s.answer r0 r1).q = s.q := rfl
@[simp] theorem State.answer_ibuf (s : State) (r0 r1 : Word64) : (s.answer r0 r1).ibuf = s.ibuf := rfl
@[simp] theorem State.answer_obuf (s : State) (r0 r1 : Word64) : (s.answer r0 r1).obuf = s.obuf := rfl
@[simp] theorem State.answer_err (s : State) (r0 r1 : Word64) : (s.answer r0 r1).err = s.err := rfl
@[simp] theorem State.answer_cmds (s : State) (r0 r1 : Word64) : (s.answer r0 r1).cmds = s.cmds := rfl
@[simp] theorem State.answer_resp (s : State) (r0 r1 : Word64) : (s.answer r0 r1).resp = some ⟨0#8, r0, r1⟩ := rfl
@[simp] theorem State.answer_reg (s : State) (r0 r1 : Word64) (r : Reg) : (s.answer r0 r1).reg r = s.reg r := rfl

@[simp] theorem State.clearErr_cfg (s : State) : (s.clearErr).cfg = s.cfg := rfl
@[simp] theorem State.clearErr_bf (s : State) : (s.clearErr).bf = s.bf := rfl
@[simp] theorem State.clearErr_q (s : State) : (s.clearErr).q = s.q := rfl
@[simp] theorem State.clearErr_ibuf (s : State) : (s.clearErr).ibuf = s.ibuf := rfl
@[simp] theorem State.clearErr_obuf (s : State) : (s.clearErr).obuf = s.obuf := rfl
@[simp] theorem State.clearErr_err (s : State) : (s.clearErr).err = 0#8 := rfl
@[simp] theorem State.clearErr_cmds (s : State) : (s.clearErr).cmds = s.cmds := rfl
@[simp] theorem State.clearErr_resp (s : State) : (s.clearErr).resp = s.resp := rfl
@[simp] theorem State.clearErr_reg (s : State) (r : Reg) : (s.clearErr).reg r = s.reg r := rfl

@[simp] theorem State.issue_cfg (s : State) (c : Command) : (s.issue c).cfg = s.cfg := rfl
@[simp] theorem State.issue_bf (s : State) (c : Command) : (s.issue c).bf = s.bf := rfl
@[simp] theorem State.issue_q (s : State) (c : Command) : (s.issue c).q = s.q := rfl
@[simp] theorem State.issue_ibuf (s : State) (c : Command) : (s.issue c).ibuf = s.ibuf := rfl
@[simp] theorem State.issue_obuf (s : State) (c : Command) : (s.issue c).obuf = s.obuf := rfl
@[simp] theorem State.issue_err (s : State) (c : Command) : (s.issue c).err = s.err := rfl
@[simp] theorem State.issue_cmds (s : State) (c : Command) : (s.issue c).cmds = s.cmds ++ [c] := rfl
@[simp] theorem State.issue_resp (s : State) (c : Command) : (s.issue c).resp = s.resp := rfl
@[simp] theorem State.issue_reg (s : State) (c : Command) (r : Reg) : (s.issue c).reg r = s.reg r := rfl

@[simp] theorem State.withNext_cfg (s : State) (c : Command) : (s.withNext c).cfg = s.cfg := rfl
@[simp] theorem State.withNext_bf (s : State) (c : Command) : (s.withNext c).bf = s.bf := rfl
@[simp] theorem State.withNext_q (s : State) (c : Command) : (s.withNext c).q = s.q := rfl
@[simp] theorem State.withNext_ibuf (s : State) (c : Command) : (s.withNext c).ibuf = s.ibuf := rfl
@[simp] theorem State.withNext_obuf (s : State) (c : Command) : (s.withNext c).obuf = s.obuf := rfl
@[simp] theorem State.withNext_err (s : State) (c : Command) : (s.withNext c).err = s.err := rfl
@[simp] theorem State.withNext_cmds (s : State) (c : Command) : (s.withNext c).cmds = c :: s.cmds.tail := rfl
@[simp] theorem State.withNext_resp (s : State) (c : Command) : (s.withNext c).resp = s.resp := rfl
@[simp] theorem State.withNext_reg (s : State) (c : Command) (r : Reg) : (s.withNext c).reg r = s.reg r := rfl

@[simp] theorem State.enterFault_cfg (s : State) (k : FaultKind) : (s.enterFault k).cfg = s.cfg := rfl
@[simp] theorem State.enterFault_bf (s : State) (k : FaultKind) : (s.enterFault k).bf = s.bf := rfl
@[simp] theorem State.enterFault_q (s : State) (k : FaultKind) : (s.enterFault k).q = s.q := rfl
@[simp] theorem State.enterFault_ibuf (s : State) (k : FaultKind) : (s.enterFault k).ibuf = s.ibuf := rfl
@[simp] theorem State.enterFault_obuf (s : State) (k : FaultKind) : (s.enterFault k).obuf = s.obuf := rfl
@[simp] theorem State.enterFault_err (s : State) (k : FaultKind) : (s.enterFault k).err = if s.err = 0#8 then k.code else s.err := rfl
@[simp] theorem State.enterFault_cmds (s : State) (k : FaultKind) : (s.enterFault k).cmds = s.cmds := rfl
@[simp] theorem State.enterFault_resp (s : State) (k : FaultKind) : (s.enterFault k).resp = some ⟨k.code, 0#64, 0#64⟩ := rfl
@[simp] theorem State.enterFault_reg (s : State) (k : FaultKind) (r : Reg) : (s.enterFault k).reg r = s.reg r := rfl

/-- Reading the register just written (R16). -/
@[simp] theorem State.setReg_reg_same (s : State) (r : Reg) (x : BitSeq) :
    (s.setReg r x).reg r = some x := by
  simp [State.reg, State.setReg]

/-- A write to one register leaves every other as it was (R36). -/
theorem State.setReg_reg_ne (s : State) (r r' : Reg) (x : BitSeq) (h : r' ≠ r) :
    (s.setReg r x).reg r' = s.reg r' := by
  have h' : (r : Nat) ≠ r' := fun e => h (Fin.ext e.symm)
  simp [State.reg, State.setReg, Vector.getElem_set_ne, h']

/-- Reading any register after a write. -/
theorem State.setReg_reg (s : State) (r r' : Reg) (x : BitSeq) :
    (s.setReg r x).reg r' = if r' = r then some x else s.reg r' := by
  split
  · next h => rw [h, State.setReg_reg_same]
  · next h => exact State.setReg_reg_ne s r r' x h

@[simp] theorem State.resetWith_reg (p : Params) (r : Reg) : (State.resetWith p).reg r = none := by
  simp [State.reg, State.resetWith]

end Sys2Proof.Machine
end

