-- ==== Sys2Proof/Laws/Ops.lean ====
section
/-! SUPPORT. What the shared operations of a command can do, said once each: run, the checks, capacities, taking a command. -/
namespace Sys2Proof.Machine

/-! ## Running a command -/

@[simp] theorem run_ok (s : State) (r : Result) : run s (.ok r) = .next (r.state.answer r.r0 r.r1) := rfl

@[simp] theorem run_error (s : State) (k : FaultKind) : run s (.error k) = .next (s.enterFault k) := rfl

/-- A command either completes with its result or enters its fault on the unchanged state. -/
theorem run_next_iff (s : State) (body : Except FaultKind Result) (t : State) :
    run s body = .next t ↔
      (∃ r, body = .ok r ∧ t = r.state.answer r.r0 r.r1) ∨
        ∃ k, body = .error k ∧ t = s.enterFault k := by
  cases body <;> simp [run, eq_comm]

/-- A command always answers with a next state. -/
theorem run_answers (s : State) (body : Except FaultKind Result) : ∃ t, run s body = .next t := by
  cases body <;> simp [run]

/-! ## Sequences of checks -/

@[simp] theorem ok_bind {α β : Type} (a : α) (f : α → Except FaultKind β) :
    (Except.ok a >>= f) = f a := rfl

@[simp] theorem error_bind {α β : Type} (k : FaultKind) (f : α → Except FaultKind β) :
    (Except.error k >>= f) = Except.error k := rfl

/-- A sequence completes exactly when its first part does and the rest completes on its value. -/
theorem bind_eq_ok_iff {α β : Type} (x : Except FaultKind α) (f : α → Except FaultKind β) (b : β) :
    (x >>= f) = .ok b ↔ ∃ a, x = .ok a ∧ f a = .ok b := by
  cases x <;> simp

/-- A sequence raises a fault exactly when its first part does, or the rest does on its value. -/
theorem bind_eq_error_iff {α β : Type} (x : Except FaultKind α) (f : α → Except FaultKind β)
    (k : FaultKind) :
    (x >>= f) = .error k ↔ x = .error k ∨ ∃ a, x = .ok a ∧ f a = .error k := by
  cases x <;> simp

@[simp] theorem done_eq_ok (s : State) (r : Result) : done s = .ok r ↔ r = ⟨s, 0#64, 0#64⟩ := by
  simp [done, eq_comm]

@[simp] theorem done_ne_error (s : State) (k : FaultKind) : done s ≠ .error k := by simp [done]

@[simp] theorem returning_eq_ok (s : State) (r0 r1 : Word64) (r : Result) :
    returning s r0 r1 = .ok r ↔ r = ⟨s, r0, r1⟩ := by simp [returning, eq_comm]

@[simp] theorem returning_ne_error (s : State) (r0 r1 : Word64) (k : FaultKind) :
    returning s r0 r1 ≠ .error k := by simp [returning]

/-! ## The checks -/

theorem raiseIf_eq_ok (p : Prop) [Decidable p] (k : FaultKind) (u : Unit) :
    raiseIf p k = .ok u ↔ ¬p := by
  unfold raiseIf; split <;> simp_all

theorem raiseIf_of_true (p : Prop) [Decidable p] (k : FaultKind) (h : p) : raiseIf p k = .error k := by
  simp [raiseIf, h]

theorem raiseIf_of_false (p : Prop) [Decidable p] (k : FaultKind) (h : ¬p) : raiseIf p k = .ok () := by
  simp [raiseIf, h]

@[simp] theorem need_some (s : State) (r : Reg) (x : BitSeq) (h : s.reg r = some x) :
    need s r = .ok x := by simp [need, h]

@[simp] theorem need_none (s : State) (r : Reg) (h : s.reg r = none) :
    need s r = .error .nullArgument := by simp [need, h]

theorem need_eq_ok (s : State) (r : Reg) (x : BitSeq) : need s r = .ok x ↔ s.reg r = some x := by
  unfold need; split <;> simp_all

@[simp] theorem needInput_some (s : State) (m : Memory) (h : s.ibuf = some m) :
    needInput s = .ok m := by simp [needInput, h]

@[simp] theorem needInput_none (s : State) (h : s.ibuf = none) :
    needInput s = .error .nullArgument := by simp [needInput, h]

theorem needInput_eq_ok (s : State) (m : Memory) : needInput s = .ok m ↔ s.ibuf = some m := by
  unfold needInput; split <;> simp_all

theorem indexBelow_eq_ok (i : Int) (n k : Nat) : indexBelow i n = .ok k ↔ i = k ∧ k < n := by
  unfold indexBelow; split
  · simp; omega
  · simp; omega

theorem indexBelow_of_lt (k n : Nat) (h : k < n) : indexBelow (k : Int) n = .ok k := by
  simp [indexBelow_eq_ok, h]

theorem indexBelow_of_outside (i : Int) (n : Nat) (h : i < 0 ∨ i ≥ n) :
    indexBelow i n = .error .outOfRange := by simp [indexBelow, h]

theorem countArg_eq_ok (n : Int) (k : Nat) : countArg n = .ok k ↔ n = k := by
  unfold countArg; split
  · simp; omega
  · simp; omega

theorem countArg_of_neg (n : Int) (h : n < 0) : countArg n = .error .invalidArgument := by
  simp [countArg, h]

theorem countArg_of_nonneg (n : Int) (h : 0 ≤ n) : countArg n = .ok n.toNat := by
  simp [countArg, Int.not_lt.mpr h]

/-- A length below 2^64 is its own result word (R59). -/
theorem lengthWord_toNat (n : Nat) (h : n < 2 ^ 64) : (lengthWord n).toNat = n := by
  simp only [lengthWord, if_pos h, BitVec.toNat_ofNat]
  exact Nat.mod_eq_of_lt h

theorem nonEmpty_of_nil (x : BitSeq) (h : x.bits = []) : nonEmpty x = .error .invalidArgument := by
  simp [nonEmpty, raiseIf, BitSeq.count, h]

theorem nonEmpty_of_ne (x : BitSeq) (h : x.bits ≠ []) : nonEmpty x = .ok () := by
  simp [nonEmpty, raiseIf, BitSeq.count, h]

/-! ## Capacities (R6) -/

/-- The machine's capacity test is the bound of R6. -/
theorem admits_iff_within (c : Cap) (n : Nat) : admits c n = true ↔ Within c n := by
  cases c <;> simp [admits, Within]

theorem admits_eq_false_iff_exceeds (c : Cap) (n : Nat) : admits c n = false ↔ Exceeds c n := by
  cases c <;> simp [admits, Exceeds]

theorem Within.of_le {m n : Nat} (h : n ≤ m) : Within (some m) n := by
  intro k hk; cases hk; exact h

theorem Exceeds.of_lt {m n : Nat} (h : m < n) : Exceeds (some m) n := ⟨m, rfl, h⟩

/-- What fits, fits when shorter. -/
theorem Within.mono {c : Cap} {m n : Nat} (h : Within c m) (hn : n ≤ m) : Within c n :=
  fun k hk => hn.trans (h k hk)

theorem fits_of_within (s : State) (n : Nat) (h : Within s.cfg.maxBits n) : fits s n = .ok () := by
  simp [fits, raiseIf, (admits_iff_within _ _).mpr h]

theorem fits_of_exceeds (s : State) (n : Nat) (h : Exceeds s.cfg.maxBits n) :
    fits s n = .error .capacityExceeded := by
  simp [fits, raiseIf, (admits_eq_false_iff_exceeds _ _).mpr h]

theorem fits_eq_ok (s : State) (n : Nat) (u : Unit) : fits s n = .ok u ↔ Within s.cfg.maxBits n := by
  simp [fits, raiseIf_eq_ok, admits_iff_within]

theorem fitsBuffer_of_within (s : State) (n : Nat) (h : Within s.cfg.bufCap n) :
    fitsBuffer s n = .ok () := by
  simp [fitsBuffer, raiseIf, (admits_iff_within _ _).mpr h]

theorem fitsBuffer_of_exceeds (s : State) (n : Nat) (h : Exceeds s.cfg.bufCap n) :
    fitsBuffer s n = .error .capacityExceeded := by
  simp [fitsBuffer, raiseIf, (admits_eq_false_iff_exceeds _ _).mpr h]

theorem fitsBuffer_eq_ok (s : State) (n : Nat) (u : Unit) :
    fitsBuffer s n = .ok u ↔ Within s.cfg.bufCap n := by
  simp [fitsBuffer, raiseIf_eq_ok, admits_iff_within]

/-! ## Taking the next command -/

theorem fetch_cons (s : State) (c : Command) (rest : List Command) (h : s.cmds = c :: rest) :
    fetch s = some (c, { s with cmds := rest }) := by simp [fetch, h]

theorem fetch_nil (s : State) (h : s.cmds = []) : fetch s = none := by simp [fetch, h]

/-- A command issued to a waiting block is the next to run. -/
theorem fetch_issue_of_nil (s : State) (c : Command) (h : s.cmds = []) :
    fetch (s.issue c) = some (c, s) := by
  cases s; cases h; rfl

/-- A command issued behind others leaves the oldest the next to run (R25). -/
theorem fetch_issue_of_cons (s : State) (c d : Command) (rest : List Command) (h : s.cmds = d :: rest) :
    fetch (s.issue c) = some (d, { s with cmds := rest ++ [c] }) := by
  simp [fetch, State.issue, h]

@[simp] theorem fetch_withNext (s : State) (c : Command) :
    fetch (s.withNext c) = some (c, { s with cmds := s.cmds.tail }) := rfl

/-! ## The queue (R162) -/

theorem dequeue_eq_none_iff {α : Type} (q : List (Entry α)) : dequeue q = none ↔ q = [] := by
  cases q with
  | nil => simp [dequeue]
  | cons e q =>
    simp only [dequeue]
    split
    · simp
    · split <;> simp

/-- Everything a dequeue can do (R162): it takes out the earliest entry of least weight. -/
theorem dequeue_spec {α : Type} (q : List (Entry α)) (e : Entry α) (rest : List (Entry α))
    (h : dequeue q = some (e, rest)) :
    ∃ before after, q = before ++ e :: after ∧ rest = before ++ after ∧
      (∀ x ∈ before, e.weight < x.weight) ∧ ∀ x ∈ after, e.weight ≤ x.weight := by
  induction q generalizing e rest with
  | nil => simp [dequeue] at h
  | cons d q ih =>
    simp only [dequeue] at h
    split at h
    · next hn =>
      obtain ⟨rfl, rfl⟩ := by simpa using h
      obtain rfl := (dequeue_eq_none_iff q).mp hn
      exact ⟨[], [], by simp⟩
    · next m r hm =>
      obtain ⟨b, a, rfl, rfl, hb, ha⟩ := ih m r hm
      split at h
      · next hle =>
        obtain ⟨rfl, rfl⟩ := by simpa using h
        refine ⟨[], b ++ m :: a, rfl, rfl, by simp, ?_⟩
        intro x hx
        rcases List.mem_append.mp hx with hx | hx
        · exact (le_of_lt (lt_of_le_of_lt hle (hb x hx)))
        · rcases List.mem_cons.mp hx with rfl | hx
          · exact hle
          · exact hle.trans (ha x hx)
      · next hle =>
        obtain ⟨rfl, rfl⟩ := by simpa using h
        refine ⟨d :: b, a, rfl, rfl, ?_, ha⟩
        intro x hx
        rcases List.mem_cons.mp hx with rfl | hx
        · exact lt_of_not_ge hle
        · exact hb x hx

/-- A dequeue takes one entry out. -/
theorem dequeue_length {α : Type} (q : List (Entry α)) (e : Entry α) (rest : List (Entry α))
    (h : dequeue q = some (e, rest)) : q.length = rest.length + 1 := by
  obtain ⟨b, a, rfl, rfl, -⟩ := dequeue_spec q e rest h
  simp; omega

end Sys2Proof.Machine
end

