-- ==== Sys2Proof/Laws/Memory.lean ====
section
/-! SUPPORT. The byte arrays: a read after a write, and that every command's array is within BUF_CAP (R28, R30). -/
namespace Sys2Proof.Machine

theorem Memory.wf_iff_within (c : Cap) (m : Memory) : Memory.wf c m = true ↔ Within c m.length :=
  admits_iff_within c m.length

/-! ## Reads and writes -/

/-- The byte just appended is the last one (R211). -/
theorem Memory.read_push_last (m : Memory) (v : Byte) : (m.push v).read m.length = some v := by
  simp [Memory.read, Memory.push]

/-- Appending leaves every byte there was (R211). -/
theorem Memory.read_push_of_lt (m : Memory) (v : Byte) (a : Nat) (h : a < m.length) :
    (m.push v).read a = m.read a := by
  simp [Memory.read, Memory.push, List.getElem?_append, h]

/-- No byte exists at or beyond the length (R30). -/
theorem Memory.read_of_ge (m : Memory) (a : Nat) (h : m.length ≤ a) : m.read a = none := by
  simp [Memory.read, h]

/-! ## The bound of every array -/

theorem Memory.wf_nil (c : Cap) : Memory.wf c [] = true :=
  (Memory.wf_iff_within c []).mpr fun _ _ => Nat.zero_le _

/-- IBPUSH's check is what the appended array needs (R211). -/
theorem Memory.push_wf (s : State) (m : Memory) (v : Byte) (u : Unit)
    (h : fitsBuffer s (m.length + 1) = .ok u) : Memory.wf s.cfg.bufCap (m.push v) = true := by
  rw [Memory.wf_iff_within]
  simpa [Memory.push] using (fitsBuffer_eq_ok s _ u).mp h

/-- TOBYTEARRAY's check is what the bytes it writes need (R110). -/
theorem bytesOf_wf (s : State) (bits : List Bool) (t : Tag) (u : Unit)
    (h : fitsBuffer s (bits.length / 8) = .ok u) : Memory.wf s.cfg.bufCap (bytesOf bits t) = true := by
  rw [Memory.wf_iff_within, bytesOf_length]
  exact (fitsBuffer_eq_ok s _ u).mp h

/-- The check of COMPRESS and DECOMPRESS is what the array they write needs (R170, R190). -/
theorem Memory.wf_of_fitsBuffer (s : State) (m : Memory) (u : Unit)
    (h : fitsBuffer s m.length = .ok u) : Memory.wf s.cfg.bufCap m = true :=
  (Memory.wf_iff_within _ m).mpr ((fitsBuffer_eq_ok s _ u).mp h)

/-- OBTOIB copies an array that is within the bound already (R214). -/
theorem setInput_obuf_wf (s : State) (h : Memory.wf s.cfg.bufCap s.obuf = true) :
    Memory.wf (s.setInput s.obuf).cfg.bufCap (s.setInput s.obuf).input = true := h

/-- Both arrays are empty after reset (R34). -/
theorem resetWith_wf (p : Params) :
    Memory.wf p.bufCap (State.resetWith p).input = true ∧
      Memory.wf p.bufCap (State.resetWith p).obuf = true :=
  ⟨Memory.wf_nil _, Memory.wf_nil _⟩

end Sys2Proof.Machine
end

