-- ==== Sys2Proof/Laws/Codec.lean ====
section
/-! SUPPORT. The codec's parts: packing and unpacking, the tree's serialization, its codes, and what the decoder does with each. -/
namespace Sys2Proof.Machine

/-! ## Packing (R14) -/

theorem valMsb_bitsMsb (v : Byte) : BitVec.ofNat 8 (valMsb (bitsMsb v)) = v := by
  have h : ∀ v : BitVec 8, BitVec.ofNat 8 (valMsb (bitsMsb v)) = v := by decide
  exact h v

theorem bitsMsb_valMsb (b0 b1 b2 b3 b4 b5 b6 b7 : Bool) :
    bitsMsb (BitVec.ofNat 8 (valMsb [b0, b1, b2, b3, b4, b5, b6, b7])) =
      [b0, b1, b2, b3, b4, b5, b6, b7] := by
  revert b0 b1 b2 b3 b4 b5 b6 b7; decide

theorem packMsb_bitsMsb_append (v : Byte) (s : List Bool) :
    packMsb (bitsMsb v ++ s) = v :: packMsb s := by
  have hl : (bitsMsb v).length = 8 := bitsMsb_length v
  have hv := valMsb_bitsMsb v
  generalize bitsMsb v = l at *
  match l, hl with
  | [b0, b1, b2, b3, b4, b5, b6, b7], _ =>
    simp only [List.cons_append, List.nil_append, packMsb, hv]

theorem packMsb_unpackMsb (m : Memory) : packMsb (unpackMsb m) = m := by
  induction m with
  | nil => rfl
  | cons v m ih =>
    show packMsb (bitsMsb v ++ unpackMsb m) = _
    rw [packMsb_bitsMsb_append, ih]

theorem unpackMsb_packMsb (s : List Bool) (h : s.length % 8 = 0) : unpackMsb (packMsb s) = s := by
  fun_induction packMsb s with
  | case1 b0 b1 b2 b3 b4 b5 b6 b7 s ih =>
    have h' : s.length % 8 = 0 := by simp only [List.length_cons] at h; omega
    show bitsMsb _ ++ unpackMsb _ = _
    rw [ih h', bitsMsb_valMsb]; rfl
  | case2 s hs =>
    match s, hs with
    | [], _ => rfl
    | [_], _ | [_, _], _ | [_, _, _], _ | [_, _, _, _], _ | [_, _, _, _, _], _
    | [_, _, _, _, _, _], _ | [_, _, _, _, _, _, _], _ => simp at h
    | b0 :: b1 :: b2 :: b3 :: b4 :: b5 :: b6 :: b7 :: s, hs =>
      exact (hs b0 b1 b2 b3 b4 b5 b6 b7 s rfl).elim

/-! ## The tree, its serialization and its codes (R72, R175) -/

theorem leaves_length_pos (t : Tree) : 1 ≤ (leaves t).length := by
  induction t with
  | leaf v => simp [leaves]
  | node l r w ihl ihr => simp [leaves]; omega

/-- A tree with k leaves serializes to 10k - 1 bits (R72). -/
theorem serialize_length (t : Tree) : (serialize t).length + 1 = 10 * (leaves t).length := by
  induction t with
  | leaf v => simp [serialize, leaves]
  | node l r w ihl ihr => simp [serialize, leaves]; omega

/-- The codes are those of the leaves, left to right. -/
theorem codes_map_fst (t : Tree) (p : List Bool) : (codes t p).map Prod.fst = leaves t := by
  induction t generalizing p with
  | leaf v => rfl
  | node l r w ihl ihr => simp [codes, leaves, ihl, ihr]

/-- The path behind `p` is `p` and then the path from here. -/
theorem codes_prefix (t : Tree) (p : List Bool) :
    codes t p = (codes t []).map fun x => (x.1, p ++ x.2) := by
  induction t generalizing p with
  | leaf v => simp [codes]
  | node l r w ihl ihr =>
    simp only [codes, List.nil_append]
    rw [ihl (p ++ [false]), ihr (p ++ [true]), ihl [false], ihr [true]]
    simp [Function.comp_def]

/-- A node's codes are its children's behind a 0 and a 1 (R175). -/
theorem codes_node (l r : Tree) (w : Int) :
    codes (.node l r w) [] = (codes l []).map (fun x => (x.1, false :: x.2)) ++
      (codes r []).map fun x => (x.1, true :: x.2) := by
  show codes l ([] ++ [false]) ++ codes r ([] ++ [true]) = _
  rw [codes_prefix l, codes_prefix r]; rfl

/-! ## The format's own words for these (R14, R72, R175), equal to the machine's functions -/

theorem msbFirst_eq_bitsMsb (v : Byte) : msbFirst v = bitsMsb v := by
  simp [msbFirst, bitsMsb, List.range_succ, BitVec.getMsbD]

theorem bufferBits_eq_unpackMsb (m : Memory) : bufferBits m = unpackMsb m := by
  induction m with
  | nil => rfl
  | cons v m ih => simp [bufferBits, unpackMsb, msbFirst_eq_bitsMsb, ih]

theorem treeBits_eq_serialize (t : Tree) : treeBits t = serialize t := by
  induction t with
  | leaf v => simp [treeBits, serialize, msbFirst_eq_bitsMsb]
  | node l r w ihl ihr => simp [treeBits, serialize, ihl, ihr]

/-- A path leads to a symbol exactly when the tree's codes pair the two. -/
theorem symbolAt_eq_some_iff (t : Tree) (p : List Bool) (v : Byte) :
    symbolAt t p = some v ↔ (v, p) ∈ codes t [] := by
  induction t generalizing p with
  | leaf u => cases p <;> simp [symbolAt, codes, eq_comm]
  | node l r w ihl ihr =>
    rw [codes_node]
    match p with
    | [] => simp [symbolAt]
    | false :: p => simp [symbolAt, ihl]
    | true :: p => simp [symbolAt, ihr]

/-! ## Building the tree (R172, R173) -/

/-- What a dequeue takes is the earliest entry of least weight (R162). -/
theorem takesLeast_of_dequeue {α : Type} {q rest : List (Entry α)} {e : Entry α}
    (h : dequeue q = some (e, rest)) : TakesLeast q e rest := by
  obtain ⟨before, after, h1, h2, h3, h4⟩ := dequeue_spec _ _ _ h
  exact ⟨before, after, h1, h2, h3, h4⟩

/-- The combine loop follows R173, as long as its fuel is the number of entries. -/
theorem combinesTo_of_combineLoop (n : Nat) (q : List (Entry Tree)) (hn : q.length = n) (root : Tree)
    (h : combineLoop n q = some root) : CombinesTo q root := by
  induction n generalizing q with
  | zero => cases h
  | succ n ih =>
    unfold combineLoop at h
    cases h1 : dequeue q with
    | none => simp [h1] at h
    | some a =>
      obtain ⟨x, q1⟩ := a
      have l1 := dequeue_length _ _ _ h1
      cases h2 : dequeue q1 with
      | none =>
        obtain rfl := (dequeue_eq_none_iff _).mp h2
        obtain ⟨before, after, hq, hr, -⟩ := dequeue_spec _ _ _ h1
        obtain ⟨rfl, rfl⟩ := List.append_eq_nil_iff.mp hr.symm
        simp only [h1, h2, Option.some.injEq] at h
        subst hq h
        exact .root x
      | some a =>
        obtain ⟨y, q2⟩ := a
        have l2 := dequeue_length _ _ _ h2
        simp only [h1, h2] at h
        exact .combine q q1 q2 x y root (takesLeast_of_dequeue h1) (takesLeast_of_dequeue h2)
          (ih _ (by simp; omega) h)

/-! ## The decoder on a serialized tree and on a path (R194, R195) -/

/-- The tree a parse gives: the weights are not in the buffer (R194). -/
def Tree.unweighted : Tree → Tree
  | .leaf v => .leaf v
  | .node l r _ => .node l.unweighted r.unweighted 0

theorem admits_mono {c : Cap} {m n : Nat} (h : admits c m = true) (hn : n ≤ m) : admits c n = true :=
  (admits_iff_within c n).mpr (((admits_iff_within c m).mp h).mono hn)

/-- Parsing a serialized tree gives the tree and the bits behind it (R194), when its nodes fit. -/
theorem parseTree_serialize (cap : Cap) (t : Tree) (fuel n : Nat) (rest : List Bool)
    (hf : (serialize t).length ≤ fuel) (hn : admits cap (n + (2 * (leaves t).length - 1)) = true) :
    parseTree cap fuel n (serialize t ++ rest) =
      .ok (t.unweighted, n + (2 * (leaves t).length - 1), rest) := by
  induction t generalizing fuel n rest with
  | leaf v =>
    cases fuel with
    | zero => simp [serialize] at hf
    | succ fuel =>
      have h1 : (bitsMsb v ++ rest).take 8 = bitsMsb v := by
        rw [List.take_append_of_le_length (by simp)]; exact List.take_of_length_le (by simp)
      have h2 : (bitsMsb v ++ rest).drop 8 = rest := by
        rw [List.drop_append_of_le_length (by simp)]; simp
      simp only [leaves, List.length_singleton] at hn
      simp [serialize, parseTree, h1, h2, hn, valMsb_bitsMsb, Tree.unweighted, leaves]
  | node l r w ihl ihr =>
    have hl := leaves_length_pos l
    have hr := leaves_length_pos r
    cases fuel with
    | zero => simp [serialize] at hf
    | succ fuel =>
      simp only [serialize, List.cons_append, List.append_assoc, parseTree, List.length_cons,
        List.length_append, leaves] at *
      rw [if_pos (admits_mono hn (by omega)), ihl fuel (n + 1) _ (by omega) (admits_mono hn (by omega))]
      simp only
      rw [ihr fuel _ _ (by omega) (admits_mono hn (by omega))]
      simp only [Tree.unweighted]
      congr 3; omega

end Sys2Proof.Machine
end

