-- ==== Sys2Proof/Laws/Encoding.lean ====
section
/-! SUPPORT. The bits of an encoded header and of the table's mask (R57, R61), and the fields read back from an encoded record. -/
namespace Sys2Proof

/-- Every bit of an encoded header, by field (R57). -/
theorem Header.ofFields_getLsbD (op : BitVec 8) (rd rs1 rs2 : Reg) (e : Tag) (b : Bool) (i : Nat) :
    (Header.ofFields op rd rs1 rs2 e b).getLsbD i =
      if i < 8 then op.getLsbD i
      else if i - 8 < 4 then (BitVec.ofFin rd : BitVec 4).getLsbD (i - 8)
      else if i - 12 < 4 then (BitVec.ofFin rs1 : BitVec 4).getLsbD (i - 12)
      else if i - 16 < 4 then (BitVec.ofFin rs2 : BitVec 4).getLsbD (i - 16)
      else if i - 20 < 1 then (BitVec.ofBool e.toBit).getLsbD (i - 20)
      else if i - 21 < 1 then (BitVec.ofBool b).getLsbD (i - 21)
      else false := by
  unfold Header.ofFields
  show BitVec.getLsbD (w := 10 + 1 + 1 + 4 + 4 + 4 + 8) _ i = _
  simp only [BitVec.getLsbD_append, Nat.sub_sub, BitVec.getLsbD_zero]

/-- The bits of the mask: the opcode's and the reserved ones (R61). -/
theorem tableMask_getLsbD (i : Nat) :
    tableMask.getLsbD i = (decide (i < 8) || decide (22 ≤ i) && decide (i < 32)) := by
  by_cases h : i < 32
  · have : ∀ j < 32, tableMask.getLsbD j = (decide (j < 8) || decide (22 ≤ j) && decide (j < 32)) := by
      decide
    exact this i h
  · have h8 : ¬ i < 8 := by omega
    rw [BitVec.getLsbD_of_ge _ _ (by omega)]
    simp [h, h8]

/-- The mask keeps the opcode and clears every field (R57, R61). -/
theorem Header.ofFields_masked (op : BitVec 8) (rd rs1 rs2 : Reg) (e : Tag) (b : Bool) :
    Header.ofFields op rd rs1 rs2 e b &&& tableMask = op.setWidth 32 := by
  apply BitVec.eq_of_getLsbD_eq
  intro i hi
  rw [BitVec.getLsbD_and, Header.ofFields_getLsbD, tableMask_getLsbD, BitVec.getLsbD_setWidth]
  by_cases h8 : i < 8
  · simp [h8, hi]
  · rw [BitVec.getLsbD_of_ge op i (by omega)]
    by_cases h22 : 22 ≤ i
    · have h1 : ¬ i - 8 < 4 := by omega
      have h2 : ¬ i - 12 < 4 := by omega
      have h3 : ¬ i - 16 < 4 := by omega
      have h4 : ¬ i - 20 < 1 := by omega
      have h5 : ¬ i - 21 < 1 := by omega
      simp only [h8, h1, h2, h3, h4, h5, if_false, Bool.false_and, Bool.and_false]
    · simp [h8, h22]

/-! ## Fields read back from an encoded record -/

theorem Tag.ofBit_toBit (e : Tag) : Tag.ofBit e.toBit = e := by cases e <;> rfl

theorem Tag.toBit_ofBit (b : Bool) : (Tag.ofBit b).toBit = b := by cases b <;> rfl

section
variable (op : BitVec 8) (rd rs1 rs2 : Reg) (e : Tag) (b : Bool) (a0 a1 : Int)

theorem Command.ofFields_masked :
    (Command.ofFields op rd rs1 rs2 e b a0 a1).hdr &&& tableMask = op.setWidth 32 :=
  Header.ofFields_masked ..

theorem Command.ofFields_rd : (Command.ofFields op rd rs1 rs2 e b a0 a1).rd = rd := by
  have h : (Header.ofFields op rd rs1 rs2 e b).extractLsb' 8 4 = BitVec.ofFin rd := by
    apply BitVec.eq_of_getLsbD_eq
    intro i hi
    rw [BitVec.getLsbD_extractLsb', Header.ofFields_getLsbD]
    have h1 : ¬ 8 + i < 8 := by omega
    simp [hi, h1]
  simp [Command.rd, Command.ofFields, h]

theorem Command.ofFields_rs1 : (Command.ofFields op rd rs1 rs2 e b a0 a1).rs1 = rs1 := by
  have h : (Header.ofFields op rd rs1 rs2 e b).extractLsb' 12 4 = BitVec.ofFin rs1 := by
    apply BitVec.eq_of_getLsbD_eq
    intro i hi
    rw [BitVec.getLsbD_extractLsb', Header.ofFields_getLsbD]
    have h1 : ¬ 12 + i < 8 := by omega
    have h2 : ¬ 12 + i - 8 < 4 := by omega
    simp [hi, h1, h2]
  simp [Command.rs1, Command.ofFields, h]

theorem Command.ofFields_rs2 : (Command.ofFields op rd rs1 rs2 e b a0 a1).rs2 = rs2 := by
  have h : (Header.ofFields op rd rs1 rs2 e b).extractLsb' 16 4 = BitVec.ofFin rs2 := by
    apply BitVec.eq_of_getLsbD_eq
    intro i hi
    rw [BitVec.getLsbD_extractLsb', Header.ofFields_getLsbD]
    have h1 : ¬ 16 + i < 8 := by omega
    have h2 : ¬ 16 + i - 8 < 4 := by omega
    have h3 : ¬ 16 + i - 12 < 4 := by omega
    simp [hi, h1, h2, h3]
  simp [Command.rs2, Command.ofFields, h]

theorem Command.ofFields_tag : (Command.ofFields op rd rs1 rs2 e b a0 a1).tag = e := by
  have h : (Header.ofFields op rd rs1 rs2 e b).getLsbD 20 = e.toBit := by
    rw [Header.ofFields_getLsbD]; simp
  unfold Command.tag Command.ofFields
  rw [h, Tag.ofBit_toBit]

theorem Command.ofFields_bit : (Command.ofFields op rd rs1 rs2 e b a0 a1).bit = b := by
  have h : (Header.ofFields op rd rs1 rs2 e b).getLsbD 21 = b := by
    rw [Header.ofFields_getLsbD]; simp
  unfold Command.bit Command.ofFields
  rw [h]

/-- A signed argument in range is read back as it was given (R58). -/
theorem Command.ofFields_signedArg0 (h : signed64 a0 = true) :
    (Command.ofFields op rd rs1 rs2 e b a0 a1).signedArg0 = a0 := by
  simp only [signed64, Bool.and_eq_true, decide_eq_true_eq] at h
  simp only [Command.signedArg0, Command.ofFields, BitVec.toInt_ofInt]
  rw [Int.bmod_eq_of_le] <;> omega

theorem Command.ofFields_signedArg1 (h : signed64 a1 = true) :
    (Command.ofFields op rd rs1 rs2 e b a0 a1).signedArg1 = a1 := by
  simp only [signed64, Bool.and_eq_true, decide_eq_true_eq] at h
  simp only [Command.signedArg1, Command.ofFields, BitVec.toInt_ofInt]
  rw [Int.bmod_eq_of_le] <;> omega

theorem Command.ofFields_unsignedArg0 (h : unsigned64 a0 = true) :
    (Command.ofFields op rd rs1 rs2 e b a0 a1).unsignedArg0 = a0 := by
  simp only [unsigned64, Bool.and_eq_true, decide_eq_true_eq] at h
  simp only [Command.unsignedArg0, Command.ofFields, BitVec.toNat_ofInt]
  omega

end

end Sys2Proof
end

