-- ==== Sys2Proof/Laws/PerInstr.lean ====
section
/-! SUPPORT. The family MaskedHeader: the encoded header of every command, under the table's mask, is the `match` value of its
row of spec/opcode_table.json (R61, R62), so the reserved bits are 0 and the opcode is the row's. -/
namespace Sys2Proof

namespace Laws.MaskedHeader

/-- The `match` value of the row a constructor stands for (R61, R62). -/
def matchOf : Instr → Header
  | .construct _ _ _ => 0x00000001#32
  | .constructA _ _ => 0x00000002#32
  | .copy _ _ => 0x00000003#32
  | .get _ _ => 0x00000004#32
  | .set _ _ _ => 0x00000005#32
  | .add _ _ => 0x00000006#32
  | .flip _ _ => 0x00000007#32
  | .reverse _ => 0x00000008#32
  | .insert _ _ _ => 0x00000009#32
  | .remove _ _ => 0x0000000A#32
  | .append _ _ => 0x0000000B#32
  | .count _ => 0x0000000C#32
  | .endian _ => 0x0000000D#32
  | .pad _ _ _ => 0x00000010#32
  | .padToByte _ => 0x00000011#32
  | .trimStart _ _ => 0x00000012#32
  | .trimEnd _ _ => 0x00000013#32
  | .trimEndian _ _ => 0x00000014#32
  | .toByteArray _ _ _ => 0x00000020#32
  | .toByte _ _ => 0x00000021#32
  | .toSByte _ _ => 0x00000022#32
  | .toInt16 _ _ => 0x00000023#32
  | .toUInt16 _ _ => 0x00000024#32
  | .toInt32 _ _ => 0x00000025#32
  | .toUInt32 _ _ => 0x00000026#32
  | .toInt64 _ _ => 0x00000027#32
  | .toUInt64 _ _ => 0x00000028#32
  | .fromByteArray _ => 0x00000030#32
  | .fromByte _ _ => 0x00000031#32
  | .fromSByte _ _ => 0x00000032#32
  | .fromInt16 _ _ => 0x00000033#32
  | .fromUInt16 _ _ => 0x00000034#32
  | .fromInt32 _ _ => 0x00000035#32
  | .fromUInt32 _ _ => 0x00000036#32
  | .fromInt64 _ _ => 0x00000037#32
  | .fromUInt64 _ _ => 0x00000038#32
  | .and _ _ _ => 0x00000040#32
  | .or _ _ _ => 0x00000041#32
  | .xor _ _ _ => 0x00000042#32
  | .not _ _ => 0x00000043#32
  | .rol _ _ _ => 0x00000044#32
  | .ror _ _ _ => 0x00000045#32
  | .inc _ _ => 0x00000046#32
  | .dec _ _ => 0x00000047#32
  | .enqueue _ _ => 0x00000050#32
  | .dequeue => 0x00000051#32
  | .qcount => 0x00000052#32
  | .qclear => 0x00000053#32
  | .compress => 0x00000060#32
  | .decompress => 0x00000061#32
  | .ibclr => 0x00000070#32
  | .ibpush _ => 0x00000071#32
  | .obrd _ => 0x00000072#32
  | .olenr => 0x00000073#32
  | .obtoib => 0x00000074#32
  | .rderr => 0x00000075#32
  | .clrerr => 0x00000076#32

/-- The encoded header under the mask is the row's `match` value. -/
def Statement (i : Instr) : Prop := (encode i).hdr &&& tableMask = matchOf i

theorem construct (rd : Reg) (e : Tag) (n : Int) : Statement (.construct rd e n) :=
  Header.ofFields_masked _ _ _ _ _ _
theorem constructA (rd : Reg) (e : Tag) : Statement (.constructA rd e) :=
  Header.ofFields_masked _ _ _ _ _ _
theorem copy (rd : Reg) (rs1 : Reg) : Statement (.copy rd rs1) :=
  Header.ofFields_masked _ _ _ _ _ _
theorem get (rs1 : Reg) (i : Int) : Statement (.get rs1 i) :=
  Header.ofFields_masked _ _ _ _ _ _
theorem set (rd : Reg) (b : Bool) (i : Int) : Statement (.set rd b i) :=
  Header.ofFields_masked _ _ _ _ _ _
theorem add (rd : Reg) (b : Bool) : Statement (.add rd b) :=
  Header.ofFields_masked _ _ _ _ _ _
theorem flip (rd : Reg) (i : Int) : Statement (.flip rd i) :=
  Header.ofFields_masked _ _ _ _ _ _
theorem reverse (rd : Reg) : Statement (.reverse rd) :=
  Header.ofFields_masked _ _ _ _ _ _
theorem insert (rd : Reg) (b : Bool) (i : Int) : Statement (.insert rd b i) :=
  Header.ofFields_masked _ _ _ _ _ _
theorem remove (rd : Reg) (i : Int) : Statement (.remove rd i) :=
  Header.ofFields_masked _ _ _ _ _ _
theorem append (rd : Reg) (rs1 : Reg) : Statement (.append rd rs1) :=
  Header.ofFields_masked _ _ _ _ _ _
theorem count (rs1 : Reg) : Statement (.count rs1) :=
  Header.ofFields_masked _ _ _ _ _ _
theorem endian (rs1 : Reg) : Statement (.endian rs1) :=
  Header.ofFields_masked _ _ _ _ _ _
theorem pad (rd : Reg) (b : Bool) (n : Int) : Statement (.pad rd b n) :=
  Header.ofFields_masked _ _ _ _ _ _
theorem padToByte (rd : Reg) : Statement (.padToByte rd) :=
  Header.ofFields_masked _ _ _ _ _ _
theorem trimStart (rd : Reg) (b : Bool) : Statement (.trimStart rd b) :=
  Header.ofFields_masked _ _ _ _ _ _
theorem trimEnd (rd : Reg) (b : Bool) : Statement (.trimEnd rd b) :=
  Header.ofFields_masked _ _ _ _ _ _
theorem trimEndian (rd : Reg) (b : Bool) : Statement (.trimEndian rd b) :=
  Header.ofFields_masked _ _ _ _ _ _
theorem toByteArray (rs1 : Reg) (bitCount : Int) (offset : Int) : Statement (.toByteArray rs1 bitCount offset) :=
  Header.ofFields_masked _ _ _ _ _ _
theorem toByte (rs1 : Reg) (offset : Int) : Statement (.toByte rs1 offset) :=
  Header.ofFields_masked _ _ _ _ _ _
theorem toSByte (rs1 : Reg) (offset : Int) : Statement (.toSByte rs1 offset) :=
  Header.ofFields_masked _ _ _ _ _ _
theorem toInt16 (rs1 : Reg) (offset : Int) : Statement (.toInt16 rs1 offset) :=
  Header.ofFields_masked _ _ _ _ _ _
theorem toUInt16 (rs1 : Reg) (offset : Int) : Statement (.toUInt16 rs1 offset) :=
  Header.ofFields_masked _ _ _ _ _ _
theorem toInt32 (rs1 : Reg) (offset : Int) : Statement (.toInt32 rs1 offset) :=
  Header.ofFields_masked _ _ _ _ _ _
theorem toUInt32 (rs1 : Reg) (offset : Int) : Statement (.toUInt32 rs1 offset) :=
  Header.ofFields_masked _ _ _ _ _ _
theorem toInt64 (rs1 : Reg) (offset : Int) : Statement (.toInt64 rs1 offset) :=
  Header.ofFields_masked _ _ _ _ _ _
theorem toUInt64 (rs1 : Reg) (offset : Int) : Statement (.toUInt64 rs1 offset) :=
  Header.ofFields_masked _ _ _ _ _ _
theorem fromByteArray (rd : Reg) : Statement (.fromByteArray rd) :=
  Header.ofFields_masked _ _ _ _ _ _
theorem fromByte (rd : Reg) (value : Int) : Statement (.fromByte rd value) :=
  Header.ofFields_masked _ _ _ _ _ _
theorem fromSByte (rd : Reg) (value : Int) : Statement (.fromSByte rd value) :=
  Header.ofFields_masked _ _ _ _ _ _
theorem fromInt16 (rd : Reg) (value : Int) : Statement (.fromInt16 rd value) :=
  Header.ofFields_masked _ _ _ _ _ _
theorem fromUInt16 (rd : Reg) (value : Int) : Statement (.fromUInt16 rd value) :=
  Header.ofFields_masked _ _ _ _ _ _
theorem fromInt32 (rd : Reg) (value : Int) : Statement (.fromInt32 rd value) :=
  Header.ofFields_masked _ _ _ _ _ _
theorem fromUInt32 (rd : Reg) (value : Int) : Statement (.fromUInt32 rd value) :=
  Header.ofFields_masked _ _ _ _ _ _
theorem fromInt64 (rd : Reg) (value : Int) : Statement (.fromInt64 rd value) :=
  Header.ofFields_masked _ _ _ _ _ _
theorem fromUInt64 (rd : Reg) (value : Int) : Statement (.fromUInt64 rd value) :=
  Header.ofFields_masked _ _ _ _ _ _
theorem and (rd : Reg) (rs1 : Reg) (rs2 : Reg) : Statement (.and rd rs1 rs2) :=
  Header.ofFields_masked _ _ _ _ _ _
theorem or (rd : Reg) (rs1 : Reg) (rs2 : Reg) : Statement (.or rd rs1 rs2) :=
  Header.ofFields_masked _ _ _ _ _ _
theorem xor (rd : Reg) (rs1 : Reg) (rs2 : Reg) : Statement (.xor rd rs1 rs2) :=
  Header.ofFields_masked _ _ _ _ _ _
theorem not (rd : Reg) (rs1 : Reg) : Statement (.not rd rs1) :=
  Header.ofFields_masked _ _ _ _ _ _
theorem rol (rd : Reg) (rs1 : Reg) (n : Int) : Statement (.rol rd rs1 n) :=
  Header.ofFields_masked _ _ _ _ _ _
theorem ror (rd : Reg) (rs1 : Reg) (n : Int) : Statement (.ror rd rs1 n) :=
  Header.ofFields_masked _ _ _ _ _ _
theorem inc (rd : Reg) (rs1 : Reg) : Statement (.inc rd rs1) :=
  Header.ofFields_masked _ _ _ _ _ _
theorem dec (rd : Reg) (rs1 : Reg) : Statement (.dec rd rs1) :=
  Header.ofFields_masked _ _ _ _ _ _
theorem enqueue (item : Int) (weight : Int) : Statement (.enqueue item weight) :=
  Header.ofFields_masked _ _ _ _ _ _
theorem dequeue : Statement .dequeue :=
  Header.ofFields_masked _ _ _ _ _ _
theorem qcount : Statement .qcount :=
  Header.ofFields_masked _ _ _ _ _ _
theorem qclear : Statement .qclear :=
  Header.ofFields_masked _ _ _ _ _ _
theorem compress : Statement .compress :=
  Header.ofFields_masked _ _ _ _ _ _
theorem decompress : Statement .decompress :=
  Header.ofFields_masked _ _ _ _ _ _
theorem ibclr : Statement .ibclr :=
  Header.ofFields_masked _ _ _ _ _ _
theorem ibpush (byte : Int) : Statement (.ibpush byte) :=
  Header.ofFields_masked _ _ _ _ _ _
theorem obrd (i : Int) : Statement (.obrd i) :=
  Header.ofFields_masked _ _ _ _ _ _
theorem olenr : Statement .olenr :=
  Header.ofFields_masked _ _ _ _ _ _
theorem obtoib : Statement .obtoib :=
  Header.ofFields_masked _ _ _ _ _ _
theorem rderr : Statement .rderr :=
  Header.ofFields_masked _ _ _ _ _ _
theorem clrerr : Statement .clrerr :=
  Header.ofFields_masked _ _ _ _ _ _

end Laws.MaskedHeader

end Sys2Proof
end

