-- ==== Sys2Proof/Laws/Step.lean ====
section
/-! SUPPORT. What every command and every step can do. -/
namespace Sys2Proof.Machine

/-- Every command is a `run` of checks and one update on the state it is given (R17). -/
theorem exec_is_run (i : Instr) (s : State) : ∃ body, exec i s = run s body := by
  cases i
  case qcount => exact ⟨returning s (lengthWord s.q.length), rfl⟩
  case qclear => exact ⟨done (s.setQueue []), rfl⟩
  case ibclr => exact ⟨done (s.setInput []), rfl⟩
  case olenr => exact ⟨returning s (lengthWord s.olen), rfl⟩
  case obtoib => exact ⟨returning (s.setInput s.obuf) (lengthWord s.olen), rfl⟩
  case rderr => exact ⟨returning s (zext64 s.err.toNat), rfl⟩
  case clrerr => exact ⟨done s.clearErr, rfl⟩
  all_goals exact ⟨_, rfl⟩

/-- A step with a command issued is a `run` on the state in which it has been taken (R17, R63). -/
theorem step_is_run (s : State) (c : Command) (rest : List Command) (h : s.cmds = c :: rest) :
    ∃ body, step s = run { s with cmds := rest } body := by
  unfold step
  rw [fetch_cons s c rest h]
  cases hd : decode c with
  | ok i => simpa [hd] using exec_is_run i { s with cmds := rest }
  | error k => exact ⟨.error .illegalCommand, by simp [illegalCommand, hd]⟩

end Sys2Proof.Machine
end

