-- ==== Sys2Proof/Machine/Assembler.lean ====
section
/-! DEFINITION. The assembler text of a command (R67) and the three pseudo-instructions (R68). No step reads them. -/
namespace Sys2Proof.Machine

/-- A register as R67 writes it: BF0 .. BF15. -/
def regText (r : Reg) : String := "BF" ++ toString r.val

/-- A tag as R67 writes it. -/
def tagText : Tag → String
  | .LE => "LE"
  | .BE => "BE"

/-- A bit as R67 writes it. -/
def bitText (b : Bool) : String := if b then "1" else "0"

/-- An integer operand as R67 writes it, in decimal. -/
def numText (v : Int) : String := "#" ++ toString v

/-- The mnemonic (R62). -/
def mnemonicOf : Instr → String
  | .construct _ _ _ => "CONSTRUCT"
  | .constructA _ _ => "CONSTRUCTA"
  | .copy _ _ => "COPY"
  | .get _ _ => "GET"
  | .set _ _ _ => "SET"
  | .add _ _ => "ADD"
  | .flip _ _ => "FLIP"
  | .reverse _ => "REVERSE"
  | .insert _ _ _ => "INSERT"
  | .remove _ _ => "REMOVE"
  | .append _ _ => "APPEND"
  | .count _ => "COUNT"
  | .endian _ => "ENDIAN"
  | .pad _ _ _ => "PAD"
  | .padToByte _ => "PADTOBYTE"
  | .trimStart _ _ => "TRIMSTART"
  | .trimEnd _ _ => "TRIMEND"
  | .trimEndian _ _ => "TRIMENDIAN"
  | .toByteArray _ _ _ => "TOBYTEARRAY"
  | .toByte _ _ => "TOBYTE"
  | .toSByte _ _ => "TOSBYTE"
  | .toInt16 _ _ => "TOINT16"
  | .toUInt16 _ _ => "TOUINT16"
  | .toInt32 _ _ => "TOINT32"
  | .toUInt32 _ _ => "TOUINT32"
  | .toInt64 _ _ => "TOINT64"
  | .toUInt64 _ _ => "TOUINT64"
  | .fromByteArray _ => "FROMBYTEARRAY"
  | .fromByte _ _ => "FROMBYTE"
  | .fromSByte _ _ => "FROMSBYTE"
  | .fromInt16 _ _ => "FROMINT16"
  | .fromUInt16 _ _ => "FROMUINT16"
  | .fromInt32 _ _ => "FROMINT32"
  | .fromUInt32 _ _ => "FROMUINT32"
  | .fromInt64 _ _ => "FROMINT64"
  | .fromUInt64 _ _ => "FROMUINT64"
  | .and _ _ _ => "AND"
  | .or _ _ _ => "OR"
  | .xor _ _ _ => "XOR"
  | .not _ _ => "NOT"
  | .rol _ _ _ => "ROL"
  | .ror _ _ _ => "ROR"
  | .inc _ _ => "INC"
  | .dec _ _ => "DEC"
  | .enqueue _ _ => "ENQUEUE"
  | .dequeue => "DEQUEUE"
  | .qcount => "QCOUNT"
  | .qclear => "QCLEAR"
  | .compress => "COMPRESS"
  | .decompress => "DECOMPRESS"
  | .ibclr => "IBCLR"
  | .ibpush _ => "IBPUSH"
  | .obrd _ => "OBRD"
  | .olenr => "OLENR"
  | .obtoib => "OBTOIB"
  | .rderr => "RDERR"
  | .clrerr => "CLRERR"

/-- The operands in the order rd, rs1, rs2, e, b, #arg0, #arg1, those the command uses (R67). -/
def operandTexts : Instr → List String
  | .construct rd e n => [regText rd, tagText e, numText n]
  | .constructA rd e => [regText rd, tagText e]
  | .copy rd rs1 => [regText rd, regText rs1]
  | .get rs1 i => [regText rs1, numText i]
  | .set rd b i => [regText rd, bitText b, numText i]
  | .add rd b => [regText rd, bitText b]
  | .flip rd i => [regText rd, numText i]
  | .reverse rd => [regText rd]
  | .insert rd b i => [regText rd, bitText b, numText i]
  | .remove rd i => [regText rd, numText i]
  | .append rd rs1 => [regText rd, regText rs1]
  | .count rs1 => [regText rs1]
  | .endian rs1 => [regText rs1]
  | .pad rd b n => [regText rd, bitText b, numText n]
  | .padToByte rd => [regText rd]
  | .trimStart rd b => [regText rd, bitText b]
  | .trimEnd rd b => [regText rd, bitText b]
  | .trimEndian rd b => [regText rd, bitText b]
  | .toByteArray rs1 bitCount offset => [regText rs1, numText bitCount, numText offset]
  | .toByte rs1 offset => [regText rs1, numText offset]
  | .toSByte rs1 offset => [regText rs1, numText offset]
  | .toInt16 rs1 offset => [regText rs1, numText offset]
  | .toUInt16 rs1 offset => [regText rs1, numText offset]
  | .toInt32 rs1 offset => [regText rs1, numText offset]
  | .toUInt32 rs1 offset => [regText rs1, numText offset]
  | .toInt64 rs1 offset => [regText rs1, numText offset]
  | .toUInt64 rs1 offset => [regText rs1, numText offset]
  | .fromByteArray rd => [regText rd]
  | .fromByte rd value => [regText rd, numText value]
  | .fromSByte rd value => [regText rd, numText value]
  | .fromInt16 rd value => [regText rd, numText value]
  | .fromUInt16 rd value => [regText rd, numText value]
  | .fromInt32 rd value => [regText rd, numText value]
  | .fromUInt32 rd value => [regText rd, numText value]
  | .fromInt64 rd value => [regText rd, numText value]
  | .fromUInt64 rd value => [regText rd, numText value]
  | .and rd rs1 rs2 => [regText rd, regText rs1, regText rs2]
  | .or rd rs1 rs2 => [regText rd, regText rs1, regText rs2]
  | .xor rd rs1 rs2 => [regText rd, regText rs1, regText rs2]
  | .not rd rs1 => [regText rd, regText rs1]
  | .rol rd rs1 n => [regText rd, regText rs1, numText n]
  | .ror rd rs1 n => [regText rd, regText rs1, numText n]
  | .inc rd rs1 => [regText rd, regText rs1]
  | .dec rd rs1 => [regText rd, regText rs1]
  | .enqueue item weight => [numText item, numText weight]
  | .dequeue => []
  | .qcount => []
  | .qclear => []
  | .compress => []
  | .decompress => []
  | .ibclr => []
  | .ibpush byte => [numText byte]
  | .obrd i => [numText i]
  | .olenr => []
  | .obtoib => []
  | .rderr => []
  | .clrerr => []

/-- Texts separated by a comma and a space. -/
def commaJoin : List String → String
  | [] => ""
  | [x] => x
  | x :: y :: rest => x ++ ", " ++ commaJoin (y :: rest)

/-- `MNEMONIC operand, operand, ...` (R67). -/
def assemblyText (i : Instr) : String :=
  match operandTexts i with
  | [] => mnemonicOf i
  | x :: rest => mnemonicOf i ++ " " ++ commaJoin (x :: rest)

/-- IBLOAD: IBCLR, then one IBPUSH a byte (R68). -/
def ibload (m : Memory) : List Instr := .ibclr :: m.map fun v => .ibpush v.toNat

/-- FROMSTRING: IBLOAD of the bytes the host's encoder gives for the text, then FROMBYTEARRAY (R68, R131).
The encoder is the host's, so the bytes are the argument. -/
def fromString (rd : Reg) (m : Memory) : List Instr := ibload m ++ [.fromByteArray rd]

/-- NEWEMPTY (R68, R94). -/
def newEmpty (rd : Reg) (e : Tag) : List Instr := [.construct rd e 0]

end Sys2Proof.Machine
end

