-- ==== Sys2Proof/Tests/Slice0.lean ====
section
/-! SUPPORT. The model's own tests: well-formedness, decoding of words written out from the encoding, one step of each command with
results from the spec's examples and vectors, and a witness for every statement that has hypotheses. -/
namespace Sys2Proof.Machine.Tests
open Sys2Proof Sys2Proof.Machine

/-! ## Well-formedness: an ill-formed term for each check -/

theorem test_wf_signed_above : (Instr.get 0 (2 ^ 63)).wf = false := by decide
theorem test_wf_signed_below : (Instr.get 0 (-(2 ^ 63) - 1)).wf = false := by decide
theorem test_wf_signed_edges : (Instr.get 0 (2 ^ 63 - 1)).wf = true ∧ (Instr.get 0 (-(2 ^ 63))).wf = true := by decide
theorem test_wf_second_argument : (Instr.enqueue 0 (2 ^ 63)).wf = false := by decide
theorem test_wf_unsigned_above : (Instr.fromUInt64 0 (2 ^ 64)).wf = false := by decide
theorem test_wf_unsigned_below : (Instr.fromUInt64 0 (-1)).wf = false := by decide
theorem test_wf_unsigned_edge : (Instr.fromUInt64 0 (2 ^ 64 - 1)).wf = true := by decide

/-! ## Decoding (R57, R62): every field of the record is filled, rd = 10, rs1 = 5, rs2 = 12, e = 1, b = 1, arg0 = -2,
arg1 = 3, so the header is 0x003C5A00 with the opcode in its low byte; what a command does not use is ignored (R60) -/

theorem test_decode_construct : decode ⟨0x003C5A01#32, 0xFFFFFFFFFFFFFFFE#64, 3#64⟩ = .ok (.construct 10 .BE (-2)) := by decide
theorem test_decode_constructA : decode ⟨0x003C5A02#32, 0xFFFFFFFFFFFFFFFE#64, 3#64⟩ = .ok (.constructA 10 .BE) := by decide
theorem test_decode_copy : decode ⟨0x003C5A03#32, 0xFFFFFFFFFFFFFFFE#64, 3#64⟩ = .ok (.copy 10 5) := by decide
theorem test_decode_get : decode ⟨0x003C5A04#32, 0xFFFFFFFFFFFFFFFE#64, 3#64⟩ = .ok (.get 5 (-2)) := by decide
theorem test_decode_set : decode ⟨0x003C5A05#32, 0xFFFFFFFFFFFFFFFE#64, 3#64⟩ = .ok (.set 10 true (-2)) := by decide
theorem test_decode_add : decode ⟨0x003C5A06#32, 0xFFFFFFFFFFFFFFFE#64, 3#64⟩ = .ok (.add 10 true) := by decide
theorem test_decode_flip : decode ⟨0x003C5A07#32, 0xFFFFFFFFFFFFFFFE#64, 3#64⟩ = .ok (.flip 10 (-2)) := by decide
theorem test_decode_reverse : decode ⟨0x003C5A08#32, 0xFFFFFFFFFFFFFFFE#64, 3#64⟩ = .ok (.reverse 10) := by decide
theorem test_decode_insert : decode ⟨0x003C5A09#32, 0xFFFFFFFFFFFFFFFE#64, 3#64⟩ = .ok (.insert 10 true (-2)) := by decide
theorem test_decode_remove : decode ⟨0x003C5A0A#32, 0xFFFFFFFFFFFFFFFE#64, 3#64⟩ = .ok (.remove 10 (-2)) := by decide
theorem test_decode_append : decode ⟨0x003C5A0B#32, 0xFFFFFFFFFFFFFFFE#64, 3#64⟩ = .ok (.append 10 5) := by decide
theorem test_decode_count : decode ⟨0x003C5A0C#32, 0xFFFFFFFFFFFFFFFE#64, 3#64⟩ = .ok (.count 5) := by decide
theorem test_decode_endian : decode ⟨0x003C5A0D#32, 0xFFFFFFFFFFFFFFFE#64, 3#64⟩ = .ok (.endian 5) := by decide
theorem test_decode_pad : decode ⟨0x003C5A10#32, 0xFFFFFFFFFFFFFFFE#64, 3#64⟩ = .ok (.pad 10 true (-2)) := by decide
theorem test_decode_padToByte : decode ⟨0x003C5A11#32, 0xFFFFFFFFFFFFFFFE#64, 3#64⟩ = .ok (.padToByte 10) := by decide
theorem test_decode_trimStart : decode ⟨0x003C5A12#32, 0xFFFFFFFFFFFFFFFE#64, 3#64⟩ = .ok (.trimStart 10 true) := by decide
theorem test_decode_trimEnd : decode ⟨0x003C5A13#32, 0xFFFFFFFFFFFFFFFE#64, 3#64⟩ = .ok (.trimEnd 10 true) := by decide
theorem test_decode_trimEndian : decode ⟨0x003C5A14#32, 0xFFFFFFFFFFFFFFFE#64, 3#64⟩ = .ok (.trimEndian 10 true) := by decide
theorem test_decode_toByteArray : decode ⟨0x003C5A20#32, 0xFFFFFFFFFFFFFFFE#64, 3#64⟩ = .ok (.toByteArray 5 (-2) 3) := by decide
theorem test_decode_toByte : decode ⟨0x003C5A21#32, 0xFFFFFFFFFFFFFFFE#64, 3#64⟩ = .ok (.toByte 5 (-2)) := by decide
theorem test_decode_toSByte : decode ⟨0x003C5A22#32, 0xFFFFFFFFFFFFFFFE#64, 3#64⟩ = .ok (.toSByte 5 (-2)) := by decide
theorem test_decode_toInt16 : decode ⟨0x003C5A23#32, 0xFFFFFFFFFFFFFFFE#64, 3#64⟩ = .ok (.toInt16 5 (-2)) := by decide
theorem test_decode_toUInt16 : decode ⟨0x003C5A24#32, 0xFFFFFFFFFFFFFFFE#64, 3#64⟩ = .ok (.toUInt16 5 (-2)) := by decide
theorem test_decode_toInt32 : decode ⟨0x003C5A25#32, 0xFFFFFFFFFFFFFFFE#64, 3#64⟩ = .ok (.toInt32 5 (-2)) := by decide
theorem test_decode_toUInt32 : decode ⟨0x003C5A26#32, 0xFFFFFFFFFFFFFFFE#64, 3#64⟩ = .ok (.toUInt32 5 (-2)) := by decide
theorem test_decode_toInt64 : decode ⟨0x003C5A27#32, 0xFFFFFFFFFFFFFFFE#64, 3#64⟩ = .ok (.toInt64 5 (-2)) := by decide
theorem test_decode_toUInt64 : decode ⟨0x003C5A28#32, 0xFFFFFFFFFFFFFFFE#64, 3#64⟩ = .ok (.toUInt64 5 (-2)) := by decide
theorem test_decode_fromByteArray : decode ⟨0x003C5A30#32, 0xFFFFFFFFFFFFFFFE#64, 3#64⟩ = .ok (.fromByteArray 10) := by decide
theorem test_decode_fromByte : decode ⟨0x003C5A31#32, 0xFFFFFFFFFFFFFFFE#64, 3#64⟩ = .ok (.fromByte 10 (-2)) := by decide
theorem test_decode_fromSByte : decode ⟨0x003C5A32#32, 0xFFFFFFFFFFFFFFFE#64, 3#64⟩ = .ok (.fromSByte 10 (-2)) := by decide
theorem test_decode_fromInt16 : decode ⟨0x003C5A33#32, 0xFFFFFFFFFFFFFFFE#64, 3#64⟩ = .ok (.fromInt16 10 (-2)) := by decide
theorem test_decode_fromUInt16 : decode ⟨0x003C5A34#32, 0xFFFFFFFFFFFFFFFE#64, 3#64⟩ = .ok (.fromUInt16 10 (-2)) := by decide
theorem test_decode_fromInt32 : decode ⟨0x003C5A35#32, 0xFFFFFFFFFFFFFFFE#64, 3#64⟩ = .ok (.fromInt32 10 (-2)) := by decide
theorem test_decode_fromUInt32 : decode ⟨0x003C5A36#32, 0xFFFFFFFFFFFFFFFE#64, 3#64⟩ = .ok (.fromUInt32 10 (-2)) := by decide
theorem test_decode_fromInt64 : decode ⟨0x003C5A37#32, 0xFFFFFFFFFFFFFFFE#64, 3#64⟩ = .ok (.fromInt64 10 (-2)) := by decide
theorem test_decode_fromUInt64 : decode ⟨0x003C5A38#32, 0xFFFFFFFFFFFFFFFE#64, 3#64⟩ = .ok (.fromUInt64 10 18446744073709551614) := by decide
theorem test_decode_and : decode ⟨0x003C5A40#32, 0xFFFFFFFFFFFFFFFE#64, 3#64⟩ = .ok (.and 10 5 12) := by decide
theorem test_decode_or : decode ⟨0x003C5A41#32, 0xFFFFFFFFFFFFFFFE#64, 3#64⟩ = .ok (.or 10 5 12) := by decide
theorem test_decode_xor : decode ⟨0x003C5A42#32, 0xFFFFFFFFFFFFFFFE#64, 3#64⟩ = .ok (.xor 10 5 12) := by decide
theorem test_decode_not : decode ⟨0x003C5A43#32, 0xFFFFFFFFFFFFFFFE#64, 3#64⟩ = .ok (.not 10 5) := by decide
theorem test_decode_rol : decode ⟨0x003C5A44#32, 0xFFFFFFFFFFFFFFFE#64, 3#64⟩ = .ok (.rol 10 5 (-2)) := by decide
theorem test_decode_ror : decode ⟨0x003C5A45#32, 0xFFFFFFFFFFFFFFFE#64, 3#64⟩ = .ok (.ror 10 5 (-2)) := by decide
theorem test_decode_inc : decode ⟨0x003C5A46#32, 0xFFFFFFFFFFFFFFFE#64, 3#64⟩ = .ok (.inc 10 5) := by decide
theorem test_decode_dec : decode ⟨0x003C5A47#32, 0xFFFFFFFFFFFFFFFE#64, 3#64⟩ = .ok (.dec 10 5) := by decide
theorem test_decode_enqueue : decode ⟨0x003C5A50#32, 0xFFFFFFFFFFFFFFFE#64, 3#64⟩ = .ok (.enqueue (-2) 3) := by decide
theorem test_decode_dequeue : decode ⟨0x003C5A51#32, 0xFFFFFFFFFFFFFFFE#64, 3#64⟩ = .ok .dequeue := by decide
theorem test_decode_qcount : decode ⟨0x003C5A52#32, 0xFFFFFFFFFFFFFFFE#64, 3#64⟩ = .ok .qcount := by decide
theorem test_decode_qclear : decode ⟨0x003C5A53#32, 0xFFFFFFFFFFFFFFFE#64, 3#64⟩ = .ok .qclear := by decide
theorem test_decode_compress : decode ⟨0x003C5A60#32, 0xFFFFFFFFFFFFFFFE#64, 3#64⟩ = .ok .compress := by decide
theorem test_decode_decompress : decode ⟨0x003C5A61#32, 0xFFFFFFFFFFFFFFFE#64, 3#64⟩ = .ok .decompress := by decide
theorem test_decode_ibclr : decode ⟨0x003C5A70#32, 0xFFFFFFFFFFFFFFFE#64, 3#64⟩ = .ok .ibclr := by decide
theorem test_decode_ibpush : decode ⟨0x003C5A71#32, 0xFFFFFFFFFFFFFFFE#64, 3#64⟩ = .ok (.ibpush (-2)) := by decide
theorem test_decode_obrd : decode ⟨0x003C5A72#32, 0xFFFFFFFFFFFFFFFE#64, 3#64⟩ = .ok (.obrd (-2)) := by decide
theorem test_decode_olenr : decode ⟨0x003C5A73#32, 0xFFFFFFFFFFFFFFFE#64, 3#64⟩ = .ok .olenr := by decide
theorem test_decode_obtoib : decode ⟨0x003C5A74#32, 0xFFFFFFFFFFFFFFFE#64, 3#64⟩ = .ok .obtoib := by decide
theorem test_decode_rderr : decode ⟨0x003C5A75#32, 0xFFFFFFFFFFFFFFFE#64, 3#64⟩ = .ok .rderr := by decide
theorem test_decode_clrerr : decode ⟨0x003C5A76#32, 0xFFFFFFFFFFFFFFFE#64, 3#64⟩ = .ok .clrerr := by decide

theorem test_decode_low_fields : decode ⟨0x00000002#32, 0#64, 0#64⟩ = .ok (.constructA 0 .LE) := by decide
theorem test_decode_zero_bit : decode ⟨0x00100F06#32, 0#64, 0#64⟩ = .ok (.add 15 false) := by decide
/-- R63: an all-zero header, an all-one header, the hole 0x0E, and a reserved bit. -/
theorem test_decode_rejects :
    decode ⟨0x00000000#32, 0#64, 0#64⟩ = .error .unknownOpcode ∧
    decode ⟨0xFFFFFFFF#32, 0#64, 0#64⟩ = .error .reservedBits ∧
    decode ⟨0x0000000E#32, 0#64, 0#64⟩ = .error .unknownOpcode ∧
    decode ⟨0x00400001#32, 0#64, 0#64⟩ = .error .reservedBits := by decide
theorem test_encode_rol : encode (.rol 1 2 (-3)) = ⟨0x00002144#32, 0xFFFFFFFFFFFFFFFD#64, 0#64⟩ := by decide
theorem test_encode_construct : encode (.construct 1 .BE 8) = ⟨0x00100101#32, 8#64, 0#64⟩ := by decide
theorem test_decodeTableWord : decodeTableWord 32 0x00003F41 = some (.or 15 3 0) := by decide

/-! ## States for the tests -/

/-- A bit list written with 0 and 1. -/
def bs (s : List Nat) : List Bool := s.map (· == 1)

/-- The state a command leaves, if it leaves one. -/
def nextOf : Out → Option State
  | .next s => some s
  | .fault _ => none
  | .refused _ => none

/-- The response a command leaves. -/
def respOf (o : Out) : Option Response := (nextOf o).bind State.resp

/-- A register after a command. -/
def regOf (o : Out) (r : Reg) : Option BitSeq := (nextOf o).bind (State.reg · r)

/-- A response OK with r0. -/
def ok (r0 : Word64) : Option Response := some ⟨0#8, r0, 0#64⟩

/-- A fault's response. -/
def bad (code : BitVec 8) : Option Response := some ⟨code, 0#64, 0#64⟩

/-- The register Y of `42_bitseq_convert.md`. -/
def y : List Bool := bs [1,1,0,0,1,0,1,0,1,1,1,1,0,0,0,0,0,0,0,0,1,1,1,1]

/-- BF0 = <"1101", BE>, BF1 = <"011", LE>, BF2 = Y, BF3 = YB, BF4 = <"110011", LE>, BF5 = <"100", BE>,
BF6 = <"10110", LE>, BF7 empty; BF8 on are null. -/
def regs : State :=
  ((((((((State.reset.setReg 0 ⟨bs [1,1,0,1], .BE⟩).setReg 1 ⟨bs [0,1,1], .LE⟩).setReg 2 ⟨y, .LE⟩).setReg 3
    ⟨y, .BE⟩).setReg 4 ⟨bs [1,1,0,0,1,1], .LE⟩).setReg 5 ⟨bs [1,0,0], .BE⟩).setReg 6
    ⟨bs [1,0,1,1,0], .LE⟩).setReg 7 ⟨[], .LE⟩)

/-- `regs` with IBUF = [0x41, 0x41, 0x42], OBUF = [0x02, 0x50, 0xA8, 0x38], Q = [(1,5), (2,3), (3,5), (4,3)]. -/
def full : State :=
  ((regs.setInput [0x41#8, 0x41#8, 0x42#8]).setOutput [0x02#8, 0x50#8, 0xA8#8, 0x38#8]).setQueue
    [⟨1, 5⟩, ⟨2, 3⟩, ⟨3, 5⟩, ⟨4, 3⟩]

/-! ## Reset and the step -/

theorem test_reset_registers : (List.finRange 16).all (fun r => State.reset.reg r == none) = true := by decide
/-- The first command after reset, `NOT BF1, BF0`, runs and faults on the null register. -/
theorem test_first_step : respOf (step (State.reset.withFetchWord 32 0x00000143)) = bad 4#8 := by decide
theorem test_first_step_completes : (nextOf (step (State.reset.withFetchWord 32 0x00100501))).map (State.reg · 5) =
    some (some ⟨[], .BE⟩) := by decide
theorem test_illegal_step : respOf (step (State.reset.issue ⟨0#32, 0#64, 0#64⟩)) = bad 6#8 := by decide
theorem test_wait : nextOf (step State.reset) = some State.reset := by decide

/-! ## One step of each command -/

/-- R81. -/
theorem test_construct : regOf (exec (.construct 0 .BE 3) State.reset) 0 = some ⟨bs [0,0,0], .BE⟩ := by decide
theorem test_construct_edges : respOf (exec (.construct 0 .BE (-1)) regs) = bad 3#8 ∧
    respOf (exec (.construct 0 .BE 65537) regs) = bad 7#8 := by decide
/-- R82: IBUF = [0x01, 0x00, 0xFF]. -/
theorem test_constructA : regOf (exec (.constructA 2 .LE) (State.reset.setInput [0x01#8, 0x00#8, 0xFF#8])) 2 =
    some ⟨bs [1,0,1], .LE⟩ := by decide
theorem test_constructA_null : respOf (exec (.constructA 2 .LE) regs) = bad 4#8 := by decide
/-- R83. -/
theorem test_copy : regOf (exec (.copy 9 1) regs) 9 = some ⟨bs [0,1,1], .LE⟩ := by decide
theorem test_copy_null : respOf (exec (.copy 0 9) regs) = bad 4#8 := by decide
/-- R84: `GET BF0, #2` of <"1101", BE> returns 0. -/
theorem test_get : respOf (exec (.get 0 2) regs) = ok 0#64 ∧ respOf (exec (.get 0 3) regs) = ok 1#64 := by decide
theorem test_get_edges : respOf (exec (.get 0 4) regs) = bad 1#8 ∧ respOf (exec (.get 0 (-1)) regs) = bad 1#8 := by
  decide
/-- R85. -/
theorem test_set : regOf (exec (.set 0 true 2) regs) 0 = some ⟨bs [1,1,1,1], .BE⟩ := by decide
theorem test_set_edge : respOf (exec (.set 7 true 0) regs) = bad 1#8 := by decide
/-- R86. -/
theorem test_add : regOf (exec (.add 1 true) regs) 1 = some ⟨bs [0,1,1,1], .LE⟩ := by decide
/-- R87. -/
theorem test_flip : regOf (exec (.flip 0 0) regs) 0 = some ⟨bs [0,1,0,1], .BE⟩ := by decide
/-- R88. -/
theorem test_reverse : regOf (exec (.reverse 0) regs) 0 = some ⟨bs [1,0,1,1], .LE⟩ := by decide
/-- R89: <"110011", LE> with a 0 at index 1, and at index Count. -/
theorem test_insert : regOf (exec (.insert 4 false 1) regs) 4 = some ⟨bs [1,0,1,0,0,1,1], .LE⟩ := by decide
theorem test_insert_edges : regOf (exec (.insert 1 false 3) regs) 1 = some ⟨bs [0,1,1,0], .LE⟩ ∧
    respOf (exec (.insert 1 false 4) regs) = bad 1#8 := by decide
/-- R90. -/
theorem test_remove : regOf (exec (.remove 0 2) regs) 0 = some ⟨bs [1,1,1], .BE⟩ := by decide
theorem test_remove_edge : respOf (exec (.remove 0 4) regs) = bad 1#8 := by decide
/-- R91: the tag of the source is ignored; one register as both doubles. -/
theorem test_append : regOf (exec (.append 5 1) regs) 5 = some ⟨bs [1,0,0,0,1,1], .BE⟩ := by decide
theorem test_append_itself : regOf (exec (.append 1 1) regs) 1 = some ⟨bs [0,1,1,0,1,1], .LE⟩ := by decide
/-- R92. -/
theorem test_count : respOf (exec (.count 0) regs) = ok 4#64 := by decide
/-- R93. -/
theorem test_endian : respOf (exec (.endian 0) regs) = ok 1#64 ∧ respOf (exec (.endian 1) regs) = ok 0#64 := by decide
/-- R100: the index 0 side for BE, the end for LE. -/
theorem test_pad : regOf (exec (.pad 5 true 2) regs) 5 = some ⟨bs [1,1,1,0,0], .BE⟩ ∧
    regOf (exec (.pad 1 false 3) regs) 1 = some ⟨bs [0,1,1,0,0,0], .LE⟩ := by decide
theorem test_pad_edge : respOf (exec (.pad 5 true (-1)) regs) = bad 3#8 := by decide
/-- R101: <"10110", LE> becomes <"10110000", LE>; Y is a multiple of 8 already. -/
theorem test_padToByte : regOf (exec (.padToByte 6) regs) 6 = some ⟨bs [1,0,1,1,0,0,0,0], .LE⟩ ∧
    regOf (exec (.padToByte 0) regs) 0 = some ⟨bs [0,0,0,0,1,1,0,1], .BE⟩ := by decide
theorem test_padToByte_whole : regOf (exec (.padToByte 2) regs) 2 = some ⟨y, .LE⟩ := by decide
/-- R102, R103, R104: <"0010100">. -/
theorem test_trimStart : regOf (exec (.trimStart 0 false) (regs.setReg 0 ⟨bs [0,0,1,0,1,0,0], .LE⟩)) 0 =
    some ⟨bs [1,0,1,0,0], .LE⟩ := by decide
theorem test_trimEnd : regOf (exec (.trimEnd 0 false) (regs.setReg 0 ⟨bs [0,0,1,0,1,0,0], .LE⟩)) 0 =
    some ⟨bs [0,0,1,0,1], .LE⟩ := by decide
theorem test_trimEnd_all : regOf (exec (.trimEnd 0 true) (regs.setReg 0 ⟨bs [1,1,1], .LE⟩)) 0 = some ⟨[], .LE⟩ := by
  decide
theorem test_trimEndian_le : regOf (exec (.trimEndian 0 false) (regs.setReg 0 ⟨bs [0,0,1,0,1,0,0], .LE⟩)) 0 =
    some ⟨bs [0,0,1,0,1], .LE⟩ := by decide
theorem test_trimEndian_be : regOf (exec (.trimEndian 0 false) (regs.setReg 0 ⟨bs [0,0,1,0,1,0,0], .BE⟩)) 0 =
    some ⟨bs [1,0,1,0,0], .BE⟩ := by decide
/-- R110: `TOBYTEARRAY Y, #16, #4` gives [0x00, 0xF5], YB gives [0xAF, 0x00]. -/
theorem test_toByteArray :
    (nextOf (exec (.toByteArray 2 16 4) regs)).map State.obuf = some [0x00#8, 0xF5#8] ∧
    (nextOf (exec (.toByteArray 3 16 4) regs)).map State.obuf = some [0xAF#8, 0x00#8] := by decide
theorem test_toByteArray_edges : respOf (exec (.toByteArray 2 12 0) regs) = bad 1#8 ∧
    respOf (exec (.toByteArray 2 16 9) regs) = bad 1#8 ∧
    respOf (exec (.toByteArray 2 0 0) regs) = bad 1#8 := by decide
/-- R112 to R119. -/
theorem test_toByte : respOf (exec (.toByte 2 4) regs) = ok 245#64 := by decide
theorem test_toSByte : respOf (exec (.toSByte 2 4) regs) = ok 0xFFFFFFFFFFFFFFF5#64 := by decide
theorem test_toInt16 : respOf (exec (.toInt16 2 8) regs) = ok (BitVec.ofInt 64 (-4081)) ∧
    respOf (exec (.toInt16 3 0) regs) = ok (BitVec.ofInt 64 (-13584)) := by decide
theorem test_toInt16_edges : respOf (exec (.toInt16 2 9) regs) = bad 2#8 ∧
    respOf (exec (.toInt16 2 (-1)) regs) = bad 1#8 := by decide
theorem test_toUInt16 : respOf (exec (.toUInt16 2 8) regs) = ok 61455#64 ∧
    respOf (exec (.toUInt16 3 8) regs) = ok 61455#64 := by decide
theorem test_toInt32 : respOf (exec (.toInt32 0 0) (regs.setReg 0 ⟨List.replicate 32 true, .BE⟩)) =
    ok (BitVec.ofInt 64 (-1)) := by decide
theorem test_toUInt32 : respOf (exec (.toUInt32 0 0) (regs.setReg 0 ⟨List.replicate 32 true, .LE⟩)) =
    ok 4294967295#64 := by decide
theorem test_toInt64 : respOf (exec (.toInt64 0 0) (regs.setReg 0 ⟨List.replicate 63 false ++ [true], .LE⟩)) =
    ok 0x8000000000000000#64 := by decide
theorem test_toUInt64 : respOf (exec (.toUInt64 0 0) (regs.setReg 0 ⟨List.replicate 63 false ++ [true], .LE⟩)) =
    ok 0x8000000000000000#64 := by decide
/-- R120: IBUF = [0x12, 0x34]. -/
theorem test_fromByteArray : regOf (exec (.fromByteArray 9) (State.reset.setInput [0x12#8, 0x34#8])) 9 =
    some ⟨bs [0,1,0,0,1,0,0,0,0,0,1,0,1,1,0,0], .LE⟩ := by decide
/-- R122 to R129. -/
theorem test_fromByte : regOf (exec (.fromByte 0 0xA5) regs) 0 = some ⟨bs [1,0,1,0,0,1,0,1], .LE⟩ := by decide
theorem test_fromByte_edges : respOf (exec (.fromByte 0 256) regs) = bad 3#8 ∧
    respOf (exec (.fromByte 0 (-1)) regs) = bad 3#8 := by decide
theorem test_fromSByte : regOf (exec (.fromSByte 0 (-11)) regs) 0 = some ⟨bs [1,0,1,0,1,1,1,1], .LE⟩ := by decide
theorem test_fromSByte_edge : respOf (exec (.fromSByte 0 128) regs) = bad 3#8 := by decide
theorem test_fromInt16 : regOf (exec (.fromInt16 0 (-2)) regs) 0 = some ⟨false :: List.replicate 15 true, .LE⟩ := by
  decide
theorem test_fromUInt16 : regOf (exec (.fromUInt16 0 0x0201) regs) 0 =
    some ⟨bs [1,0,0,0,0,0,0,0,0,1,0,0,0,0,0,0], .LE⟩ := by decide
theorem test_fromInt32 : regOf (exec (.fromInt32 0 0x12345678) regs) 0 =
    some ⟨bs [0,0,0,1,1,1,1,0,0,1,1,0,1,0,1,0,0,0,1,0,1,1,0,0,0,1,0,0,1,0,0,0], .LE⟩ := by decide
theorem test_fromUInt32 : regOf (exec (.fromUInt32 0 4294967295) regs) 0 = some ⟨List.replicate 32 true, .LE⟩ := by
  decide
theorem test_fromUInt32_edge : respOf (exec (.fromUInt32 0 (-1)) regs) = bad 3#8 := by decide
theorem test_fromInt64 : regOf (exec (.fromInt64 0 (-1)) regs) 0 = some ⟨List.replicate 64 true, .LE⟩ := by decide
theorem test_fromUInt64 : regOf (exec (.fromUInt64 0 0x8000000000000000) regs) 0 =
    some ⟨List.replicate 63 false ++ [true], .LE⟩ := by decide
/-- R141, R142, R143: A = <"110011", LE> with <"100", BE>, both ways round; equal lengths take rs1's tag. -/
theorem test_and : regOf (exec (.and 9 4 5) regs) 9 = some ⟨bs [0,0,0,0,1,1], .LE⟩ ∧
    regOf (exec (.and 9 5 4) regs) 9 = some ⟨bs [0,0,0,0,1,1], .LE⟩ := by decide
theorem test_and_equal : regOf (exec (.and 9 1 5) regs) 9 = some ⟨bs [0,0,0], .LE⟩ ∧
    regOf (exec (.and 9 5 1) regs) 9 = some ⟨bs [0,0,0], .BE⟩ := by decide
theorem test_or : regOf (exec (.or 9 4 5) regs) 9 = some ⟨bs [1,1,1,0,1,1], .LE⟩ := by decide
theorem test_xor : regOf (exec (.xor 9 4 5) regs) 9 = some ⟨bs [1,1,1,0,1,1], .LE⟩ := by decide
theorem test_xor_empty : respOf (exec (.xor 9 4 7) regs) = bad 3#8 := by decide
/-- R144. -/
theorem test_not : regOf (exec (.not 9 0) regs) 9 = some ⟨bs [0,0,1,0], .BE⟩ := by decide
/-- R146, R147: R = <"10110", LE>. -/
theorem test_rol : regOf (exec (.rol 9 6 1) regs) 9 = some ⟨bs [0,1,1,0,1], .LE⟩ ∧
    regOf (exec (.rol 9 6 7) regs) 9 = some ⟨bs [1,1,0,1,0], .LE⟩ := by decide
theorem test_rol_empty_first : respOf (exec (.rol 9 7 (-1)) regs) = bad 3#8 := by decide
theorem test_ror : regOf (exec (.ror 9 6 1) regs) 9 = some ⟨bs [0,1,0,1,1], .LE⟩ ∧
    regOf (exec (.ror 9 6 2) regs) 9 = some ⟨bs [1,0,1,0,1], .LE⟩ := by decide
/-- R152, R153: <"0111", BE> counts up to <"1000", BE> and back; all ones wrap. -/
theorem test_inc : regOf (exec (.inc 9 0) (regs.setReg 0 ⟨bs [0,1,1,1], .BE⟩)) 9 = some ⟨bs [1,0,0,0], .BE⟩ ∧
    regOf (exec (.inc 9 0) (regs.setReg 0 ⟨bs [1,1,1,1], .LE⟩)) 9 = some ⟨bs [0,0,0,0], .LE⟩ := by decide
theorem test_dec : regOf (exec (.dec 9 0) (regs.setReg 0 ⟨bs [1,0,0,0], .BE⟩)) 9 = some ⟨bs [0,1,1,1], .BE⟩ ∧
    regOf (exec (.dec 9 0) (regs.setReg 0 ⟨bs [0,0,1,0], .LE⟩)) 9 = some ⟨bs [1,1,0,0], .LE⟩ := by decide
/-- R161. -/
theorem test_enqueue : (nextOf (exec (.enqueue 7 (-3)) full)).map State.q =
    some [⟨1, 5⟩, ⟨2, 3⟩, ⟨3, 5⟩, ⟨4, 3⟩, ⟨7, -3⟩] := by decide
theorem test_enqueue_edges : respOf (exec (.enqueue 65536 0) full) = bad 3#8 ∧
    respOf (exec (.enqueue 0 (2 ^ 31)) full) = bad 3#8 := by decide
/-- R162: of [(1,5), (2,3), (3,5), (4,3)] the first out is (2,3), and the order of the rest is kept. -/
theorem test_dequeue : respOf (exec .dequeue full) = some ⟨0#8, 2#64, 3#64⟩ ∧
    (nextOf (exec .dequeue full)).map State.q = some [⟨1, 5⟩, ⟨3, 5⟩, ⟨4, 3⟩] := by decide
theorem test_dequeue_empty : respOf (exec .dequeue regs) = bad 8#8 := by decide
/-- R163, R164. -/
theorem test_qcount : respOf (exec .qcount full) = ok 4#64 := by decide
theorem test_qclear : (nextOf (exec .qclear full)).map State.q = some [] := by decide
/-- R183: "AAB". -/
theorem test_compress : (nextOf (exec .compress full)).map (fun t => (t.obuf, t.q)) =
    some ([0x02#8, 0x50#8, 0xA8#8, 0x38#8], []) := by decide +kernel
/-- R179. -/
theorem test_compress_empty : (nextOf (exec .compress (regs.setInput []))).map State.obuf = some [0x00#8] := by
  decide +kernel
/-- R190. -/
theorem test_decompress : (nextOf (exec .decompress (full.setInput full.obuf))).map State.obuf =
    some [0x41#8, 0x41#8, 0x42#8] := by decide +kernel
/-- R201: a pad count above 7, a truncated tree, a 1 under a single leaf, a partial last code. -/
theorem test_decompress_corrupt :
    ([[0x08#8, 0x00#8], [0x00#8, 0x00#8], [0x06#8, 0xA0#8, 0xC0#8], [0x02#8, 0x50#8, 0x54#8, 0x2A#8, 0x1C#8]].map
      fun m => respOf (exec .decompress (regs.setInput m))) = [bad 5#8, bad 5#8, bad 5#8, bad 5#8] := by decide +kernel
/-- R210, R211. -/
theorem test_ibclr : (nextOf (exec .ibclr regs)).map State.ibuf = some (some []) := by decide
theorem test_ibpush : (nextOf (exec (.ibpush 0x43) full)).map State.ibuf =
    some (some [0x41#8, 0x41#8, 0x42#8, 0x43#8]) := by decide
theorem test_ibpush_edges : respOf (exec (.ibpush 256) full) = bad 3#8 ∧ respOf (exec (.ibpush 1) regs) = bad 4#8 := by
  decide
/-- R212, R213. -/
theorem test_obrd : respOf (exec (.obrd 2) full) = ok 0xA8#64 := by decide
theorem test_obrd_edges : respOf (exec (.obrd 4) full) = bad 1#8 ∧ respOf (exec (.obrd (-1)) full) = bad 1#8 := by decide
theorem test_olenr : respOf (exec .olenr full) = ok 4#64 := by decide
/-- R214. -/
theorem test_obtoib : (nextOf (exec .obtoib full)).map (fun t => (t.ibuf, t.obuf == full.obuf)) =
    some (some [0x02#8, 0x50#8, 0xA8#8, 0x38#8], true) := by decide
/-- R215, R216: ERR keeps the first fault. -/
theorem test_rderr : respOf (exec .rderr ((regs.enterFault .nullArgument).enterFault .queueEmpty)) = ok 4#64 := by decide
theorem test_clrerr : (nextOf (exec .clrerr (regs.enterFault .nullArgument))).map State.err = some 0#8 := by decide

/-! ## A witness for the hypotheses of each statement, at the edges of its ranges -/

/-- Parameters near the least R6 allows: 64 bits, 4 bytes, 256 entries. -/
def tiny : Params := ⟨some 64, some 4, some 256, some 511, 16⟩

/-- `full` on a block with the parameters `tiny`, BF10 full of 64 ones. -/
def small : State := { full.setReg 10 ⟨List.replicate 64 true, .LE⟩ with cfg := tiny }

/-- `small` with IBUF full. -/
def smallFull : State := small.setInput small.obuf

/-- A well-formed command on the outside: `NOT BF9, BF0`. -/
def notCommand : Command := ⟨0x00000943#32, 0#64, 0#64⟩

theorem tiny_ok : ParamsOk tiny :=
  ⟨.of_le (by decide), .of_le (by decide), by rintro m ⟨⟩; decide, .of_le (by decide), .of_le (by decide), by decide⟩

theorem small_legal : Legal small where
  params := tiny_ok
  bits := by
    intro r x h
    have hb : ∀ r : Reg, ∀ x ∈ small.reg r, x.bits.length ≤ 64 := by decide
    exact .of_le (hb r x h)
  input := by rintro m ⟨⟩; exact .of_le (by decide)
  output := .of_le (by decide)
  queueLength := .of_le (by decide)
  entries := by
    have h : ∀ e ∈ small.q, e.item < 2 ^ 16 ∧ -(2 ^ 31) ≤ e.weight ∧ e.weight ≤ 2 ^ 31 - 1 := by decide
    exact h
  err := by decide
  resp := by intro r h; cases h

theorem witness_ResetStateIsAsTabulated : State.reset = State.resetWith Params.default ∧
    ∃ p, State.resetWith tiny = State.resetWith p := ⟨rfl, _, rfl⟩
theorem witness_ResetStateIsLegal : ParamsOk tiny ∧ ParamsOk ⟨none, none, none, none, 9⟩ :=
  ⟨tiny_ok, by constructor <;> simp [Within]⟩
theorem witness_EveryStepKeepsLegalStates : Legal (small.issue notCommand) ∧
    ∃ t, step (small.issue notCommand) = .next t :=
  ⟨⟨small_legal.params, small_legal.bits, small_legal.input, small_legal.output, small_legal.queueLength,
    small_legal.entries, small_legal.err, small_legal.resp⟩, _, rfl⟩
theorem witness_DecodeOfEncodeIsTheCommand : (Instr.toByteArray 15 (2 ^ 63 - 1) (-(2 ^ 63))).wf = true ∧
    (Instr.fromUInt64 0 (2 ^ 64 - 1)).wf = true ∧ Instr.dequeue.wf = true := by decide
theorem witness_EncodeOfDecodeKeepsTheUsedFields : decode ⟨0x003FFF47#32, 5#64, 5#64⟩ = .ok (.dec 15 15) ∧
    field 0x003FFF47#32 0 8 ∈ opcodeValues ∧ field 0x003FFF47#32 22 10 = 0 := by decide
theorem witness_DecodedCommandsAreWellFormed :
    decode ⟨0x00000038#32, 0xFFFFFFFFFFFFFFFF#64, 0#64⟩ = .ok (.fromUInt64 0 (2 ^ 64 - 1)) := by decide
theorem witness_IllegalHeadersRaiseIllegalCommand :
    (∃ rest, (small.issue ⟨0x00000077#32, 0#64, 0#64⟩).cmds = ⟨0x00000077#32, 0#64, 0#64⟩ :: rest) ∧
    field 0x00000077#32 0 8 ∉ opcodeValues ∧ field 0x00400001#32 22 10 ≠ 0 ∧ field 0x80000001#32 22 10 ≠ 0 :=
  ⟨⟨_, rfl⟩, by decide, by decide, by decide⟩
theorem witness_UnusedFieldsAreIgnored :
    SameUsedFields ⟨0x003F1203#32, 7#64, 8#64⟩ ⟨0x00001203#32, 0#64, 0#64⟩ ∧
    SameUsedFields ⟨0#32, 7#64, 8#64⟩ ⟨0x003FFF00#32, 0#64, 0#64⟩ := by
  unfold SameUsedFields; decide
theorem witness_StepRunsTheDecodedCommand : (small.issue notCommand).cmds = notCommand :: [] ∧
    decode notCommand = .ok (.not 9 0) ∧ decodeTableWord 32 0x00000943 = some (.not 9 0) ∧ small.cmds = [] := by decide
/-- R25, R52: QCLEAR and then QCOUNT, both issued before a step: the second sees the first's effect. -/
theorem test_commands_run_in_issue_order :
    (nextOf (step ((small.issue ⟨0x00000053#32, 0#64, 0#64⟩).issue ⟨0x00000052#32, 0#64, 0#64⟩))).map
      (fun t => (t.q, t.cmds, respOf (step t))) = some ([], [⟨0x00000052#32, 0#64, 0#64⟩], ok 0#64) := by decide
theorem witness_FaultsChangeNothingButErr :
    (∃ t, step (small.issue ⟨0x00000051#32, 0#64, 0#64⟩) = .next t ∧ ∃ r, t.resp = some r ∧ r.status = 0#8) ∧
    ∃ t r, step (State.reset.issue ⟨0x00000051#32, 0#64, 0#64⟩) = .next t ∧ t.resp = some r ∧ r.status ≠ 0#8 :=
  ⟨⟨_, rfl, _, rfl, rfl⟩, _, _, rfl, rfl, by decide⟩
theorem witness_ErrKeepsTheFirstFault :
    (∃ t, exec .clrerr (small.enterFault .queueEmpty) = .next t) ∧
    (∃ t, exec (.get 9 0) (small.enterFault .queueEmpty) = .next t) ∧
    (small.enterFault .queueEmpty).err ≠ 0#8 ∧ (∃ t, exec (.get 9 0) small = .next t) ∧ small.err = 0#8 :=
  ⟨⟨_, rfl⟩, ⟨_, rfl⟩, by decide, ⟨_, rfl⟩, rfl⟩
theorem witness_NullRegisterRule :
    (9 ∈ readRegs (.append 9 0) ∧ small.reg 9 = none) ∧ (9 ∈ readRegs (.append 0 9)) ∧
    (∃ t, exec (.copy 9 0) small = .next t ∧ small.reg 0 ≠ none ∧ small.reg 9 = none ∧ t.reg 9 ≠ none) :=
  ⟨by decide, by decide, _, rfl, by decide, by decide, by decide⟩
theorem witness_NullInputArrayRaisesNullArgument : NeedsInput (.constructA 0 .LE) ∧ NeedsInput (.fromByteArray 0) ∧
    NeedsInput .compress ∧ NeedsInput .decompress ∧ NeedsInput (.ibpush 256) ∧ regs.ibuf = none := by
  simp [NeedsInput]; rfl
theorem witness_OtherRegistersAreUnchanged : (∃ t, exec (.add 1 true) small = .next t) ∧
    constructedReg (.add 1 true) ≠ some 0 ∧ mutatedReg (.add 1 true) ≠ some 0 :=
  ⟨⟨_, rfl⟩, by decide, by decide⟩
theorem witness_OtherBytesAndEntriesAreUnchanged : (∃ t, exec .qclear small = .next t) ∧
    (∃ t, exec .obtoib small = .next t) ∧ ∃ t, exec .compress small = .next t :=
  ⟨⟨_, rfl⟩, ⟨_, rfl⟩, _, rfl⟩
theorem witness_ConstructMakesZeros : Exceeds small.cfg.maxBits (65 : Int).toNat ∧
    Within small.cfg.maxBits (64 : Int).toNat ∧ Within small.cfg.maxBits (0 : Int).toNat :=
  ⟨.of_lt (by decide), .of_le (by decide), .of_le (by decide)⟩
theorem witness_ConstructACopiesTheArray : regs.ibuf = none ∧ small.ibuf = some [0x41#8, 0x41#8, 0x42#8] ∧
    Within small.cfg.maxBits [0x41#8, 0x41#8, 0x42#8].length ∧
    Exceeds small.cfg.maxBits (List.replicate 65 0#8).length ∧
    (small.setInput (List.replicate 65 0#8)).ibuf = some (List.replicate 65 0#8) :=
  ⟨rfl, rfl, .of_le (by decide), .of_lt (by decide), rfl⟩
theorem witness_CopyDuplicatesTheRegister : small.reg 9 = none ∧ small.reg 0 = some ⟨bs [1,1,0,1], .BE⟩ := by decide
theorem witness_IndexedAccess : small.reg 9 = none ∧ small.reg 0 = some ⟨bs [1,1,0,1], .BE⟩ ∧
    (4 : Int) ≥ (bs [1,1,0,1]).length ∧ 3 < (bs [1,1,0,1]).length := by decide
theorem witness_AddPutsTheBitLast : small.reg 9 = none ∧ small.reg 10 = some ⟨List.replicate 64 true, .LE⟩ ∧
    Exceeds small.cfg.maxBits ((List.replicate 64 true).length + 1) ∧ small.reg 0 = some ⟨bs [1,1,0,1], .BE⟩ ∧
    Within small.cfg.maxBits ((bs [1,1,0,1]).length + 1) :=
  ⟨by decide, by decide, .of_lt (by decide), by decide, .of_le (by decide)⟩
theorem witness_AppendAddsTheSourceBits : small.reg 9 = none ∧ small.reg 10 = some ⟨List.replicate 64 true, .LE⟩ ∧
    small.reg 1 = some ⟨bs [0,1,1], .LE⟩ ∧ small.reg 7 = some ⟨[], .LE⟩ ∧
    Exceeds small.cfg.maxBits ((List.replicate 64 true).length + (bs [0,1,1]).length) ∧
    Within small.cfg.maxBits ((List.replicate 64 true).length + ([] : List Bool).length) :=
  ⟨by decide, by decide, by decide, by decide, .of_lt (by decide), .of_le (by decide)⟩
theorem witness_ReverseKeepsValueAndIsItsOwnInverse : small.reg 9 = none ∧
    small.reg 0 = some ⟨bs [1,1,0,1], .BE⟩ ∧ small.reg 1 = some ⟨bs [0,1,1], .LE⟩ := by decide
theorem witness_InsertAndRemoveShiftTheBitsAbove : small.reg 9 = none ∧ small.reg 1 = some ⟨bs [0,1,1], .LE⟩ ∧
    (4 : Int) > (bs [0,1,1]).length ∧ 3 ≤ (bs [0,1,1]).length ∧ (3 : Int) ≥ (bs [0,1,1]).length ∧
    2 < (bs [0,1,1]).length ∧ Within small.cfg.maxBits ((bs [0,1,1]).length + 1) ∧
    small.reg 10 = some ⟨List.replicate 64 true, .LE⟩ ∧
    Exceeds small.cfg.maxBits ((List.replicate 64 true).length + 1) :=
  ⟨by decide, by decide, by decide, by decide, by decide, by decide, .of_le (by decide), by decide, .of_lt (by decide)⟩
theorem witness_CountAndEndianReadTheRegister : small.reg 9 = none ∧
    small.reg 10 = some ⟨List.replicate 64 true, .LE⟩ ∧ (List.replicate 64 true).length < 2 ^ 64 := by decide
theorem witness_PadAddsOnTheMostSignificantSide : small.reg 9 = none ∧ small.reg 0 = some ⟨bs [1,1,0,1], .BE⟩ ∧
    Exceeds small.cfg.maxBits ((bs [1,1,0,1]).length + (61 : Int).toNat) ∧
    Within small.cfg.maxBits ((bs [1,1,0,1]).length + (60 : Int).toNat) :=
  ⟨by decide, by decide, .of_lt (by decide), .of_le (by decide)⟩
theorem witness_PadToByteReachesAMultipleOfEight : small.reg 9 = none ∧ small.reg 0 = some ⟨bs [1,1,0,1], .BE⟩ ∧
    Within small.cfg.maxBits ((bs [1,1,0,1]).length + 4) ∧
    Exceeds { tiny with maxBits := some 65 }.maxBits ((List.replicate 65 true).length + 7) :=
  ⟨by decide, by decide, .of_le (by decide), .of_lt (by decide)⟩
theorem witness_TrimsRemoveTheWholeRun : small.reg 9 = none ∧ small.reg 10 = some ⟨List.replicate 64 true, .LE⟩ := by
  decide
theorem witness_TrimEndianTrimsTheMostSignificantSide : small.reg 9 = none ∧
    small.reg 0 = some ⟨bs [1,1,0,1], .BE⟩ ∧ small.reg 1 = some ⟨bs [0,1,1], .LE⟩ := by decide
theorem witness_PadThenTrimEndianRestores : small.reg 0 = some ⟨bs [1,1,0,1], .BE⟩ ∧
    (bs [1,1,0,1]).head? ≠ some false ∧ Within small.cfg.maxBits ((bs [1,1,0,1]).length + 60) ∧
    small.reg 1 = some ⟨bs [0,1,1], .LE⟩ ∧ (bs [0,1,1]).getLast? ≠ some false ∧
    small.reg 7 = some ⟨[], .LE⟩ ∧ ([] : List Bool).getLast? ≠ some false :=
  ⟨by decide, by decide, .of_le (by decide), by decide, by decide, by decide, by decide⟩
theorem witness_ToByteArrayGivesTheValueBigEndian : small.reg 9 = none ∧ small.reg 2 = some ⟨y, .LE⟩ ∧
    16 + 8 * 1 ≤ y.length ∧ (17 : Int) + 8 > y.length ∧ (16 : Int) = 8 * (2 : Nat) ∧
    Within small.cfg.bufCap 3 ∧ small.reg 10 = some ⟨List.replicate 64 true, .LE⟩ ∧
    0 + 8 * 8 ≤ (List.replicate 64 true).length ∧ Exceeds small.cfg.bufCap 8 :=
  ⟨by decide, by decide, by decide, by decide, by decide, .of_le (by decide), by decide, by decide, .of_lt (by decide)⟩
theorem witness_ToCommandsReturnTheSliceValue : (∃ p ∈ toCommands, p.2 = (8, true)) ∧
    (∃ p ∈ toCommands, p.2 = (64, false)) ∧ small.reg 9 = none ∧ small.reg 2 = some ⟨y, .LE⟩ ∧
    16 + 8 ≤ y.length ∧ (17 : Int) + 8 > y.length ∧ small.reg 10 = some ⟨List.replicate 64 true, .LE⟩ ∧
    0 + 64 ≤ (List.replicate 64 true).length :=
  ⟨⟨(.toSByte, 8, true), by simp [toCommands], rfl⟩, ⟨(.toUInt64, 64, false), by simp [toCommands], rfl⟩,
    by decide, by decide, by decide, by decide, by decide, by decide⟩
theorem witness_FromByteArrayStoresBytesLittleEndian : regs.ibuf = none ∧
    small.ibuf = some [0x41#8, 0x41#8, 0x42#8] ∧ Within small.cfg.maxBits (8 * 3) ∧
    (small.setInput (List.replicate 9 0#8)).ibuf = some (List.replicate 9 0#8) ∧
    Exceeds small.cfg.maxBits (8 * (List.replicate 9 0#8).length) :=
  ⟨rfl, rfl, .of_le (by decide), rfl, .of_lt (by decide)⟩
theorem witness_FromCommandsStoreTheValueBits : (.fromSByte, 8, -128, 127) ∈ fromCommands ∧
    (128 : Int) > 127 ∧ (-129 : Int) < -128 ∧ (-128 : Int) ≤ -128 ∧ (127 : Int) ≤ 127 := by
  simp [fromCommands]
theorem witness_ToAfterFromReturnsTheValue :
    ((.toSByte, 8, true), (.fromSByte, 8, -128, 127)) ∈ List.zip toCommands fromCommands ∧
    ((.toUInt64, 64, false), (.fromUInt64, 64, 0, 18446744073709551615)) ∈ List.zip toCommands fromCommands ∧
    (-128 : Int) ≤ 127 := by
  simp [toCommands, fromCommands]
theorem witness_MixedWidthReads :
    (.fromInt32, -2147483648, 2147483647) ∈ [(Instr.fromInt32, (-2147483648 : Int), (2147483647 : Int)),
      (Instr.fromUInt32, 0, 4294967295)] ∧
    (.fromUInt32, 0, 4294967295) ∈ [(Instr.fromInt32, (-2147483648 : Int), (2147483647 : Int)),
      (Instr.fromUInt32, 0, 4294967295)] ∧
    (-2147483648 : Int) ≤ 2147483647 ∧ (0 : Int) ≤ 4294967295 ∧
    Instr.toInt16 ∈ [Instr.toInt16, Instr.toUInt16] := by simp
theorem witness_ByteConversionRoundTrip : small.reg 2 = some ⟨y, .LE⟩ ∧ small.reg 3 = some ⟨y, .BE⟩ ∧
    y.length = 8 * 3 ∧ Within small.cfg.bufCap 3 ∧ Within small.cfg.maxBits (8 * 3) ∧
    small.ibuf = some [0x41#8, 0x41#8, 0x42#8] :=
  ⟨by decide, by decide, by decide, .of_le (by decide), .of_le (by decide), rfl⟩
theorem witness_BitwiseCommandsCombineThePrefix :
    (∃ p ∈ bitwiseCommands, p.2 true false = false) ∧ (∃ p ∈ bitwiseCommands, p.2 true true = false) ∧
    small.reg 9 = none ∧ small.reg 4 = some ⟨bs [1,1,0,0,1,1], .LE⟩ ∧ small.reg 5 = some ⟨bs [1,0,0], .BE⟩ ∧
    small.reg 1 = some ⟨bs [0,1,1], .LE⟩ ∧ small.reg 7 = some ⟨[], .LE⟩ :=
  ⟨⟨_, List.mem_cons_self, rfl⟩, ⟨_, List.mem_cons_of_mem _ (List.mem_cons_of_mem _ List.mem_cons_self), rfl⟩,
    by decide, by decide, by decide, by decide, by decide⟩
theorem witness_NotComplementsEveryBit : small.reg 9 = none ∧ small.reg 7 = some ⟨[], .LE⟩ ∧
    small.reg 0 = some ⟨bs [1,1,0,1], .BE⟩ ∧ bs [1,1,0,1] ≠ [] := by decide
theorem witness_RotatesMoveEveryBit : small.reg 9 = none ∧ small.reg 7 = some ⟨[], .LE⟩ ∧
    small.reg 6 = some ⟨bs [1,0,1,1,0], .LE⟩ ∧ bs [1,0,1,1,0] ≠ [] ∧ 2 = 7 % (bs [1,0,1,1,0]).length ∧
    0 = 5 % (bs [1,0,1,1,0]).length := by decide
theorem witness_CountersStepTheLogicalValue : small.reg 9 = none ∧ small.reg 7 = some ⟨[], .LE⟩ ∧
    small.reg 10 = some ⟨List.replicate 64 true, .LE⟩ ∧ small.reg 0 = some ⟨bs [1,1,0,1], .BE⟩ := by decide
theorem witness_BitwiseLaws : small.reg 0 = some ⟨bs [1,1,0,1], .BE⟩ ∧ bs [1,1,0,1] ≠ [] := by decide
theorem witness_EnqueueAppendsTheEntry : (65536 : Int) ≥ 2 ^ small.cfg.itemBits ∧
    (65535 : Int) < 2 ^ small.cfg.itemBits ∧ Within small.cfg.qCap (small.q.length + 1) ∧
    small.cfg.qCap = some (small.setQueue (List.replicate 256 ⟨0, 0⟩)).q.length :=
  ⟨by decide, by decide, .of_le (by decide), by decide +kernel⟩
theorem witness_DequeueTakesTheEarliestLeastWeight : regs.q = [] ∧ small.q ≠ [] ∧
    (∀ e ∈ small.q, EntryOk small.cfg e) ∧ small.cfg.itemBits ≤ 63 :=
  ⟨rfl, by decide, small_legal.entries, by decide⟩
theorem witness_QueueCountAndClear : small.q.length = 4 ∧ small.q.length < 2 ^ 64 := by decide
theorem witness_CompressReplacesTheOutputAndEmptiesTheQueue : regs.ibuf = none ∧
    small.ibuf = some [0x41#8, 0x41#8, 0x42#8] ∧
    Within small.cfg.bufCap (compress [0x41#8, 0x41#8, 0x42#8]).length ∧
    (small.setInput [1#8, 2#8, 3#8, 4#8]).ibuf = some [1#8, 2#8, 3#8, 4#8] ∧
    Exceeds small.cfg.bufCap (compress [1#8, 2#8, 3#8, 4#8]).length :=
  ⟨rfl, rfl, .of_le (by decide +kernel), rfl, .of_lt (by decide +kernel)⟩
theorem witness_HuffmanTreeIsBuiltByTheStableQueue : [0x41#8] ≠ ([] : Memory) := by decide
theorem witness_CodesArePrefixFree :
    huffmanTree [0x41#8, 0x41#8, 0x42#8] = some (.node (.leaf 0x42#8) (.leaf 0x41#8) 3) ∧
    0x42#8 ∈ ([0x41#8, 0x41#8, 0x42#8] : Memory) := by decide +kernel
theorem witness_CompressedFormAndItsSize : [0x41#8, 0x41#8] ≠ ([] : Memory) ∧
    ([0x41#8, 0x41#8] : Memory).dedup.length = 1 := by decide
/-- R70 to R74 by hand on "AAB" (`45_huffman_encoder.md` R183, C4): pad 2, tree 0 1(0x42) 1(0x41), payload 110. -/
theorem test_format_of_AAB : bufferBits [0x02#8, 0x50#8, 0xA8#8, 0x38#8] =
    bs [0,0,0,0,0,0,1,0, 0, 1,0,1,0,0,0,0,1,0, 1,0,1,0,0,0,0,0,1, 1,1,0, 0,0] := by decide
theorem witness_DecompressReplacesTheOutputOrFails : regs.ibuf = none ∧
    decompress tiny [0x08#8] = .error .corruptData ∧
    decompress tiny [0x03#8, 0xA0#8, 0x80#8] = .ok [0x41#8, 0x41#8, 0x41#8, 0x41#8] ∧
    decompress tiny [0x02#8, 0xA0#8, 0x80#8] = .error .capacityExceeded ∧
    decompress tiny [0x02#8, 0x50#8, 0xA8#8, 0x38#8] = .ok [0x41#8, 0x41#8, 0x42#8] := by decide +kernel
theorem witness_DecoderHeaderChecks : (8#8).toNat > 7 ∧ (1#8 : Byte) ≠ 0#8 := by decide
theorem witness_DecoderIgnoresThePadBits :
    ([0x50#8, 0xA8#8, 0x38#8] : Memory).length = ([0x50#8, 0xA8#8, 0x3B#8] : Memory).length ∧
    (bufferBits [0x50#8, 0xA8#8, 0x38#8]).take (8 * 3 - (2#8).toNat) =
      (bufferBits [0x50#8, 0xA8#8, 0x3B#8]).take (8 * 3 - (2#8).toNat) := by decide +kernel
/-- A whole tree with a path and a partial path, full paths, a tree cut off, and the same under a single leaf. -/
theorem witness_DecoderWalksAnyTree :
    ((bufferBits [0x50#8, 0x54#8, 0x2A#8, 0x1C#8]).take (8 * 4 - (2#8).toNat) =
        treeBits (.node (.leaf 0x41#8) (.node (.leaf 0x42#8) (.leaf 0x43#8) 0) 0) ++ [true] ∧
      symbolAt (.node (.leaf 0x41#8) (.node (.leaf 0x42#8) (.leaf 0x43#8) 0) 0) ([true] ++ [false]) =
        some 0x42#8) ∧
    ((bufferBits [0x50#8, 0xA8#8, 0x38#8]).take (8 * 3 - (2#8).toNat) =
        treeBits (.node (.leaf 0x42#8) (.leaf 0x41#8) 3) ++ [true, true, false] ∧
      ∀ x ∈ [(0x41#8, [true]), (0x41#8, [true]), (0x42#8, [false])],
        symbolAt (.node (.leaf 0x42#8) (.leaf 0x41#8) 3) x.2 = some x.1) ∧
    (bufferBits [0x50#8]).take (8 * 1 - (0#8).toNat) ++
        bs [1,0, 1,0,1,0,0,0,0,0,1] = treeBits (.node (.leaf 0x42#8) (.leaf 0x41#8) 3) ∧
    (bufferBits [0xA0#8, 0xC0#8]).take (8 * 2 - (6#8).toNat) = treeBits (.leaf 0x41#8) ++ [true] ∧
    (bufferBits [0xA0#8, 0x80#8]).take (8 * 2 - (3#8).toNat) =
      treeBits (.leaf 0x41#8) ++ List.replicate 4 false ∧
    Within tiny.nodeCap (2 * (leaves (.node (.leaf 0x42#8) (.leaf 0x41#8) 3)).length - 1) ∧
    Exceeds (some 2) (2 * (leaves (.node (.leaf 0x42#8) (.leaf 0x41#8) 3)).length - 1) ∧
    Within tiny.bufCap 4 ∧ Exceeds (some 3) 4 ∧ Exceeds (some 2) 3 :=
  ⟨⟨by decide, by decide⟩, ⟨by decide, by decide⟩, by decide, by decide, by decide, .of_le (by decide),
    .of_lt (by decide), .of_le (by decide), .of_lt (by decide), .of_lt (by decide)⟩
theorem witness_DecompressAfterCompressRestoresTheInput : ParamsOk small.cfg ∧
    small.ibuf = some [0x41#8, 0x41#8, 0x42#8] ∧ Within small.cfg.bufCap 3 ∧
    Within small.cfg.bufCap (compress [0x41#8, 0x41#8, 0x42#8]).length ∧
    (small.setInput []).ibuf = some [] ∧ Within small.cfg.bufCap (compress []).length :=
  ⟨tiny_ok, rfl, .of_le (by decide), .of_le (by decide +kernel), rfl, .of_le (by decide +kernel)⟩
theorem witness_InputArrayClearAndPush : regs.ibuf = none ∧ small.ibuf = some [0x41#8, 0x41#8, 0x42#8] ∧
    Within small.cfg.bufCap (3 + 1) ∧ smallFull.ibuf = some [0x02#8, 0x50#8, 0xA8#8, 0x38#8] ∧
    smallFull.cfg.bufCap = some 4 :=
  ⟨rfl, rfl, .of_le (by decide), rfl, rfl⟩
theorem witness_OutputArrayReads : (4 : Int) ≥ small.obuf.length ∧ 3 < small.obuf.length ∧
    (0 : Int) ≥ regs.obuf.length := by decide
theorem witness_OutputToInputAndErrorRegister : small.obuf.length < 2 ^ 64 := by decide
end Sys2Proof.Machine.Tests
end

section
/-! PROOFS. The legal states: what each update of the state needs to keep `Legal`, said once; a rule for sequences
of checks; then every command, every step, and the state after reset. -/
namespace Sys2Proof.Machine

/-! ## Each update keeps a legal state legal, under the bound it needs -/

theorem FaultKind.code_toNat_le (k : FaultKind) : k.code.toNat ≤ 8 := by cases k <;> decide

theorem Within.zero (c : Cap) : Within c 0 := fun _ _ => Nat.zero_le _

section
variable {s : State} (h : Legal s)
include h

/-- Taking commands from, or putting commands on, the host's list leaves every bound alone. -/
theorem Legal.withCmds (cs : List Command) : Legal { s with cmds := cs } :=
  { h with }

theorem Legal.setReg (r : Reg) {x : BitSeq} (hx : Within s.cfg.maxBits x.bits.length) :
    Legal (s.setReg r x) :=
  { h with
    bits := by
      intro r' x' hr
      rw [State.setReg_reg] at hr
      split at hr
      · cases hr; exact hx
      · exact h.bits r' x' hr }

theorem Legal.setInput {m : Memory} (hm : Within s.cfg.bufCap m.length) : Legal (s.setInput m) :=
  { h with
    input := by rintro _ ⟨⟩; exact hm }

theorem Legal.setOutput {m : Memory} (hm : Within s.cfg.bufCap m.length) : Legal (s.setOutput m) :=
  { h with
    output := hm }

theorem Legal.setQueue {q : List (Entry Nat)} (hl : Within s.cfg.qCap q.length)
    (he : ∀ e ∈ q, EntryOk s.cfg e) : Legal (s.setQueue q) :=
  { h with
    queueLength := hl
    entries := he }

theorem Legal.clearErr : Legal s.clearErr :=
  { h with
    err := Nat.zero_le _ }

/-- A response OK may carry any two words (R59). -/
theorem Legal.answer (r0 r1 : Word64) : Legal (s.answer r0 r1) :=
  { h with
    resp := by rintro _ ⟨⟩; exact ⟨Nat.zero_le _, fun hs => absurd rfl hs⟩ }

/-- Fault entry writes a code of R221, and both words 0 (R226). -/
theorem Legal.enterFault (k : FaultKind) : Legal (s.enterFault k) :=
  { h with
    err := by
      rw [State.enterFault_err]
      split
      · exact k.code_toNat_le
      · exact h.err
    resp := by rintro _ ⟨⟩; exact ⟨k.code_toNat_le, fun _ => ⟨rfl, rfl⟩⟩ }

/-- The value of a register that a command has read fits MAXBITS (R22). -/
theorem Legal.within_of_need {r : Reg} {x : BitSeq} (hx : need s r = .ok x) :
    Within s.cfg.maxBits x.bits.length := h.bits r x ((need_eq_ok s r x).mp hx)

/-- A register takes what is no longer than a length that `fits` has admitted (R80). -/
theorem Legal.setReg_of_fits (r : Reg) {x : BitSeq} {n : Nat} {u : Unit} (hfit : fits s n = .ok u)
    (hx : x.bits.length ≤ n) : Legal (s.setReg r x) :=
  h.setReg r (((fits_eq_ok s n u).mp hfit).mono hx)

/-- A register takes what is no longer than the value of a register that the command has read. -/
theorem Legal.setReg_of_need (r : Reg) {x y : BitSeq} {r' : Reg} (hy : need s r' = .ok y)
    (hx : x.bits.length ≤ y.bits.length) : Legal (s.setReg r x) :=
  h.setReg r ((h.within_of_need hy).mono hx)

/-- A queue without one of its entries stays legal (R162). -/
theorem Legal.setQueue_of_dequeue {e : Entry Nat} {q : List (Entry Nat)}
    (hq : dequeue s.q = some (e, q)) : Legal (s.setQueue q) := by
  obtain ⟨before, after, hs, rfl, -⟩ := dequeue_spec _ _ _ hq
  refine h.setQueue (h.queueLength.mono ?_) fun x hx => h.entries x ?_
  · simp [hs]
  · rw [hs]
    rcases List.mem_append.mp hx with hb | ha
    · exact List.mem_append_left _ hb
    · exact List.mem_append_right _ (List.mem_cons_of_mem _ ha)

/-- ENQUEUE's checks are what the entry it appends needs (R29, R161). -/
theorem Legal.setQueue_enqueue {item weight : Int} (hi : 0 ≤ item ∧ item ≤ 2 ^ s.cfg.itemBits - 1)
    (hw : -(2 ^ 31) ≤ weight ∧ weight ≤ 2 ^ 31 - 1) (hl : Within s.cfg.qCap (s.q.length + 1)) :
    Legal (s.setQueue (enqueue s.q item.toNat weight)) := by
  have hitem : item.toNat < 2 ^ s.cfg.itemBits := by zify; omega
  refine h.setQueue (by simpa [enqueue] using hl) fun e he => ?_
  rcases List.mem_append.mp he with hq | hnew
  · exact h.entries e hq
  · obtain rfl := List.mem_singleton.mp hnew
    exact ⟨hitem, hw⟩

end

/-! ## Commands that leave legal states -/

/-- If these checks and this update complete, the updated state is legal. -/
def LeavesLegal (body : Except FaultKind Result) : Prop := ∀ r, body = .ok r → Legal r.state

/-- A command answers with no state that is not legal. -/
def KeepsLegal (o : Out) : Prop := ∀ t, o = .next t → Legal t

theorem LeavesLegal.done {s : State} (h : Legal s) : LeavesLegal (done s) := by
  rintro _ ⟨⟩; exact h

theorem LeavesLegal.returning {s : State} (h : Legal s) (r0 r1 : Word64) :
    LeavesLegal (returning s r0 r1) := by
  rintro _ ⟨⟩; exact h

theorem LeavesLegal.error (k : FaultKind) : LeavesLegal (.error k) := nofun

/-- What follows a check may use what the check has found. -/
theorem LeavesLegal.bind {α : Type} {x : Except FaultKind α} {f : α → Except FaultKind Result}
    (hf : ∀ a, x = .ok a → LeavesLegal (f a)) : LeavesLegal (x >>= f) := by
  intro r hr
  obtain ⟨a, hx, hfa⟩ := (bind_eq_ok_iff x f r).mp hr
  exact hf a hx r hfa

/-- A command run from a legal state answers, or enters its fault, in a legal state. -/
theorem run_keepsLegal {s : State} {body : Except FaultKind Result} (h : Legal s)
    (hb : LeavesLegal body) : KeepsLegal (run s body) := by
  intro t ht
  rcases (run_next_iff s body t).mp ht with ⟨r, hr, rfl⟩ | ⟨k, -, rfl⟩
  · exact (hb r hr).answer r.r0 r.r1
  · exact h.enterFault k

/-! ## The checks and operations that several commands share -/

theorem valueWithin_eq_ok (v lo hi : Int) (u : Unit) : valueWithin v lo hi = .ok u ↔ lo ≤ v ∧ v ≤ hi := by
  simp only [valueWithin, raiseIf_eq_ok]; omega

section
variable {s : State} (h : Legal s)
include h

/-- A command that reads one register and replaces `rd` by no longer a value (R36). -/
theorem updateReg_leavesLegal (rd rs : Reg) (f : BitSeq → BitSeq)
    (hf : ∀ x, (f x).bits.length ≤ x.bits.length) :
    LeavesLegal (need s rs >>= fun x => done (s.setReg rd (f x))) :=
  .bind fun x hx => .done (h.setReg_of_need rd hx (hf x))

/-- AND, OR and XOR: the result is as long as the longer operand (R140). -/
theorem bitwise_keepsLegal (op : Bool → Bool → Bool) (rd rs1 rs2 : Reg) :
    KeepsLegal (bitwise op rd rs1 rs2 s) := by
  refine run_keepsLegal h <| .bind fun a ha => .bind fun b hb => .bind fun _ _ => .bind fun _ _ =>
    .done (h.setReg rd ?_)
  rw [combine_length]
  rcases Nat.le_total a.bits.length b.bits.length with hab | hab
  · rw [Nat.max_eq_right hab]; exact h.within_of_need hb
  · rw [Nat.max_eq_left hab]; exact h.within_of_need ha

/-- ROL and ROR keep Count (R145). -/
theorem rotate_keepsLegal {f : BitSeq → Nat → BitSeq}
    (hf : ∀ x n, (f x n).bits.length = x.bits.length) (rd rs1 : Reg) (n : Int) :
    KeepsLegal (rotate f rd rs1 n s) :=
  run_keepsLegal h <| .bind fun x hx => .bind fun _ _ => .bind fun k _ =>
    .done (h.setReg_of_need rd hx (hf x k).le)

/-- INC and DEC keep Count (R150). -/
theorem counter_keepsLegal {f : List Bool → List Bool} (hf : ∀ s, (f s).length = s.length)
    (rd rs1 : Reg) : KeepsLegal (counter f rd rs1 s) :=
  run_keepsLegal h <| .bind fun x hx => .bind fun _ _ =>
    .done (h.setReg_of_need rd hx (x.counted_length f hf).le)

/-- The TO commands change no state (R111). -/
theorem toInteger_keepsLegal (w : Nat) (sg : Sign) (rs1 : Reg) (offset : Int) :
    KeepsLegal (toInteger w sg rs1 offset s) := by
  refine run_keepsLegal h <| .bind fun x _ => .bind fun _ _ => .bind fun _ _ => ?_
  cases sg
  · exact .returning h _ _
  · exact .returning h _ _

/-- The FROM commands write at most 64 bits, which MAXBITS always admits (R6, R121). -/
theorem fromInteger_keepsLegal {w : Nat} (hw : w ≤ 64) (sg : Sign) (rd : Reg) (v : Int) :
    KeepsLegal (fromInteger w sg rd v s) :=
  run_keepsLegal h <| .bind fun _ _ =>
    .done (h.setReg rd (h.params.maxBits.mono ((lowBits_length w v).trans_le hw)))

/-! ## Every command -/

/-- Every command keeps a legal state legal: the checks it makes are the bounds its update needs. -/
theorem exec_keepsLegal (i : Instr) : KeepsLegal (exec i s) := by
  cases i with
  | construct rd e n =>
    exact run_keepsLegal h <| .bind fun k _ => .bind fun _ hfit =>
      .done (h.setReg_of_fits rd hfit List.length_replicate.le)
  | constructA rd e =>
    exact run_keepsLegal h <| .bind fun m _ => .bind fun _ hfit =>
      .done (h.setReg_of_fits rd hfit (boolArray_length m).le)
  | copy rd rs1 => exact run_keepsLegal h <| updateReg_leavesLegal h rd rs1 id fun _ => le_rfl
  | get rs1 k => exact run_keepsLegal h <| .bind fun _ _ => .bind fun _ _ => .returning h _ _
  | set rd b k =>
    exact run_keepsLegal h <| .bind fun x hx => .bind fun i _ =>
      .done (h.setReg_of_need rd hx (x.setBit_length i b).le)
  | add rd b =>
    exact run_keepsLegal h <| .bind fun x _ => .bind fun _ hfit =>
      .done (h.setReg_of_fits rd hfit (x.appendBits_length [b]).le)
  | flip rd k =>
    exact run_keepsLegal h <| .bind fun x hx => .bind fun i _ =>
      .done (h.setReg_of_need rd hx (x.flipBit_length i).le)
  | reverse rd =>
    exact run_keepsLegal h <| updateReg_leavesLegal h rd rd _ fun x => List.length_reverse.le
  | insert rd b k =>
    exact run_keepsLegal h <| .bind fun x _ => .bind fun i hi => .bind fun _ hfit =>
      have hi : i ≤ x.bits.length := Nat.le_of_lt_succ ((indexBelow_eq_ok _ _ _).mp hi).2
      .done (h.setReg_of_fits rd hfit (x.insertBit_length i b hi).le)
  | remove rd k =>
    exact run_keepsLegal h <| .bind fun x hx => .bind fun i hi =>
      have hlen := x.removeBit_length i ((indexBelow_eq_ok _ _ _).mp hi).2
      .done (h.setReg_of_need rd hx (by omega))
  | append rd rs1 =>
    exact run_keepsLegal h <| .bind fun x _ => .bind fun y _ => .bind fun _ hfit =>
      .done (h.setReg_of_fits rd hfit (x.appendBits_length y.bits).le)
  | count rs1 => exact run_keepsLegal h <| .bind fun _ _ => .returning h _ _
  | endian rs1 => exact run_keepsLegal h <| .bind fun _ _ => .returning h _ _
  | pad rd b n =>
    exact run_keepsLegal h <| .bind fun x _ => .bind fun k _ => .bind fun _ hfit =>
      .done (h.setReg_of_fits rd hfit (x.padded_length b k).le)
  | padToByte rd =>
    exact run_keepsLegal h <| .bind fun x _ => .bind fun _ hfit =>
      .done (h.setReg_of_fits rd hfit (x.padded_length false _).le)
  | trimStart rd b =>
    exact run_keepsLegal h <| updateReg_leavesLegal h rd rd _ (·.trimmedStart_length_le b)
  | trimEnd rd b =>
    exact run_keepsLegal h <| updateReg_leavesLegal h rd rd _ (·.trimmedEnd_length_le b)
  | trimEndian rd b =>
    exact run_keepsLegal h <| updateReg_leavesLegal h rd rd _ (·.trimmedEndian_length_le b)
  | toByteArray rs1 n o =>
    refine run_keepsLegal h <| .bind fun x _ => .bind fun _ hn => .bind fun _ ho => .bind fun _ hfit =>
      .returning (h.setOutput ?_) _ _
    have hin : o.toNat + n.toNat ≤ x.bits.length := by
      have hn := (raiseIf_eq_ok _ _ _).mp hn
      have ho := (raiseIf_eq_ok _ _ _).mp ho
      simp only [BitSeq.count] at ho; omega
    rw [bytesOf_length, slice_length _ _ _ hin]
    exact (fitsBuffer_eq_ok s _ _).mp hfit
  | toByte rs1 o => exact toInteger_keepsLegal h 8 .unsigned rs1 o
  | toSByte rs1 o => exact toInteger_keepsLegal h 8 .signed rs1 o
  | toInt16 rs1 o => exact toInteger_keepsLegal h 16 .signed rs1 o
  | toUInt16 rs1 o => exact toInteger_keepsLegal h 16 .unsigned rs1 o
  | toInt32 rs1 o => exact toInteger_keepsLegal h 32 .signed rs1 o
  | toUInt32 rs1 o => exact toInteger_keepsLegal h 32 .unsigned rs1 o
  | toInt64 rs1 o => exact toInteger_keepsLegal h 64 .signed rs1 o
  | toUInt64 rs1 o => exact toInteger_keepsLegal h 64 .unsigned rs1 o
  | fromByteArray rd =>
    exact run_keepsLegal h <| .bind fun m _ => .bind fun _ hfit =>
      .done (h.setReg_of_fits rd hfit (unpackLsb_length m).le)
  | fromByte rd v => exact fromInteger_keepsLegal h (w := 8) (by decide) _ _ _
  | fromSByte rd v => exact fromInteger_keepsLegal h (w := 8) (by decide) _ _ _
  | fromInt16 rd v => exact fromInteger_keepsLegal h (w := 16) (by decide) _ _ _
  | fromUInt16 rd v => exact fromInteger_keepsLegal h (w := 16) (by decide) _ _ _
  | fromInt32 rd v => exact fromInteger_keepsLegal h (w := 32) (by decide) _ _ _
  | fromUInt32 rd v => exact fromInteger_keepsLegal h (w := 32) (by decide) _ _ _
  | fromInt64 rd v => exact fromInteger_keepsLegal h (w := 64) (by decide) _ _ _
  | fromUInt64 rd v => exact fromInteger_keepsLegal h (w := 64) (by decide) _ _ _
  | and rd rs1 rs2 => exact bitwise_keepsLegal h _ _ _ _
  | or rd rs1 rs2 => exact bitwise_keepsLegal h _ _ _ _
  | xor rd rs1 rs2 => exact bitwise_keepsLegal h _ _ _ _
  | not rd rs1 =>
    exact run_keepsLegal h <| .bind fun x hx => .bind fun _ _ =>
      .done (h.setReg_of_need rd hx x.complement_length.le)
  | rol rd rs1 n => exact rotate_keepsLegal h BitSeq.rotatedLeft_length _ _ _
  | ror rd rs1 n => exact rotate_keepsLegal h BitSeq.rotatedRight_length _ _ _
  | inc rd rs1 => exact counter_keepsLegal h incBits_length _ _
  | dec rd rs1 => exact counter_keepsLegal h decBits_length _ _
  | enqueue v w =>
    exact run_keepsLegal h <| .bind fun _ hv => .bind fun _ hw => .bind fun _ hl =>
      .done (h.setQueue_enqueue ((valueWithin_eq_ok ..).mp hv) ((valueWithin_eq_ok ..).mp hw)
        ((admits_iff_within _ _).mp (by simpa using (raiseIf_eq_ok ..).mp hl)))
  | dequeue =>
    refine run_keepsLegal h ?_
    split
    · exact .error _
    · next e q hq => exact .returning (h.setQueue_of_dequeue hq) _ _
  | qcount => exact run_keepsLegal h (.returning h _ _)
  | qclear => exact run_keepsLegal h (.done (h.setQueue (.zero _) (by simp)))
  | compress =>
    exact run_keepsLegal h <| .bind fun m _ => .bind fun _ hfit =>
      .returning ((h.setOutput ((fitsBuffer_eq_ok s _ _).mp hfit)).setQueue (.zero _) (by simp)) _ _
  | decompress =>
    exact run_keepsLegal h <| .bind fun m _ => .bind fun out _ => .bind fun _ hfit =>
      .returning (h.setOutput ((fitsBuffer_eq_ok s _ _).mp hfit)) _ _
  | ibclr => exact run_keepsLegal h (.done (h.setInput (.zero _)))
  | ibpush v =>
    exact run_keepsLegal h <| .bind fun m _ => .bind fun _ _ => .bind fun _ hfit =>
      .done (h.setInput (by simpa [Memory.push] using (fitsBuffer_eq_ok s _ _).mp hfit))
  | obrd k =>
    refine run_keepsLegal h ?_
    split
    · exact .error _
    · split
      · exact .error _
      · exact .returning h _ _
  | olenr => exact run_keepsLegal h (.returning h _ _)
  | obtoib => exact run_keepsLegal h (.returning (h.setInput h.output) _ _)
  | rderr => exact run_keepsLegal h (.returning h _ _)
  | clrerr => exact run_keepsLegal h (.done h.clearErr)

/-- Every step keeps a legal state legal: it waits, runs a command, or takes an illegal one. -/
theorem step_keepsLegal : KeepsLegal (step s) := by
  cases hc : s.cmds with
  | nil =>
    rw [step, fetch_nil s hc]
    rintro _ ⟨⟩; exact h
  | cons c rest =>
    rw [step, fetch_cons s c rest hc]
    dsimp only
    split
    · exact exec_keepsLegal (h.withCmds rest) _
    · exact run_keepsLegal (h.withCmds rest) (.error _)

end

/-! ## Reset -/

theorem paramsOk_default : ParamsOk Params.default where
  maxBits := .of_le (by decide)
  bufCap := .of_le (by decide)
  bufCapSmall := by rintro _ ⟨⟩; decide
  qCap := .of_le (by decide)
  nodeCap := .of_le (by decide)
  itemBits := by decide

/-- After reset every register and array is null or empty, so only the parameters have a bound to meet. -/
theorem resetWith_legal {p : Params} (hp : ParamsOk p) : Legal (State.resetWith p) where
  params := hp
  bits := by simp
  input := nofun
  output := .zero _
  queueLength := .zero _
  entries := nofun
  err := Nat.zero_le _
  resp := nofun

/-! ## The statements -/

/-- Settles O3: each command's own checks are the bounds its update needs. -/
theorem everyStepKeepsLegalStates : Obligations.EveryStepKeepsLegalStates :=
  fun _ t h ht => step_keepsLegal h t ht

/-- Settles O2, at the default parameters of R6 and at any others R6 allows. -/
theorem resetStateIsLegal : Obligations.ResetStateIsLegal :=
  ⟨resetWith_legal paramsOk_default, fun _ hp => resetWith_legal hp⟩

end Sys2Proof.Machine
end

section
/-! PROOFS. The logical value of a bit list as a weighted sum (R13), and the integer conversions: the value of a
slice extended to 64 bits (R111), the bits of a value (R121). -/
namespace Sys2Proof.Machine

/-! ## The logical value (R13) -/

/-- Index 0 weighs 1, and every later index twice the one before it. -/
theorem valLsb_eq_sum (s : List Bool) :
    valLsb s = ∑ i ∈ Finset.range s.length, (s.getD i false).toNat * 2 ^ i := by
  induction s with
  | nil => rfl
  | cons b s ih =>
    rw [valLsb_cons, List.length_cons, Finset.sum_range_succ', ih, Finset.mul_sum, Nat.add_comm]
    congr 1
    · exact Finset.sum_congr rfl fun i _ => by rw [List.getD_cons_succ, Nat.pow_succ]; ring
    · simp

/-- Read from the other end, index i weighs what index n - 1 - i did. -/
theorem valLsb_reverse_eq_sum (s : List Bool) :
    valLsb s.reverse = ∑ i ∈ Finset.range s.length, (s.getD i false).toNat * 2 ^ (s.length - 1 - i) := by
  rw [valLsb_eq_sum, List.length_reverse, ← Finset.sum_range_reflect]
  refine Finset.sum_congr rfl fun i hi => ?_
  have hlt : i < s.length := Finset.mem_range.mp hi
  have hbit : s.reverse.getD (s.length - 1 - i) false = s.getD i false := by
    rw [List.getD_eq_getElem?_getD, List.getElem?_reverse (by omega), ← List.getD_eq_getElem?_getD]
    congr 1; omega
  rw [hbit]

/-- Settles O18: the LE sum by induction on the bits, the BE sum as the LE sum of the reversed bits. -/
theorem logicalValueIsTheWeightedSum : Obligations.LogicalValueIsTheWeightedSum :=
  fun s => ⟨valLsb_eq_sum s, valLsb_reverse_eq_sum s⟩

/-- A value fits its number of bits, under either tag. -/
theorem BitSeq.val_lt (x : BitSeq) : x.val < 2 ^ x.bits.length := by
  obtain ⟨s, tag⟩ := x
  cases tag with
  | LE => exact valLsb_lt s
  | BE => exact (valLsb_lt s.reverse).trans_eq (by rw [List.length_reverse])

/-! ## The TO commands (R111) -/

/-- The word a TO command returns for the value `v` of its `w` bits. -/
def extended (sg : Sign) (w v : Nat) : Word64 :=
  match sg with
  | .signed => sext64 w v
  | .unsigned => zext64 v

theorem extended_unsigned_toNat {w v : Nat} (hw : w ≤ 64) (hv : v < 2 ^ w) :
    (extended .unsigned w v).toNat = v := by
  have h64 : v < 2 ^ 64 := hv.trans_le (Nat.pow_le_pow_right (by decide) hw)
  exact (BitVec.toNat_ofNat v 64).trans (Nat.mod_eq_of_lt h64)

theorem extended_signed_toInt {w v : Nat} (hpos : 0 < w) (hw : w ≤ 64) (hv : v < 2 ^ w) :
    (extended .signed w v).toInt = if v < 2 ^ (w - 1) then (v : Int) else (v : Int) - 2 ^ w := by
  have hiff : 2 * v < 2 ^ w ↔ v < 2 ^ (w - 1) := by rw [← Nat.two_pow_pred_mul_two hpos]; omega
  show (sext64 w v).toInt = _
  rw [sext64, BitVec.toInt_signExtend_of_le hw, BitVec.toInt_eq_toNat_cond, BitVec.toNat_ofNat,
    Nat.mod_eq_of_lt hv]
  simp only [hiff, Nat.cast_pow, Nat.cast_ofNat]

section
variable {s : State} {rs1 : Reg} {x : BitSeq} (w : Nat) (sg : Sign)

theorem toInteger_of_null (h : s.reg rs1 = none) (o : Int) :
    toInteger w sg rs1 o s = .next (faultState s 4#8) := by
  rw [toInteger, need_none s rs1 h]; rfl

theorem toInteger_of_neg (h : s.reg rs1 = some x) {o : Int} (ho : o < 0) :
    toInteger w sg rs1 o s = .next (faultState s 1#8) := by
  rw [toInteger, need_some s rs1 x h, ok_bind, raiseIf_of_true _ _ ho]; rfl

theorem toInteger_of_beyond (h : s.reg rs1 = some x) {o : Int} (ho : 0 ≤ o)
    (hw : o + w > x.count) : toInteger w sg rs1 o s = .next (faultState s 2#8) := by
  rw [toInteger, need_some s rs1 x h, ok_bind, raiseIf_of_false _ _ (not_lt.mpr ho), ok_bind,
    raiseIf_of_true _ _ hw]; rfl

theorem toInteger_of_inside (h : s.reg rs1 = some x) {a : Nat} (ha : a + w ≤ x.bits.length) :
    toInteger w sg rs1 a s =
      .next (okState s (extended sg w (BitSeq.mk (slice x.bits a w) x.tag).val) 0#64) := by
  have hin : ¬ ((a : Int) + w > x.count) := by simp only [BitSeq.count]; omega
  rw [toInteger, need_some s rs1 x h, ok_bind, raiseIf_of_false _ _ (by omega), ok_bind,
    raiseIf_of_false _ _ hin, ok_bind]
  cases sg <;> rfl

end

/-- The sign of a table row of the TO commands. -/
def signOf (signed : Bool) : Sign := if signed then .signed else .unsigned

/-- Each row of the table is the common rule at its width and sign (R112 to R119). -/
theorem exec_of_mem_toCommands : ∀ p ∈ toCommands, (0 < p.2.1 ∧ p.2.1 ≤ 64) ∧
    ∀ rs1 o s, exec (p.1 rs1 o) s = toInteger p.2.1 (signOf p.2.2) rs1 o s := by
  simp only [toCommands, List.forall_mem_cons, List.not_mem_nil, false_imp_iff, implies_true, and_true]
  exact ⟨⟨by decide, fun _ _ _ => rfl⟩, ⟨by decide, fun _ _ _ => rfl⟩, ⟨by decide, fun _ _ _ => rfl⟩,
    ⟨by decide, fun _ _ _ => rfl⟩, ⟨by decide, fun _ _ _ => rfl⟩, ⟨by decide, fun _ _ _ => rfl⟩,
    ⟨by decide, fun _ _ _ => rfl⟩, by decide, fun _ _ _ => rfl⟩

/-- Settles O34: the common rule's four cases, at the width and sign of each row. -/
theorem toCommandsReturnTheSliceValue : Obligations.ToCommandsReturnTheSliceValue := by
  intro p hp s rs1 o
  obtain ⟨⟨hpos, hw⟩, hexec⟩ := exec_of_mem_toCommands p hp
  simp only [hexec]
  refine ⟨fun h => toInteger_of_null _ _ h o, fun x h => ⟨fun ho => toInteger_of_neg _ _ h ho,
    fun ho hb => toInteger_of_beyond _ _ h ho hb, ?_⟩⟩
  rintro a rfl ha
  refine ⟨_, toInteger_of_inside _ _ h ha, ?_⟩
  have hlt : (BitSeq.mk (slice x.bits a p.2.1) x.tag).val < 2 ^ p.2.1 := by
    simpa only [slice_length _ _ _ ha] using BitSeq.val_lt ⟨slice x.bits a p.2.1, x.tag⟩
  constructor
  · intro hu
    rw [hu]
    exact extended_unsigned_toNat hw hlt
  · rintro hs _ rfl
    rw [hs]
    exact extended_signed_toInt hpos hw hlt

/-! ## The FROM commands (R121) -/

/-- The bits of a number below `w`, weighed, are the number mod 2^w. -/
theorem valLsb_map_testBit (n w : Nat) : valLsb ((List.range w).map n.testBit) = n % 2 ^ w := by
  induction w with
  | zero => simp [Nat.mod_one]
  | succ w ih =>
    have hbit : (n.testBit w).toNat = n / 2 ^ w % 2 := by rw [Nat.toNat_testBit]
    rw [List.range_succ, List.map_append, valLsb_append, ih]
    simp [hbit, Nat.pow_succ, Nat.mod_mul]

/-- Reducing mod 2^w leaves the bits below `w`. -/
theorem emod_two_pow_ediv_emod_two {w i : Nat} (hi : i < w) (v : Int) :
    v % 2 ^ w / 2 ^ i % 2 = v / 2 ^ i % 2 := by
  obtain ⟨k, rfl⟩ : ∃ k, w = i + 1 + k := ⟨w - (i + 1), by omega⟩
  calc v % 2 ^ (i + 1 + k) / 2 ^ i % 2
      = (v % 2 ^ (i + 1 + k) / 2 ^ i + 2 * (2 ^ k * (v / 2 ^ (i + 1 + k)))) % 2 := by
        rw [Int.add_mul_emod_self_left]
    _ = (v % 2 ^ (i + 1 + k) + 2 ^ i * (2 * (2 ^ k * (v / 2 ^ (i + 1 + k))))) / 2 ^ i % 2 := by
        rw [Int.add_mul_ediv_left _ _ (by positivity)]
    _ = (v % 2 ^ (i + 1 + k) + 2 ^ (i + 1 + k) * (v / 2 ^ (i + 1 + k))) / 2 ^ i % 2 := by
        rw [pow_add _ (i + 1), pow_succ, mul_assoc, mul_assoc, mul_assoc]
    _ = v / 2 ^ i % 2 := by rw [Int.emod_add_mul_ediv]

/-- A two's complement pattern, unsigned, is the value mod 2^w (R15). -/
theorem ofInt_toNat (w : Nat) (v : Int) : ((BitVec.ofInt w v).toNat : Int) = v % 2 ^ w := by
  rw [BitVec.toNat_ofInt, Nat.cast_pow, Nat.cast_ofNat]
  exact Int.toNat_of_nonneg (Int.emod_nonneg v (by positivity))

/-- Bit i of a two's complement pattern is bit i of the value (R15). -/
theorem ofInt_getLsbD {w i : Nat} (hi : i < w) (v : Int) :
    (BitVec.ofInt w v).getLsbD i = decide (v / 2 ^ i % 2 = 1) := by
  have hbit : (BitVec.ofInt w v).toNat / 2 ^ i % 2 = 1 ↔ v / 2 ^ i % 2 = 1 := by
    rw [← emod_two_pow_ediv_emod_two hi v, ← ofInt_toNat]; norm_cast
  rw [← BitVec.testBit_toNat, Nat.testBit_eq_decide_div_mod_eq]
  exact decide_eq_decide.mpr hbit

theorem lowBits_getElem? {w i : Nat} (hi : i < w) (v : Int) :
    (lowBits w v)[i]? = some (decide (v / 2 ^ i % 2 = 1)) := by
  rw [lowBits, List.getElem?_map, List.getElem?_range hi, Option.map_some, ofInt_getLsbD hi]

/-- The stored bits' value is the given value mod 2^w (R121). -/
theorem lowBits_val (w : Nat) (v : Int) : ((BitSeq.mk (lowBits w v) .LE).val : Int) = v % 2 ^ w := by
  have hval : valLsb (lowBits w v) = (BitVec.ofInt w v).toNat := by
    simp only [lowBits, ← BitVec.testBit_toNat]
    exact (valLsb_map_testBit _ w).trans (Nat.mod_eq_of_lt (BitVec.isLt _))
  show (valLsb (lowBits w v) : Int) = _
  rw [hval, ofInt_toNat]

section
variable {w : Nat} {sg : Sign} {v : Int}

theorem fromInteger_of_outside (h : v < (typeRange sg w).1 ∨ v > (typeRange sg w).2) (rd : Reg)
    (s : State) : fromInteger w sg rd v s = .next (faultState s 3#8) := by
  rw [fromInteger, valueWithin, raiseIf_of_true _ _ h]; rfl

theorem fromInteger_of_inside (h : (typeRange sg w).1 ≤ v ∧ v ≤ (typeRange sg w).2) (rd : Reg)
    (s : State) :
    fromInteger w sg rd v s = .next (okState (withReg s rd (lowBits w v) .LE) 0#64 0#64) := by
  rw [fromInteger, valueWithin, raiseIf_of_false _ _ (by omega)]; rfl

end

/-- Each row of the table is the common rule at its width, and its range that of its type (R122 to R129). -/
theorem exec_of_mem_fromCommands : ∀ p ∈ fromCommands, ∃ sg, typeRange sg p.2.1 = p.2.2 ∧
    ∀ rd v s, exec (p.1 rd v) s = fromInteger p.2.1 sg rd v s := by
  simp only [fromCommands, List.forall_mem_cons, List.not_mem_nil, false_imp_iff, implies_true, and_true]
  exact ⟨⟨.unsigned, by decide, fun _ _ _ => rfl⟩, ⟨.signed, by decide, fun _ _ _ => rfl⟩,
    ⟨.signed, by decide, fun _ _ _ => rfl⟩, ⟨.unsigned, by decide, fun _ _ _ => rfl⟩,
    ⟨.signed, by decide, fun _ _ _ => rfl⟩, ⟨.unsigned, by decide, fun _ _ _ => rfl⟩,
    ⟨.signed, by decide, fun _ _ _ => rfl⟩, .unsigned, by decide, fun _ _ _ => rfl⟩

/-- Settles O36: the common rule's two cases, at the width and type of each row. -/
theorem fromCommandsStoreTheValueBits : Obligations.FromCommandsStoreTheValueBits := by
  intro p hp s rd v
  obtain ⟨sg, hrange, hexec⟩ := exec_of_mem_fromCommands p hp
  simp only [hexec, ← hrange]
  exact ⟨fun h => fromInteger_of_outside h rd s, fun hlo hhi => ⟨lowBits p.2.1 v, lowBits_length _ _,
    fun i hi => lowBits_getElem? hi v, lowBits_val _ _, fromInteger_of_inside ⟨hlo, hhi⟩ rd s⟩⟩

end Sys2Proof.Machine
end

section
/-! PROOFS. The Huffman tree of an input holds every byte of it, and a code is the path to its byte's leaf: so no
code is empty or begins another (R18, R175). -/
namespace Sys2Proof.Machine

/-! ## The leaves of the tree (R172, R173) -/

/-- The symbols at the leaves of all trees in a queue. -/
def queueLeaves (q : List (Entry Tree)) : List Byte := q.flatMap fun e => leaves e.item

/-- What a dequeue takes and what it leaves hold the symbols that were there. -/
theorem TakesLeast.queueLeaves_perm {q rest : List (Entry Tree)} {e : Entry Tree}
    (h : TakesLeast q e rest) : (queueLeaves q).Perm (leaves e.item ++ queueLeaves rest) := by
  obtain ⟨before, after, rfl, rfl, -⟩ := h
  exact List.perm_middle.flatMap_right _

/-- The combine loop moves every symbol into the tree, and loses or doubles none (R173). -/
theorem CombinesTo.leaves_perm {q : List (Entry Tree)} {root : Tree} (h : CombinesTo q root) :
    (leaves root).Perm (queueLeaves q) := by
  induction h with
  | root e => simp [queueLeaves]
  | combine q q1 q2 x y root hx hy _ ih =>
    calc List.Perm (leaves root) (queueLeaves q2 ++ (leaves x.item ++ leaves y.item)) := by
          simpa [queueLeaves, leaves] using ih
      List.Perm _ (leaves x.item ++ (leaves y.item ++ queueLeaves q2)) := by
          rw [← List.append_assoc (leaves x.item)]; exact List.perm_append_comm
      List.Perm _ (leaves x.item ++ queueLeaves q1) := hy.queueLeaves_perm.symm.append_left _
      List.Perm _ (queueLeaves q) := hx.queueLeaves_perm.symm

theorem combinesTo_of_huffmanTree {b : Memory} {root : Tree} (h : huffmanTree b = some root) :
    CombinesTo (seedQueue b) root := combinesTo_of_combineLoop _ _ rfl root h

/-- Every byte of the input has a seed (R172). -/
theorem mem_queueLeaves_seedQueue {b : Memory} {v : Byte} (hv : v ∈ b) :
    v ∈ queueLeaves (seedQueue b) := by
  have hseed : (⟨.leaf v, freq b v⟩ : Entry Tree) ∈ seedQueue b := by
    refine List.mem_filterMap.mpr ⟨v.toNat, List.mem_range.mpr v.isLt, ?_⟩
    have hpos : freq b v > 0 := List.count_pos_iff.mpr hv
    simp [hpos]
  exact List.mem_flatMap.mpr ⟨_, hseed, List.mem_singleton_self v⟩

/-- Every byte of the input is a leaf of its tree. -/
theorem mem_leaves_of_huffmanTree {b : Memory} {root : Tree} (h : huffmanTree b = some root) {v : Byte}
    (hv : v ∈ b) : v ∈ leaves root :=
  (combinesTo_of_huffmanTree h).leaves_perm.mem_iff.mpr (mem_queueLeaves_seedQueue hv)

/-! ## Paths and codes (R175) -/

/-- A path that has reached a leaf goes no further, so a path that it begins is the same path. -/
theorem symbolAt_append {t : Tree} {p q : List Bool} {u v : Byte} (hu : symbolAt t p = some u)
    (hv : symbolAt t (p ++ q) = some v) : u = v := by
  fun_induction symbolAt t p with
  | case1 w =>
    cases q with
    | nil => exact Option.some.inj (hu.symm.trans hv)
    | cons x q => cases hv
  | case2 | case3 => cases hu
  | case4 l r w p ih | case5 l r w p ih => exact ih hu hv

/-- A table lookup of a symbol that is there gives one of its entries. -/
theorem exists_lookup_of_mem_map_fst {l : List (Byte × List Bool)} {v : Byte} (hv : v ∈ l.map Prod.fst) :
    ∃ p, l.lookup v = some p ∧ (v, p) ∈ l := by
  obtain ⟨⟨u, c⟩, hmem, rfl⟩ := List.mem_map.mp hv
  have hsome : (l.lookup u).isSome := List.lookup_isSome_iff.mpr ⟨_, hmem, beq_self_eq_true u⟩
  obtain ⟨p, hp⟩ := Option.isSome_iff_exists.mp hsome
  obtain ⟨l₁, l₂, rfl, -⟩ := List.lookup_eq_some_iff.mp hp
  exact ⟨p, hp, List.mem_append_right _ List.mem_cons_self⟩

@[simp] theorem codeOf_leaf (v : Byte) : codeOf (.leaf v) v = [false] := by simp [codeOf, codeTable]

/-- Under an internal root, a leaf's code is a path to it. -/
theorem symbolAt_codeOf_node {l r : Tree} {w : Int} {v : Byte} (hv : v ∈ leaves (.node l r w)) :
    symbolAt (.node l r w) (codeOf (.node l r w) v) = some v := by
  rw [← codes_map_fst _ []] at hv
  obtain ⟨p, hp, hmem⟩ := exists_lookup_of_mem_map_fst hv
  have hcode : codeOf (.node l r w) v = p := by rw [codeOf, codeTable, hp, Option.getD_some]
  rw [hcode]
  exact (symbolAt_eq_some_iff _ _ _).mpr hmem

/-- No leaf's code is empty, and only its own begins with it (R18). -/
theorem codeOf_ne_nil_and_eq_of_begins {root : Tree} {u v : Byte} (hu : u ∈ leaves root)
    (hv : v ∈ leaves root) : codeOf root u ≠ [] ∧ (codeOf root u <+: codeOf root v → u = v) := by
  cases root with
  | leaf s =>
    obtain rfl := List.mem_singleton.mp hu
    obtain rfl := List.mem_singleton.mp hv
    simp
  | node l r w =>
    have hpu := symbolAt_codeOf_node hu
    have hpv := symbolAt_codeOf_node hv
    constructor
    · intro hnil
      rw [hnil] at hpu
      cases hpu
    · rintro ⟨q, hq⟩
      exact symbolAt_append hpu (hq ▸ hpv)

/-- Settles O51: the input's bytes are leaves of its tree, and a leaf's code is the path to it. -/
theorem codesArePrefixFree : Obligations.CodesArePrefixFree := fun _ _ h _ hu _ hv =>
  codeOf_ne_nil_and_eq_of_begins (mem_leaves_of_huffmanTree h hu) (mem_leaves_of_huffmanTree h hv)

end Sys2Proof.Machine
end

section
/-! PROOFS. What a command can do, said once: it reads its registers, makes its checks, and then either enters its
fault or makes one update of a few kinds; from that, the whole-machine rules on registers, arrays, queue and ERR. -/
namespace Sys2Proof.Machine

/-! ## The updates of a command -/

/-- The host's side of the state replaced: the commands that wait and the last response. -/
def State.withHost (s : State) (cmds : List Command) (resp : Option Response) : State :=
  { s with cmds := cmds, resp := resp }

/-- The commands that write the input array (R42). -/
def WritesInput (i : Instr) : Prop := i = .ibclr ∨ (∃ v, i = .ibpush v) ∨ i = .obtoib

/-- The commands that write the output array (R42). -/
def WritesOutput (i : Instr) : Prop := (∃ r n o, i = .toByteArray r n o) ∨ i = .compress ∨ i = .decompress

/-- The commands that write the queue (R29). -/
def WritesQueue (i : Instr) : Prop := (∃ v w, i = .enqueue v w) ∨ i = .dequeue ∨ i = .qclear ∨ i = .compress

/-- The one update that command `i`, run from `s`, may make when it completes (R17). -/
inductive MayDo (i : Instr) (s : State) : (State → State) → Prop
  | nothing : MayDo i s fun u => u
  | construct {r : Reg} {x : BitSeq} (h : constructedReg i = some r) : MayDo i s (·.setReg r x)
  | mutate {r : Reg} {x y : BitSeq} (h : mutatedReg i = some r) (hy : s.reg r = some y) :
    MayDo i s (·.setReg r x)
  | input {m : Memory} (h : WritesInput i) : MayDo i s (·.setInput m)
  | output {m : Memory} (h : WritesOutput i) : MayDo i s (·.setOutput m)
  | queue {q : List (Entry Nat)} (h : WritesQueue i) : MayDo i s (·.setQueue q)
  | compress {m : Memory} (h : i = .compress) : MayDo i s fun u => (u.setOutput m).setQueue []
  | clearErr (h : i = .clrerr) : MayDo i s (·.clearErr)

section
variable {i : Instr} {s : State} {upd : State → State}

/-- An update neither reads nor changes the host's side (R33, R52, R54). -/
theorem MayDo.withHost (h : MayDo i s upd) (u : State) (cmds : List Command) (resp : Option Response) :
    upd (u.withHost cmds resp) = (upd u).withHost cmds resp := by cases h <;> rfl

theorem MayDo.cfg_eq (h : MayDo i s upd) (u : State) : (upd u).cfg = u.cfg := by cases h <;> rfl

theorem MayDo.cmds_eq (h : MayDo i s upd) (u : State) : (upd u).cmds = u.cmds := by cases h <;> rfl

theorem MayDo.err_eq (h : MayDo i s upd) (hi : i ≠ .clrerr) : (upd s).err = s.err := by
  cases h with
  | clearErr h => exact absurd h hi
  | _ => rfl

theorem MayDo.ibuf_eq (h : MayDo i s upd) (hi : ¬WritesInput i) : (upd s).ibuf = s.ibuf := by
  cases h with
  | input h => exact absurd h hi
  | _ => rfl

theorem MayDo.obuf_eq (h : MayDo i s upd) (hi : ¬WritesOutput i) : (upd s).obuf = s.obuf := by
  cases h with
  | output h => exact absurd h hi
  | compress h => exact absurd (.inr (.inl h)) hi
  | _ => rfl

theorem MayDo.q_eq (h : MayDo i s upd) (hi : ¬WritesQueue i) : (upd s).q = s.q := by
  cases h with
  | queue h => exact absurd h hi
  | compress h => exact absurd (.inr (.inr (.inr h))) hi
  | _ => rfl

/-- An update leaves a register as it was, unless it writes a value to the command's destination; a register
changed in place was not null (R23, R36). -/
theorem MayDo.reg_eq_or_written (h : MayDo i s upd) (r : Reg) :
    (upd s).reg r = s.reg r ∨ ((upd s).reg r ≠ none ∧
      (constructedReg i = some r ∨ mutatedReg i = some r ∧ s.reg r ≠ none)) := by
  cases h with
  | @construct r' x h =>
    by_cases hr : r = r'
    · subst hr; exact .inr ⟨by simp, .inl h⟩
    · exact .inl (s.setReg_reg_ne r' r x hr)
  | @mutate r' x y h hy =>
    by_cases hr : r = r'
    · subst hr; exact .inr ⟨by simp, .inr ⟨h, by simp [hy]⟩⟩
    · exact .inl (s.setReg_reg_ne r' r x hr)
  | _ => exact .inl rfl

end

/-! ## The shape of a command's body -/

/-- What the body of command `i` does from `s`, whatever the host's side: if one of the registers `rs`, which it
reads first, is null, it raises NullArgument; and it ends in a fault or with one update the command may make. -/
structure Shape (i : Instr) (s : State) (rs : List Reg) (body : State → Except FaultKind Result) : Prop where
  null : ∀ r ∈ rs, s.reg r = none → body s = .error .nullArgument
  ends : (∃ k, ∀ cmds resp, body (s.withHost cmds resp) = .error k) ∨
    ∃ upd r0 r1, MayDo i s upd ∧
      ∀ cmds resp, body (s.withHost cmds resp) = .ok ⟨upd (s.withHost cmds resp), r0, r1⟩

namespace Shape
variable {i : Instr} {s : State}

theorem error (k : FaultKind) : Shape i s [] fun _ => .error k where
  null := nofun
  ends := .inl ⟨k, fun _ _ => rfl⟩

theorem returning {upd : State → State} {r0 r1 : State → Word64} (h : MayDo i s upd)
    (h0 : ∀ cmds resp, r0 (s.withHost cmds resp) = r0 s := by intros; rfl)
    (h1 : ∀ cmds resp, r1 (s.withHost cmds resp) = r1 s := by intros; rfl) :
    Shape i s [] fun u => Machine.returning (upd u) (r0 u) (r1 u) where
  null := nofun
  ends := .inr ⟨upd, r0 s, r1 s, h, fun cmds resp => by rw [h0, h1]; rfl⟩

theorem done {upd : State → State} (h : MayDo i s upd) : Shape i s [] fun u => Machine.done (upd u) :=
  .returning h

/-- A body may be replaced by one that is equal whatever the host's side. -/
theorem congr {rs : List Reg} {body body' : State → Except FaultKind Result} (h : Shape i s rs body')
    (hb : ∀ cmds resp, body (s.withHost cmds resp) = body' (s.withHost cmds resp)) : Shape i s rs body where
  null r hr hn := (hb s.cmds s.resp).trans (h.null r hr hn)
  ends := by simpa only [hb] using h.ends

/-- A check that does not look at the host's side, and what follows it. -/
theorem check {α : Type} {x : State → Except FaultKind α} {f : State → α → Except FaultKind Result}
    (hf : ∀ a, x s = .ok a → Shape i s [] (f · a))
    (hx : ∀ cmds resp, x (s.withHost cmds resp) = x s := by intros; rfl) :
    Shape i s [] fun u => x u >>= f u where
  null := nofun
  ends := by
    simp only [hx]
    cases hxs : x s with
    | error k => exact .inl ⟨k, fun _ _ => rfl⟩
    | ok a => exact (hf a hxs).ends

/-- The first of the registers a command reads, and what follows (R80, R225). -/
theorem need {r : Reg} {rs : List Reg} {f : State → BitSeq → Except FaultKind Result}
    (hf : ∀ x, s.reg r = some x → Shape i s rs (f · x)) :
    Shape i s (r :: rs) fun u => Machine.need u r >>= f u where
  null := by
    intro r' hr' hn
    cases hr : s.reg r with
    | none => rw [need_none s r hr, error_bind]
    | some x =>
      rw [need_some s r x hr, ok_bind]
      refine (hf x hr).null r' ((List.mem_cons.mp hr').resolve_left ?_) hn
      rintro rfl
      rw [hr] at hn; cases hn
  ends := by
    have hhost : ∀ cmds resp, Machine.need (s.withHost cmds resp) r = Machine.need s r := fun _ _ => rfl
    simp only [hhost]
    cases hr : s.reg r with
    | none => exact .inl ⟨.nullArgument, fun _ _ => by rw [need_none s r hr, error_bind]⟩
    | some x => simpa only [need_some s r x hr, ok_bind] using (hf x hr).ends

end Shape

/-! ## Every command -/

/-- `o` runs a body of the shape that command `i` has from `s`. -/
def Runs (i : Instr) (s : State) (rs : List Reg) (o : State → Out) : Prop :=
  ∃ body, (∀ u, o u = run u (body u)) ∧ Shape i s rs body

theorem Runs.of {i : Instr} {s : State} {rs : List Reg} {body : State → Except FaultKind Result}
    (h : Shape i s rs body) : Runs i s rs fun u => run u (body u) := ⟨body, fun _ => rfl, h⟩

section
variable {i : Instr} {s : State} {rd : Reg}

theorem bitwise_runs (op : Bool → Bool → Bool) (rs1 rs2 : Reg) (h : constructedReg i = some rd) :
    Runs i s [rs1, rs2] (bitwise op rd rs1 rs2) :=
  .of <| .need fun _ _ => .need fun _ _ => .check fun _ _ => .check fun _ _ => .done (.construct h)

theorem rotate_runs (f : BitSeq → Nat → BitSeq) (rs1 : Reg) (n : Int) (h : constructedReg i = some rd) :
    Runs i s [rs1] (rotate f rd rs1 n) :=
  .of <| .need fun _ _ => .check fun _ _ => .check fun _ _ => .done (.construct h)

theorem counter_runs (f : List Bool → List Bool) (rs1 : Reg) (h : constructedReg i = some rd) :
    Runs i s [rs1] (counter f rd rs1) :=
  .of <| .need fun _ _ => .check fun _ _ => .done (.construct h)

theorem toInteger_runs (w : Nat) (sg : Sign) (rs1 : Reg) (o : Int) :
    Runs i s [rs1] (toInteger w sg rs1 o) := by
  refine .of <| .need fun _ _ => .check fun _ _ => .check fun _ _ => ?_
  cases sg
  · exact .returning .nothing
  · exact .returning .nothing

theorem fromInteger_runs (w : Nat) (sg : Sign) (v : Int) (h : constructedReg i = some rd) :
    Runs i s [] (fromInteger w sg rd v) :=
  .of <| .check fun _ _ => .done (.construct h)

theorem execDequeue_runs : Runs .dequeue s [] execDequeue := by
  refine ⟨_, fun _ => rfl, ?_⟩
  cases hq : dequeue s.q with
  | none => exact .congr (.error .queueEmpty) fun _ _ => by simp [State.withHost, hq]
  | some p =>
    exact .congr (.returning (r0 := fun _ => zext64 p.1.item) (r1 := fun _ => weightWord p.1.weight)
      (.queue (q := p.2) (by simp [WritesQueue]))) fun _ _ => by simp [State.withHost, hq]

theorem execObrd_runs (k : Int) : Runs (.obrd k) s [] (execObrd k) := by
  refine ⟨_, fun _ => rfl, ?_⟩
  split
  · exact .error _
  · cases hb : Memory.read s.obuf k.toNat with
    | none => exact .congr (.error .outOfRange) fun _ _ => by simp [State.withHost, hb]
    | some v =>
      exact .congr (.returning (r0 := fun _ => zext64 v.toNat) (r1 := fun _ => 0#64) .nothing)
        fun _ _ => by simp [State.withHost, hb]

theorem execObtoib_runs : Runs .obtoib s [] execObtoib := by
  refine ⟨_, fun _ => rfl, ?_⟩
  exact .congr (.returning (r0 := fun u => lengthWord u.olen) (r1 := fun _ => 0#64)
    (.input (m := s.obuf) (.inr (.inr rfl)))) fun _ _ => rfl

end

/-- Every command reads the registers `readRegs` names, in that order, makes its checks, and then makes its one
update (R17, R80, R225). -/
theorem exec_runs (i : Instr) (s : State) : Runs i s (readRegs i) (exec i) := by
  cases i with
  | construct rd e n => exact .of <| .check fun _ _ => .check fun _ _ => .done (.construct rfl)
  | constructA rd e => exact .of <| .check fun _ _ => .check fun _ _ => .done (.construct rfl)
  | copy rd rs1 => exact .of <| .need fun _ _ => .done (.construct rfl)
  | get rs1 k => exact .of <| .need fun _ _ => .check fun _ _ => .returning .nothing
  | set rd b k => exact .of <| .need fun _ hx => .check fun _ _ => .done (.mutate rfl hx)
  | add rd b => exact .of <| .need fun _ hx => .check fun _ _ => .done (.mutate rfl hx)
  | flip rd k => exact .of <| .need fun _ hx => .check fun _ _ => .done (.mutate rfl hx)
  | reverse rd => exact .of <| .need fun _ hx => .done (.mutate rfl hx)
  | insert rd b k => exact .of <| .need fun _ hx => .check fun _ _ => .check fun _ _ => .done (.mutate rfl hx)
  | remove rd k => exact .of <| .need fun _ hx => .check fun _ _ => .done (.mutate rfl hx)
  | append rd rs1 => exact .of <| .need fun _ hx => .need fun _ _ => .check fun _ _ => .done (.mutate rfl hx)
  | count rs1 => exact .of <| .need fun _ _ => .returning .nothing
  | endian rs1 => exact .of <| .need fun _ _ => .returning .nothing
  | pad rd b n => exact .of <| .need fun _ hx => .check fun _ _ => .check fun _ _ => .done (.mutate rfl hx)
  | padToByte rd => exact .of <| .need fun _ hx => .check fun _ _ => .done (.mutate rfl hx)
  | trimStart rd b => exact .of <| .need fun _ hx => .done (.mutate rfl hx)
  | trimEnd rd b => exact .of <| .need fun _ hx => .done (.mutate rfl hx)
  | trimEndian rd b => exact .of <| .need fun _ hx => .done (.mutate rfl hx)
  | toByteArray rs1 n o =>
    exact .of <| .need fun _ _ => .check fun _ _ => .check fun _ _ => .check fun _ _ =>
      .returning (.output (.inl ⟨_, _, _, rfl⟩))
  | toByte rs1 o => exact toInteger_runs 8 .unsigned rs1 o
  | toSByte rs1 o => exact toInteger_runs 8 .signed rs1 o
  | toInt16 rs1 o => exact toInteger_runs 16 .signed rs1 o
  | toUInt16 rs1 o => exact toInteger_runs 16 .unsigned rs1 o
  | toInt32 rs1 o => exact toInteger_runs 32 .signed rs1 o
  | toUInt32 rs1 o => exact toInteger_runs 32 .unsigned rs1 o
  | toInt64 rs1 o => exact toInteger_runs 64 .signed rs1 o
  | toUInt64 rs1 o => exact toInteger_runs 64 .unsigned rs1 o
  | fromByteArray rd => exact .of <| .check fun _ _ => .check fun _ _ => .done (.construct rfl)
  | fromByte rd v => exact fromInteger_runs 8 .unsigned v rfl
  | fromSByte rd v => exact fromInteger_runs 8 .signed v rfl
  | fromInt16 rd v => exact fromInteger_runs 16 .signed v rfl
  | fromUInt16 rd v => exact fromInteger_runs 16 .unsigned v rfl
  | fromInt32 rd v => exact fromInteger_runs 32 .signed v rfl
  | fromUInt32 rd v => exact fromInteger_runs 32 .unsigned v rfl
  | fromInt64 rd v => exact fromInteger_runs 64 .signed v rfl
  | fromUInt64 rd v => exact fromInteger_runs 64 .unsigned v rfl
  | and rd rs1 rs2 => exact bitwise_runs _ rs1 rs2 rfl
  | or rd rs1 rs2 => exact bitwise_runs _ rs1 rs2 rfl
  | xor rd rs1 rs2 => exact bitwise_runs _ rs1 rs2 rfl
  | not rd rs1 => exact .of <| .need fun _ _ => .check fun _ _ => .done (.construct rfl)
  | rol rd rs1 n => exact rotate_runs _ rs1 n rfl
  | ror rd rs1 n => exact rotate_runs _ rs1 n rfl
  | inc rd rs1 => exact counter_runs _ rs1 rfl
  | dec rd rs1 => exact counter_runs _ rs1 rfl
  | enqueue v w =>
    exact .of <| .check fun _ _ => .check fun _ _ => .check fun _ _ =>
      .congr (.done (.queue (q := Machine.enqueue s.q v.toNat w) (.inl ⟨v, w, rfl⟩))) fun _ _ => rfl
  | dequeue => exact execDequeue_runs
  | qcount => exact .of <| .returning .nothing
  | qclear => exact .of <| .done (.queue (by simp [WritesQueue]))
  | compress => exact .of <| .check fun _ _ => .check fun _ _ => .returning (.compress rfl)
  | decompress =>
    exact .of <| .check fun _ _ => .check fun _ _ => .check fun _ _ =>
      .returning (.output (.inr (.inr rfl)))
  | ibclr => exact .of <| .done (.input (.inl rfl))
  | ibpush v =>
    exact .of <| .check fun _ _ => .check fun _ _ => .check fun _ _ =>
      .done (.input (.inr (.inl ⟨v, rfl⟩)))
  | obrd k => exact execObrd_runs k
  | olenr => exact .of <| .returning .nothing
  | obtoib => exact execObtoib_runs
  | rderr => exact .of <| .returning .nothing
  | clrerr => exact .of <| .done (.clearErr rfl)

section
variable {i : Instr} {s t : State}

/-- How a command ends, whatever the host's side: in a fault, or with one update it may make (R17, R226). -/
theorem exec_ends (i : Instr) (s : State) :
    (∃ k : FaultKind, ∀ cmds resp,
      exec i (s.withHost cmds resp) = .next ((s.withHost cmds resp).enterFault k)) ∨
    ∃ upd r0 r1, MayDo i s upd ∧ ∀ cmds resp,
      exec i (s.withHost cmds resp) = .next ((upd (s.withHost cmds resp)).answer r0 r1) := by
  obtain ⟨body, hrun, hshape⟩ := exec_runs i s
  rcases hshape.ends with ⟨k, hk⟩ | ⟨upd, r0, r1, hu, hb⟩
  · exact .inl ⟨k, fun cmds resp => by rw [hrun, hk, run_error]⟩
  · exact .inr ⟨upd, r0, r1, hu, fun cmds resp => by rw [hrun, hb, run_ok]⟩

/-- The next state of a command is the state before after fault entry, or after one update it may make. -/
theorem exec_next_cases (h : exec i s = .next t) :
    (∃ k, t = s.enterFault k) ∨ ∃ upd r0 r1, MayDo i s upd ∧ t = (upd s).answer r0 r1 := by
  rcases exec_ends i s with ⟨k, hk⟩ | ⟨upd, r0, r1, hu, hb⟩
  · exact .inl ⟨k, Host.Outcome.next.inj (h.symm.trans (hk s.cmds s.resp))⟩
  · exact .inr ⟨upd, r0, r1, hu, Host.Outcome.next.inj (h.symm.trans (hb s.cmds s.resp))⟩

/-- A null register that the command reads is found before any other check (R23, R225). -/
theorem exec_of_null {r : Reg} (hr : r ∈ readRegs i) (hn : s.reg r = none) :
    exec i s = .next (faultState s 4#8) := by
  obtain ⟨body, hrun, hshape⟩ := exec_runs i s
  rw [hrun, hshape.null r hr hn]; rfl

/-- A command leaves a register as it was, or has written a value to it as its destination (R23, R36). -/
theorem exec_reg (h : exec i s = .next t) (r : Reg) :
    t.reg r = s.reg r ∨ (t.reg r ≠ none ∧
      (constructedReg i = some r ∨ mutatedReg i = some r ∧ s.reg r ≠ none)) := by
  rcases exec_next_cases h with ⟨k, rfl⟩ | ⟨upd, r0, r1, hu, rfl⟩
  · exact .inl rfl
  · exact hu.reg_eq_or_written r

/-- What fault entry, the response and every update the command may make leave alone, the command leaves alone. -/
theorem exec_frame {α : Type} (part : State → α) (h : exec i s = .next t)
    (hu : ∀ upd, MayDo i s upd → part (upd s) = part s)
    (hfault : ∀ k, part (s.enterFault k) = part s := by intros; rfl)
    (hanswer : ∀ u r0 r1, part (u.answer r0 r1) = part u := by intros; rfl) : part t = part s := by
  rcases exec_next_cases h with ⟨k, rfl⟩ | ⟨upd, r0, r1, hupd, rfl⟩
  · exact hfault k
  · exact (hanswer ..).trans (hu upd hupd)

end

/-! ## The statements on every command -/

/-- Settles O11: fault entry and every update leave the parameters and the host's side alone. -/
theorem everyCommandAnswers : Obligations.EveryCommandAnswers := by
  intro i s
  rcases exec_ends i s with ⟨k, hk⟩ | ⟨upd, r0, r1, hu, hb⟩
  · exact ⟨_, _, hk s.cmds s.resp, rfl, ⟨k.code_toNat_le, fun _ => ⟨rfl, rfl⟩⟩, rfl, rfl, hk⟩
  · refine ⟨_, _, hb s.cmds s.resp, rfl, ⟨Nat.zero_le _, fun h => absurd rfl h⟩, hu.cfg_eq s, hu.cmds_eq s,
      fun cmds resp => (hb cmds resp).trans ?_⟩
    rw [hu.withHost]; rfl

/-- Settles O13: fault entry writes ERR only over 0, and no update but that of CLRERR writes it. -/
theorem errKeepsTheFirstFault : Obligations.ErrKeepsTheFirstFault := by
  intro i s t h
  refine ⟨by rintro rfl; cases h; rfl, fun hi hs => ?_, fun hi hs => ?_⟩
  · rcases exec_next_cases h with ⟨k, rfl⟩ | ⟨upd, r0, r1, hu, rfl⟩
    · exact if_neg hs
    · exact hu.err_eq hi
  · rcases exec_next_cases h with ⟨k, rfl⟩ | ⟨upd, r0, r1, hu, rfl⟩
    · exact ⟨_, rfl, if_pos hs⟩
    · exact ⟨_, rfl, (hu.err_eq hi).trans hs⟩

/-- Settles O14: the null registers are found before every other check, and a write is never of a null value. -/
theorem nullRegisterRule : Obligations.NullRegisterRule := by
  refine ⟨fun i s r => exec_of_null, fun i s t r h => ?_⟩
  rcases exec_reg h r with heq | ⟨hne, hc | ⟨-, hs⟩⟩
  · exact ⟨fun hs => heq ▸ hs, fun hs ht => absurd (heq.trans hs) ht⟩
  · exact ⟨fun _ => hne, fun _ _ => hc⟩
  · exact ⟨fun _ => hne, fun hn => absurd hn hs⟩

/-- Settles O16: the only update of a register is of the destination. -/
theorem otherRegistersAreUnchanged : Obligations.OtherRegistersAreUnchanged := by
  intro i s t r h hc hm
  rcases exec_reg h r with heq | ⟨-, hc' | ⟨hm', -⟩⟩
  · exact heq
  · exact absurd hc' hc
  · exact absurd hm' hm

/-- Settles O17: a command that may not write an array or the queue leaves it the same list. -/
theorem otherBytesAndEntriesAreUnchanged : Obligations.OtherBytesAndEntriesAreUnchanged := by
  intro i s t h
  refine ⟨fun hibclr hibpush hobtoib => ?_, fun hbytes hcompress hdecompress => ?_,
    fun henqueue hdequeue hqclear hcompress => ?_⟩
  · have hi : ¬WritesInput i := by simp [WritesInput, hibclr, hibpush, hobtoib]
    have hibuf : t.ibuf = s.ibuf := exec_frame State.ibuf h fun _ hu => hu.ibuf_eq hi
    simp [State.ivalid, State.ilen, State.input, hibuf]
  · have hi : ¬WritesOutput i := by simp [WritesOutput, hbytes, hcompress, hdecompress]
    have hobuf : t.obuf = s.obuf := exec_frame State.obuf h fun _ hu => hu.obuf_eq hi
    simp [State.olen, hobuf]
  · have hi : ¬WritesQueue i := by simp [WritesQueue, henqueue, hdequeue, hqclear, hcompress]
    exact exec_frame State.q h fun _ hu => hu.q_eq hi

end Sys2Proof.Machine
end

section
/-! PROOFS. The state after reset (R34), and which command a step runs (R25, R52, R240). -/
namespace Sys2Proof.Machine

/-! ## Reset -/

theorem resetWith_asTabulated (p : Params) :
    (∀ r, (State.resetWith p).reg r = none) ∧ (State.resetWith p).q = [] ∧
      (State.resetWith p).ivalid = false ∧ (State.resetWith p).ilen = 0 ∧
      (State.resetWith p).olen = 0 ∧ (State.resetWith p).err = 0#8 :=
  ⟨State.resetWith_reg p, rfl, rfl, rfl, rfl, rfl⟩

/-- Settles O1, at the default parameters of R6 and at any others. -/
theorem resetStateIsAsTabulated : Obligations.ResetStateIsAsTabulated := by
  rintro _ (rfl | ⟨p, rfl⟩)
  · exact resetWith_asTabulated Params.default
  · exact resetWith_asTabulated p

/-! ## The step -/

theorem step_of_fetch {s t : State} {c : Command} {i : Instr} (hf : fetch s = some (c, t))
    (hd : decode c = .ok i) : step s = exec i t := by simp only [step, hf, hd]

theorem step_of_fetch_none {s : State} (hf : fetch s = none) : step s = .next s := by
  simp only [step, hf, waitForCommand]

theorem decode_of_decodeTableWord {n w : Nat} {i : Instr} (h : decodeTableWord n w = some i) :
    decode (tableCommand n w) = .ok i := by
  rw [decodeTableWord] at h
  cases hd : decode (tableCommand n w) with
  | ok j => rw [hd] at h; cases h; rfl
  | error k => rw [hd] at h; cases h

/-- Settles O10: what each way to put a command leaves for the next fetch. -/
theorem stepRunsTheDecodedCommand : Obligations.StepRunsTheDecodedCommand :=
  ⟨fun s c rest _ hc => step_of_fetch (fetch_cons s c rest hc),
    fun s c _ hc => step_of_fetch (fetch_issue_of_nil s c hc),
    fun s c d rest _ hc => step_of_fetch (fetch_issue_of_cons s c d rest hc),
    fun s _ _ _ hw => step_of_fetch (fetch_withNext s _) (decode_of_decodeTableWord hw),
    fun s hc => step_of_fetch_none (fetch_nil s hc)⟩

end Sys2Proof.Machine
end

section
/-! PROOFS. Reads narrower than the register (R47): a slice of the stored bits is a digit of the logical value, counted
from the end the tag makes least significant, and the low bits of what a TO command returns are that digit. -/
namespace Sys2Proof.Machine

/-! ## The value of a slice (R11, R13) -/

/-- Index 0 is the remainder of the halving, the rest the quotient. -/
theorem valLsb_cons_divMod_two (b : Bool) (s : List Bool) :
    valLsb (b :: s) / 2 = valLsb s ∧ valLsb (b :: s) % 2 = b.toNat := by
  have hb : b.toNat ≤ 1 := Bool.toNat_le b
  rw [valLsb_cons]; omega

theorem valLsb_take (s : List Bool) (n : Nat) : valLsb (s.take n) = valLsb s % 2 ^ n := by
  induction s generalizing n with
  | nil => simp
  | cons b s ih =>
    cases n with
    | zero => simp [Nat.mod_one]
    | succ n =>
      obtain ⟨hdiv, hmod⟩ := valLsb_cons_divMod_two b s
      rw [List.take_succ_cons, Nat.pow_succ', Nat.mod_mul, hdiv, hmod, valLsb_cons, ih]

theorem valLsb_drop (s : List Bool) (n : Nat) : valLsb (s.drop n) = valLsb s / 2 ^ n := by
  induction s generalizing n with
  | nil => simp
  | cons b s ih =>
    cases n with
    | zero => simp
    | succ n =>
      rw [List.drop_succ_cons, Nat.pow_succ', ← Nat.div_div_eq_div_mul,
        (valLsb_cons_divMod_two b s).1, ih]

theorem valLsb_slice (s : List Bool) (a n : Nat) : valLsb (slice s a n) = valLsb s / 2 ^ a % 2 ^ n := by
  rw [slice, valLsb_take, valLsb_drop]

/-- A slice read from the other end is a slice at the mirrored offset. -/
theorem slice_reverse {s : List Bool} {a n : Nat} (h : a + n ≤ s.length) :
    (slice s a n).reverse = slice s.reverse (s.length - (a + n)) n := by
  rw [slice, slice, List.reverse_take, List.reverse_drop, List.length_drop, List.drop_take]
  congr 1
  · omega
  · congr 1; omega

section
variable {x : BitSeq} {a n : Nat}

theorem BitSeq.slice_val_of_LE (ht : x.tag = .LE) :
    (BitSeq.mk (slice x.bits a n) x.tag).val = x.val / 2 ^ a % 2 ^ n := by
  simp only [BitSeq.val, ht, valLsb_slice]

theorem BitSeq.slice_val_of_BE (ht : x.tag = .BE) (h : a + n ≤ x.bits.length) :
    (BitSeq.mk (slice x.bits a n) x.tag).val = x.val / 2 ^ (x.bits.length - (a + n)) % 2 ^ n := by
  simp only [BitSeq.val, ht, slice_reverse h, valLsb_slice]

end

/-! ## The low bits of what a TO command returns (R15, R111) -/

/-- Extension, with either sign, keeps the low bits. -/
theorem extended_toNat_mod (sg : Sign) {w v : Nat} (hw : w ≤ 64) (hv : v < 2 ^ w) :
    (extended sg w v).toNat % 2 ^ w = v := by
  cases sg with
  | unsigned => rw [extended_unsigned_toNat hw hv, Nat.mod_eq_of_lt hv]
  | signed =>
    have htrunc : ((BitVec.ofNat w v).signExtend 64).setWidth w = BitVec.ofNat w v := by
      ext i hi
      simp [BitVec.getElem_signExtend, hi, hi.trans_le hw]
    calc (extended .signed w v).toNat % 2 ^ w
        = (((BitVec.ofNat w v).signExtend 64).setWidth w).toNat := (BitVec.toNat_setWidth ..).symm
      _ = v := by rw [htrunc, BitVec.toNat_ofNat, Nat.mod_eq_of_lt hv]

section
variable {s : State} {r : Reg} {x : BitSeq} (w a : Nat) (sg : Sign) (h : s.reg r = some x) (hw : w ≤ 64)
  (ha : a + w ≤ x.bits.length)
include h hw ha

theorem toInteger_returns_slice : ∃ r0, toInteger w sg r a s = .next (okState s r0 0#64) ∧
    r0.toNat % 2 ^ w = (BitSeq.mk (slice x.bits a w) x.tag).val := by
  have hlt : (BitSeq.mk (slice x.bits a w) x.tag).val < 2 ^ w := by
    simpa only [slice_length _ _ _ ha] using BitSeq.val_lt ⟨slice x.bits a w, x.tag⟩
  exact ⟨_, toInteger_of_inside w sg h ha, extended_toNat_mod sg hw hlt⟩

/-- Of an LE register, the offset counts from the least significant end. -/
theorem toInteger_returns_digit_of_LE (ht : x.tag = .LE) :
    ∃ r0, toInteger w sg r a s = .next (okState s r0 0#64) ∧ r0.toNat % 2 ^ w = x.val / 2 ^ a % 2 ^ w := by
  simpa only [BitSeq.slice_val_of_LE ht] using toInteger_returns_slice w a sg h hw ha

/-- Of a BE register, the offset counts from the most significant end. -/
theorem toInteger_returns_digit_of_BE (ht : x.tag = .BE) :
    ∃ r0, toInteger w sg r a s = .next (okState s r0 0#64) ∧
      r0.toNat % 2 ^ w = x.val / 2 ^ (x.bits.length - (a + w)) % 2 ^ w := by
  simpa only [BitSeq.slice_val_of_BE ht ha] using toInteger_returns_slice w a sg h hw ha

end

/-! ## 16-bit reads after a 32-bit FROM (R47) -/

theorem exec_reverse_of_some {s : State} {rd : Reg} {x : BitSeq} (h : s.reg rd = some x) :
    exec (.reverse rd) s = .next ((s.setReg rd x.reversed).answer 0#64 0#64) := by
  show execReverse rd s = _
  rw [execReverse, need_some s rd x h]; rfl

/-- The two 32-bit FROM commands are the common rule at width 32, and complete inside their range. -/
theorem exec_from32 {f : (Reg → Int → Instr) × Int × Int}
    (hf : f ∈ [(Instr.fromInt32, -2147483648, 2147483647), (Instr.fromUInt32, 0, 4294967295)]) {v : Int}
    (hlo : f.2.1 ≤ v) (hhi : v ≤ f.2.2) (rd : Reg) (s : State) :
    exec (f.1 rd v) s = .next (okState (withReg s rd (lowBits 32 v) .LE) 0#64 0#64) := by
  have hrow : (f.1, 32, f.2) ∈ fromCommands := by
    rcases List.mem_pair.mp hf with rfl | rfl
    · simp [fromCommands]
    · simp [fromCommands]
  obtain ⟨sg, hrange, hexec⟩ := exec_of_mem_fromCommands _ hrow
  have hin : (typeRange sg 32).1 ≤ v ∧ v ≤ (typeRange sg 32).2 := by rw [hrange]; exact ⟨hlo, hhi⟩
  exact (hexec rd v s).trans (fromInteger_of_inside hin rd s)

/-- The two 16-bit TO commands are the common rule at width 16. -/
theorem exec_to16 {g : Reg → Int → Instr} (hg : g ∈ [Instr.toInt16, Instr.toUInt16]) :
    ∃ sg, ∀ r o s, exec (g r o) s = toInteger 16 sg r o s := by
  rcases List.mem_pair.mp hg with rfl | rfl
  · exact ⟨.signed, fun _ _ _ => rfl⟩
  · exact ⟨.unsigned, fun _ _ _ => rfl⟩

/-- Settles O38: REVERSE keeps the value and toggles the tag, so the offsets of the value's two digits swap. -/
theorem mixedWidthReads : Obligations.MixedWidthReads := by
  intro f hf s rd v hlo hhi
  let x : BitSeq := ⟨lowBits 32 v, .LE⟩
  have hlen : x.bits.length = 32 := lowBits_length 32 v
  have hrev : x.reversed.bits.length = 32 := by rw [BitSeq.reversed_bits, List.length_reverse, hlen]
  have hval : (x.val : Int) = v % 2 ^ 32 := lowBits_val 32 v
  have ht : (okState (withReg s rd x.bits x.tag) 0#64 0#64).reg rd = some x := s.setReg_reg_same rd x
  refine ⟨_, _, exec_from32 hf hlo hhi rd s, exec_reverse_of_some ht, fun g hg => ?_⟩
  obtain ⟨sg, hexec⟩ := exec_to16 hg
  simp only [hexec]
  have hu := (okState (withReg s rd x.bits x.tag) 0#64 0#64).setReg_reg_same rd x.reversed
  obtain ⟨low, hlow, hl⟩ := toInteger_returns_digit_of_LE 16 0 sg ht (by decide) (by omega) rfl
  obtain ⟨high, hhigh, hh⟩ := toInteger_returns_digit_of_LE 16 16 sg ht (by decide) (by omega) rfl
  obtain ⟨high', hhigh', hh'⟩ := toInteger_returns_digit_of_BE 16 0 sg hu (by decide) (by omega) rfl
  obtain ⟨low', hlow', hl'⟩ := toInteger_returns_digit_of_BE 16 16 sg hu (by decide) (by omega) rfl
  rw [BitSeq.reversed_val, hrev] at hh' hl'
  exact ⟨low, high, low', high', hlow, hhigh, hhigh', hlow', by omega, by omega, by omega, by omega⟩

end Sys2Proof.Machine
end

section
/-! PROOFS. A record decodes to a command exactly when it is on the command's row of R62 and the command's operands are
its fields; from that, decoding and encoding are inverse, and only the used fields matter (R57 to R63). -/
namespace Sys2Proof
open Machine
open Laws.MaskedHeader (matchOf)

/-! ## The row and the operands of a command -/

/-- The opcode of a command's row (R62). -/
def Instr.opcode (i : Instr) : Nat := field (matchOf i) 0 8

/-- The command of the same row of R62 with its operands read from the record's fields (R57, R58). -/
def Instr.withFields : Instr → Command → Instr
  | .construct _ _ _, c => .construct c.rd c.tag c.signedArg0
  | .constructA _ _, c => .constructA c.rd c.tag
  | .copy _ _, c => .copy c.rd c.rs1
  | .get _ _, c => .get c.rs1 c.signedArg0
  | .set _ _ _, c => .set c.rd c.bit c.signedArg0
  | .add _ _, c => .add c.rd c.bit
  | .flip _ _, c => .flip c.rd c.signedArg0
  | .reverse _, c => .reverse c.rd
  | .insert _ _ _, c => .insert c.rd c.bit c.signedArg0
  | .remove _ _, c => .remove c.rd c.signedArg0
  | .append _ _, c => .append c.rd c.rs1
  | .count _, c => .count c.rs1
  | .endian _, c => .endian c.rs1
  | .pad _ _ _, c => .pad c.rd c.bit c.signedArg0
  | .padToByte _, c => .padToByte c.rd
  | .trimStart _ _, c => .trimStart c.rd c.bit
  | .trimEnd _ _, c => .trimEnd c.rd c.bit
  | .trimEndian _ _, c => .trimEndian c.rd c.bit
  | .toByteArray _ _ _, c => .toByteArray c.rs1 c.signedArg0 c.signedArg1
  | .toByte _ _, c => .toByte c.rs1 c.signedArg0
  | .toSByte _ _, c => .toSByte c.rs1 c.signedArg0
  | .toInt16 _ _, c => .toInt16 c.rs1 c.signedArg0
  | .toUInt16 _ _, c => .toUInt16 c.rs1 c.signedArg0
  | .toInt32 _ _, c => .toInt32 c.rs1 c.signedArg0
  | .toUInt32 _ _, c => .toUInt32 c.rs1 c.signedArg0
  | .toInt64 _ _, c => .toInt64 c.rs1 c.signedArg0
  | .toUInt64 _ _, c => .toUInt64 c.rs1 c.signedArg0
  | .fromByteArray _, c => .fromByteArray c.rd
  | .fromByte _ _, c => .fromByte c.rd c.signedArg0
  | .fromSByte _ _, c => .fromSByte c.rd c.signedArg0
  | .fromInt16 _ _, c => .fromInt16 c.rd c.signedArg0
  | .fromUInt16 _ _, c => .fromUInt16 c.rd c.signedArg0
  | .fromInt32 _ _, c => .fromInt32 c.rd c.signedArg0
  | .fromUInt32 _ _, c => .fromUInt32 c.rd c.signedArg0
  | .fromInt64 _ _, c => .fromInt64 c.rd c.signedArg0
  | .fromUInt64 _ _, c => .fromUInt64 c.rd c.unsignedArg0
  | .and _ _ _, c => .and c.rd c.rs1 c.rs2
  | .or _ _ _, c => .or c.rd c.rs1 c.rs2
  | .xor _ _ _, c => .xor c.rd c.rs1 c.rs2
  | .not _ _, c => .not c.rd c.rs1
  | .rol _ _ _, c => .rol c.rd c.rs1 c.signedArg0
  | .ror _ _ _, c => .ror c.rd c.rs1 c.signedArg0
  | .inc _ _, c => .inc c.rd c.rs1
  | .dec _ _, c => .dec c.rd c.rs1
  | .enqueue _ _, c => .enqueue c.signedArg0 c.signedArg1
  | .ibpush _, c => .ibpush c.signedArg0
  | .obrd _, c => .obrd c.signedArg0
  | i, _ => i

/-- The masked header of every encoding is its row's match value (R61, R62). -/
theorem encode_masked (i : Instr) : (encode i).hdr &&& tableMask = matchOf i := by
  cases i <;> exact Header.ofFields_masked ..

theorem matchOf_legal (i : Instr) : i.opcode ∈ opcodeValues ∧ field (matchOf i) 22 10 = 0 := by
  cases i <;> simp only [Instr.opcode, matchOf] <;> decide

/-! ## The range of an argument (R58) -/

theorem Command.signed64_signedArg0 (c : Command) : signed64 c.signedArg0 = true :=
  Bool.and_eq_true_iff.mpr ⟨decide_eq_true c.arg0.le_toInt, decide_eq_true c.arg0.toInt_lt⟩

theorem Command.signed64_signedArg1 (c : Command) : signed64 c.signedArg1 = true :=
  Bool.and_eq_true_iff.mpr ⟨decide_eq_true c.arg1.le_toInt, decide_eq_true c.arg1.toInt_lt⟩

theorem Command.unsigned64_unsignedArg0 (c : Command) : unsigned64 c.unsignedArg0 = true := by
  have hlt : c.unsignedArg0 < 2 ^ 64 := Int.ofNat_lt.mpr c.arg0.isLt
  exact Bool.and_eq_true_iff.mpr ⟨decide_eq_true (Int.natCast_nonneg _), decide_eq_true hlt⟩

theorem Instr.withFields_wf (i : Instr) (c : Command) : (i.withFields c).wf = true := by
  cases i <;> simp [Instr.withFields, Instr.wf, Command.signed64_signedArg0, Command.signed64_signedArg1,
    Command.unsigned64_unsignedArg0]

/-- The operands of a well-formed command are the fields of its encoding: no operand bit is dropped. -/
theorem Instr.withFields_encode {i : Instr} (h : i.wf = true) : i.withFields (encode i) = i := by
  cases i <;> simp_all [Instr.withFields, encode, Instr.wf, Command.ofFields_rd, Command.ofFields_rs1,
    Command.ofFields_rs2, Command.ofFields_tag, Command.ofFields_bit, Command.ofFields_signedArg0,
    Command.ofFields_signedArg1, Command.ofFields_unsignedArg0]

/-! ## The decoder (R61) -/

theorem decode_of_masked {c : Command} {i : Instr} (h : c.hdr &&& tableMask = matchOf i) :
    decode c = .ok (i.withFields c) := by
  unfold decode
  rw [h]
  cases i <;> rfl

/-- The decoder gives the command of the row the masked header matches, with the record's fields. -/
theorem decode_eq_ok_iff (c : Command) (i : Instr) :
    decode c = .ok i ↔ c.hdr &&& tableMask = matchOf i ∧ i.withFields c = i := by
  constructor
  · intro h
    unfold decode at h
    split at h
    all_goals cases h
    all_goals exact ⟨‹_›, rfl⟩
  · rintro ⟨hrow, hfields⟩
    rw [decode_of_masked hrow, hfields]

/-- Settles O4: the encoding is on the command's row, and its fields are the command's operands. -/
theorem decodeOfEncodeIsTheCommand : Obligations.DecodeOfEncodeIsTheCommand := fun i hwf =>
  (decode_eq_ok_iff _ i).mpr ⟨encode_masked i, Instr.withFields_encode hwf⟩

/-- Settles O6: a decoded command's operands are the record's fields, which are in range. -/
theorem decodedCommandsAreWellFormed : Obligations.DecodedCommandsAreWellFormed := by
  intro c i h
  obtain ⟨-, hfields⟩ := (decode_eq_ok_iff c i).mp h
  exact hfields ▸ i.withFields_wf c

/-- Settles O7, each word by its row. -/
theorem specWordsDecodeToTheirCommands : Obligations.SpecWordsDecodeToTheirCommands :=
  ⟨rfl, rfl, rfl, rfl, rfl, rfl, rfl, rfl, rfl, rfl, rfl, rfl⟩

/-! ## The header's fields as numbers (R57) -/

theorem field_eq_toNat (h : Header) (lo n : Nat) : field h lo n = (h.extractLsb' lo n).toNat := by
  rw [field, BitVec.extractLsb'_toNat, Nat.shiftRight_eq_div_pow]

theorem field_eq_iff {c d : Header} {lo n : Nat} :
    field c lo n = field d lo n ↔ c.extractLsb' lo n = d.extractLsb' lo n := by
  rw [field_eq_toNat, field_eq_toNat, BitVec.toNat_inj]

theorem field_one_eq_iff {c d : Header} {lo : Nat} :
    field c lo 1 = field d lo 1 ↔ c.getLsbD lo = d.getLsbD lo := by
  simp only [field, BitVec.getLsbD, Nat.pow_one, ← Nat.toNat_testBit]
  cases c.toNat.testBit lo <;> cases d.toNat.testBit lo <;> decide

theorem field_masked_opcode (h : Header) : field (h &&& tableMask) 0 8 = field h 0 8 := by
  have hm : tableMask.extractLsb' 0 8 = BitVec.allOnes 8 := rfl
  rw [field_eq_iff, BitVec.extractLsb'_and, hm, BitVec.and_allOnes]

theorem field_masked_reserved (h : Header) : field (h &&& tableMask) 22 10 = field h 22 10 := by
  have hm : tableMask.extractLsb' 22 10 = BitVec.allOnes 10 := rfl
  rw [field_eq_iff, BitVec.extractLsb'_and, hm, BitVec.and_allOnes]

/-- The mask keeps the reserved bits and the opcode, and nothing else (R61). -/
theorem masked_eq_append (h : Header) :
    h &&& tableMask = h.extractLsb' 22 10 ++ 0#14 ++ h.extractLsb' 0 8 := by
  apply BitVec.eq_of_getLsbD_eq
  intro i hi
  rw [BitVec.getLsbD_and, tableMask_getLsbD]
  simp only [BitVec.getLsbD_append, BitVec.getLsbD_extractLsb', BitVec.getLsbD_zero]
  by_cases h8 : i < 8
  · simp [h8]
  · by_cases h22 : i < 22
    · have hgap : i - 8 < 14 := by omega
      simp [h8, hgap, h22.not_ge]
    · have hlo : ¬i - 8 < 14 := by omega
      have hhi : i - 8 - 14 < 10 := by omega
      have hidx : 22 + (i - 8 - 14) = i := by omega
      simp [h8, hlo, hhi, hidx, hi, not_lt.mp h22]

theorem masked_eq_masked_iff {c d : Header} : c &&& tableMask = d &&& tableMask ↔
    field c 0 8 = field d 0 8 ∧ field c 22 10 = field d 22 10 := by
  constructor
  · intro h
    rw [← field_masked_opcode c, ← field_masked_reserved c, h, field_masked_opcode, field_masked_reserved]
    exact ⟨rfl, rfl⟩
  · rw [field_eq_iff, field_eq_iff]
    rintro ⟨hop, hres⟩
    rw [masked_eq_append, masked_eq_append, hop, hres]

/-- A header is on a command's row exactly when it has its opcode and its reserved bits are 0 (R61, R62). -/
theorem masked_eq_matchOf_iff {h : Header} {i : Instr} :
    h &&& tableMask = matchOf i ↔ field h 0 8 = i.opcode ∧ field h 22 10 = 0 := by
  rw [← encode_masked i, masked_eq_masked_iff, ← field_masked_opcode (encode i).hdr,
    ← field_masked_reserved (encode i).hdr, encode_masked, (matchOf_legal i).2, Instr.opcode]

/-! ## Which headers are commands (R61, R63) -/

/-- Every opcode value of R62 is a row's. -/
theorem exists_opcode_eq {n : Nat} (hn : n ∈ opcodeValues) : ∃ i : Instr, i.opcode = n := by
  have hrows : ∀ n ∈ opcodeValues, (decode ⟨BitVec.ofNat 32 n, 0, 0⟩).isOk = true ∧
      field (BitVec.ofNat 32 n) 0 8 = n := by decide
  obtain ⟨hok, hfield⟩ := hrows n hn
  cases hd : decode ⟨BitVec.ofNat 32 n, 0, 0⟩ with
  | error k => rw [hd] at hok; cases hok
  | ok i =>
    obtain ⟨hop, -⟩ := masked_eq_matchOf_iff.mp ((decode_eq_ok_iff _ i).mp hd).1
    exact ⟨i, hop.symm.trans hfield⟩

/-- A record decodes exactly when its opcode is one of the 57 values and its reserved bits are 0. -/
theorem exists_decode_eq_ok_iff (c : Command) :
    (∃ i, decode c = .ok i) ↔ field c.hdr 0 8 ∈ opcodeValues ∧ field c.hdr 22 10 = 0 := by
  constructor
  · rintro ⟨i, hi⟩
    obtain ⟨hop, hres⟩ := masked_eq_matchOf_iff.mp ((decode_eq_ok_iff c i).mp hi).1
    exact ⟨hop ▸ (matchOf_legal i).1, hres⟩
  · rintro ⟨hop, hres⟩
    obtain ⟨i, hi⟩ := exists_opcode_eq hop
    exact ⟨_, decode_of_masked (masked_eq_matchOf_iff.mpr ⟨hi.symm, hres⟩)⟩

theorem step_cons (s : State) (c : Command) (rest : List Command) (h : s.cmds = c :: rest) :
    step s = (decode c).toOption.elim (illegalCommand { s with cmds := rest })
      (exec · { s with cmds := rest }) := by
  rw [step, fetch_cons s c rest h]
  cases hd : decode c with
  | ok i => simp only [hd]; rfl
  | error k => simp only [hd]; rfl

/-- Settles O8: such a record does not decode, and the step is the fault entry. -/
theorem illegalHeadersRaiseIllegalCommand : Obligations.IllegalHeadersRaiseIllegalCommand := by
  refine ⟨fun s c rest hs hbad => ?_, by decide, by decide⟩
  rw [step_cons s c rest hs]
  cases hd : decode c with
  | ok i =>
    obtain ⟨hop, hres⟩ := (exists_decode_eq_ok_iff c).mp ⟨i, hd⟩
    exact (hbad.elim (· hop) (· hres)).elim
  | error k => rfl

/-! ## The used fields (R60) -/

/-- Two records agree on the operands that the fields in use hold. -/
def SameOperands (u : Uses) (c d : Command) : Prop :=
  (u.rd = true → c.rd = d.rd) ∧ (u.rs1 = true → c.rs1 = d.rs1) ∧ (u.rs2 = true → c.rs2 = d.rs2) ∧
    (u.e = true → c.tag = d.tag) ∧ (u.b = true → c.bit = d.bit) ∧ (u.arg0 = true → c.arg0 = d.arg0) ∧
    (u.arg1 = true → c.arg1 = d.arg1)

section
variable {c d : Command}

theorem Command.rd_eq_iff : c.rd = d.rd ↔ field c.hdr 8 4 = field d.hdr 8 4 := by
  rw [field_eq_iff, Command.rd, Command.rd, BitVec.toFin_inj]

theorem Command.rs1_eq_iff : c.rs1 = d.rs1 ↔ field c.hdr 12 4 = field d.hdr 12 4 := by
  rw [field_eq_iff, Command.rs1, Command.rs1, BitVec.toFin_inj]

theorem Command.rs2_eq_iff : c.rs2 = d.rs2 ↔ field c.hdr 16 4 = field d.hdr 16 4 := by
  rw [field_eq_iff, Command.rs2, Command.rs2, BitVec.toFin_inj]

theorem Command.bit_eq_iff : c.bit = d.bit ↔ field c.hdr 21 1 = field d.hdr 21 1 :=
  field_one_eq_iff.symm

theorem Command.tag_eq_iff : c.tag = d.tag ↔ field c.hdr 20 1 = field d.hdr 20 1 := by
  have hinj : Function.Injective Tag.ofBit := Function.LeftInverse.injective Tag.toBit_ofBit
  exact hinj.eq_iff.trans field_one_eq_iff.symm

@[simp] theorem Command.signedArg0_eq_iff : c.signedArg0 = d.signedArg0 ↔ c.arg0 = d.arg0 :=
  BitVec.toInt_inj

@[simp] theorem Command.signedArg1_eq_iff : c.signedArg1 = d.signedArg1 ↔ c.arg1 = d.arg1 :=
  BitVec.toInt_inj

@[simp] theorem Command.unsignedArg0_eq_iff : c.unsignedArg0 = d.unsignedArg0 ↔ c.arg0 = d.arg0 :=
  Int.ofNat_inj.trans BitVec.toNat_inj

theorem sameUsedFields_iff : SameUsedFields c d ↔ field c.hdr 0 8 = field d.hdr 0 8 ∧
    field c.hdr 22 10 = field d.hdr 22 10 ∧ SameOperands (usesOf (field c.hdr 0 8)) c d := by
  simp only [SameUsedFields, SameOperands, Command.rd_eq_iff, Command.rs1_eq_iff, Command.rs2_eq_iff, Command.tag_eq_iff,
    Command.bit_eq_iff]

/-- A command takes the same operands from two records exactly when they agree on the fields it uses. -/
theorem Instr.withFields_eq_iff (i : Instr) :
    i.withFields c = i.withFields d ↔ SameOperands (usesOf i.opcode) c d := by
  cases i <;> simp [Instr.withFields, SameOperands, Instr.opcode, matchOf, field, usesOf]

/-- Two records that decode to the same command agree on the fields it uses. -/
theorem sameUsedFields_of_decode {i : Instr} (hc : decode c = .ok i) (hd : decode d = .ok i) :
    SameUsedFields c d := by
  obtain ⟨hrow, hci⟩ := (decode_eq_ok_iff c i).mp hc
  obtain ⟨hrow', hdi⟩ := (decode_eq_ok_iff d i).mp hd
  obtain ⟨hop, hres⟩ := masked_eq_masked_iff.mp (hrow.trans hrow'.symm)
  refine sameUsedFields_iff.mpr ⟨hop, hres, ?_⟩
  rw [(masked_eq_matchOf_iff.mp hrow).1]
  exact i.withFields_eq_iff.mp (hci.trans hdi.symm)

/-- Fields that the command does not use do not change what a record decodes to. -/
theorem decode_of_sameUsedFields {i : Instr} (h : SameUsedFields c d) (hc : decode c = .ok i) :
    decode d = .ok i := by
  obtain ⟨hop, hres, hsame⟩ := sameUsedFields_iff.mp h
  obtain ⟨hrow, hci⟩ := (decode_eq_ok_iff c i).mp hc
  rw [(masked_eq_matchOf_iff.mp hrow).1] at hsame
  rw [decode_of_masked ((masked_eq_masked_iff.mpr ⟨hop, hres⟩).symm.trans hrow),
    ← i.withFields_eq_iff.mpr hsame, hci]

end

/-- Settles O5: the record and the encoding decode to the same command. -/
theorem encodeOfDecodeKeepsTheUsedFields : Obligations.EncodeOfDecodeKeepsTheUsedFields := fun c =>
  ⟨exists_decode_eq_ok_iff c, fun i hi => sameUsedFields_of_decode hi
    (decodeOfEncodeIsTheCommand i (decodedCommandsAreWellFormed c i hi))⟩

theorem toOption_decode_of_sameUsedFields {c d : Command} (h : SameUsedFields c d) :
    (decode c).toOption = (decode d).toOption := by
  cases hc : decode c with
  | ok i => rw [decode_of_sameUsedFields h hc]
  | error k =>
    cases hd : decode d with
    | ok i =>
      obtain ⟨hop, hres, -⟩ := h
      have hrow := ((decode_eq_ok_iff d i).mp hd).1
      cases hc.symm.trans (decode_of_masked ((masked_eq_masked_iff.mpr ⟨hop, hres⟩).trans hrow))
    | error k' => rfl

/-- Settles O9: the two records decode alike, and a step reads no more of a record than that. -/
theorem unusedFieldsAreIgnored : Obligations.UnusedFieldsAreIgnored := by
  intro c d h
  have heq := toOption_decode_of_sameUsedFields h
  refine ⟨heq, fun s rest => ?_⟩
  rw [step_cons _ c rest rfl, step_cons _ d rest rfl, heq]

end Sys2Proof
end

section
/-! PROOFS. The Huffman tree of a non-empty input exists, and its leaves are the input's distinct bytes, each once; from that,
the compressed form bit by bit, and its size (R70 to R77, R171 to R179). -/
namespace Sys2Proof.Machine

/-! ## The seeds of the queue (R172) -/

/-- The distinct bytes of an input, in ascending value. -/
def seeds (b : Memory) : List Byte := ((List.range 256).map (BitVec.ofNat 8)).filter (· ∈ b)

theorem seedQueue_eq_map (b : Memory) :
    seedQueue b = (seeds b).map fun v => ⟨.leaf v, b.count v⟩ := by
  rw [seeds, ← List.filterMap_eq_map', List.filterMap_filter, List.filterMap_map]
  simp [seedQueue, freq, List.count_pos_iff]

theorem mem_seeds {b : Memory} {v : Byte} : v ∈ seeds b ↔ v ∈ b := by
  have hall : v ∈ (List.range 256).map (BitVec.ofNat 8) :=
    List.mem_map.mpr ⟨v.toNat, List.mem_range.mpr v.isLt, by simp⟩
  simp [seeds, List.mem_filter, hall]

theorem seeds_pairwise (b : Memory) : (seeds b).Pairwise fun u v => u.toNat < v.toNat := by
  refine List.Pairwise.filter _ (List.pairwise_map.mpr ?_)
  refine List.Pairwise.imp_of_mem ?_ List.pairwise_lt_range
  intro m n hm hn hlt
  rw [List.mem_range] at hm hn
  simpa [Nat.mod_eq_of_lt hm, Nat.mod_eq_of_lt hn] using hlt

theorem seeds_nodup (b : Memory) : (seeds b).Nodup :=
  (seeds_pairwise b).imp fun hlt heq => absurd (heq ▸ hlt) (lt_irrefl _)

/-! ## The tree (R173, R174) -/

theorem exists_dequeue {α : Type} {q : List (Entry α)} (h : q ≠ []) :
    ∃ e rest, dequeue q = some (e, rest) := by
  cases hq : dequeue q with
  | none => exact absurd ((dequeue_eq_none_iff q).mp hq) h
  | some a => exact ⟨a.1, a.2, rfl⟩

/-- The combine loop ends with a root, when its fuel is the number of entries: each round leaves one fewer. -/
theorem exists_combineLoop {n : Nat} {q : List (Entry Tree)} (hn : q.length = n) (h : q ≠ []) :
    ∃ root, combineLoop n q = some root := by
  induction n generalizing q with
  | zero => exact absurd (List.length_eq_zero_iff.mp hn) h
  | succ n ih =>
    obtain ⟨x, q1, hx⟩ := exists_dequeue h
    have hlen1 := dequeue_length _ _ _ hx
    simp only [combineLoop, hx]
    cases hy : dequeue q1 with
    | none => exact ⟨x.item, rfl⟩
    | some a =>
      obtain ⟨y, q2⟩ := a
      have hlen2 := dequeue_length _ _ _ hy
      exact ih (by simp [enqueue]; omega) (by simp [enqueue])

theorem exists_huffmanTree {b : Memory} (hb : b ≠ []) : ∃ root, huffmanTree b = some root := by
  obtain ⟨v, hv⟩ := List.exists_mem_of_ne_nil b hb
  refine exists_combineLoop rfl fun hnil => ?_
  have hmem := mem_queueLeaves_seedQueue hv
  rw [hnil] at hmem
  cases hmem

section
variable {b : Memory} {root : Tree} (h : huffmanTree b = some root)
include h

/-- The leaves of an input's tree are its distinct bytes, each once. -/
theorem leaves_perm_seeds : (leaves root).Perm (seeds b) := by
  have hq : queueLeaves (seedQueue b) = seeds b := by
    simp [seedQueue_eq_map, queueLeaves, List.flatMap_map, leaves]
  exact hq ▸ (combinesTo_of_huffmanTree h).leaves_perm

theorem leaves_length_eq_dedup : (leaves root).length = b.dedup.length := by
  refine ((leaves_perm_seeds h).trans ?_).length_eq
  refine (List.perm_ext_iff_of_nodup (seeds_nodup b) b.nodup_dedup).mpr fun v => ?_
  rw [mem_seeds, List.mem_dedup]

/-! ## The codes of the input's bytes (R175) -/

/-- A byte's code is the path to its leaf, or the one bit 0 when the root is that leaf. -/
theorem codeOf_leads {v : Byte} (hv : v ∈ b) :
    (root = .leaf v ∧ codeOf root v = [false]) ∨
      (root ≠ .leaf v ∧ symbolAt root (codeOf root v) = some v) := by
  have hleaf := mem_leaves_of_huffmanTree h hv
  cases root with
  | leaf u =>
    obtain rfl := List.mem_singleton.mp hleaf
    exact .inl ⟨rfl, codeOf_leaf v⟩
  | node l r w => exact .inr ⟨Tree.noConfusion, symbolAt_codeOf_node hleaf⟩

/-- With one distinct byte the tree is its leaf, and its code has one bit. -/
theorem codeOf_length_of_dedup_length_one (hk : b.dedup.length = 1) {v : Byte} (hv : v ∈ b) :
    (codeOf root v).length = 1 := by
  have hleaf := mem_leaves_of_huffmanTree h hv
  rw [← leaves_length_eq_dedup h] at hk
  cases root with
  | leaf u =>
    obtain rfl := List.mem_singleton.mp hleaf
    rw [codeOf_leaf, List.length_singleton]
  | node l r w =>
    have hl := leaves_length_pos l
    have hr := leaves_length_pos r
    rw [leaves, List.length_append] at hk
    omega

end

/-! ## The compressed form (R71, R74, R177, R178) -/

/-- The bits of the payload, by distinct byte. -/
theorem payload_length (root : Tree) (b : Memory) :
    (payload root b).length = (b.dedup.map fun v => b.count v * (codeOf root v).length).sum := by
  rw [payload, List.length_flatMap, Finset.sum_list_map_count]
  rfl

theorem assemble_length (t p : List Bool) :
    (assemble t p).length = 8 + (t.length + p.length + padCount (t.length + p.length)) := by
  simp [assemble]; omega

theorem compress_of_huffmanTree {b : Memory} {root : Tree} (h : huffmanTree b = some root) :
    compress b = packMsb (assemble (serialize root) (payload root b)) := by
  rw [compress, h]

/-- Settles O52: the assembled stream is a whole number of bytes, so packing loses no bit; its length is that of
a tree with a leaf for each distinct byte and of the bytes' codes. -/
theorem compressedFormAndItsSize : Obligations.CompressedFormAndItsSize := by
  refine ⟨rfl, fun b hb => ?_⟩
  obtain ⟨root, h⟩ := exists_huffmanTree hb
  have hlen := assemble_length (serialize root) (payload root b)
  obtain ⟨hpad, hmul⟩ := padCount_spec ((serialize root).length + (payload root b).length)
  refine ⟨root, h, fun v hv => codeOf_leads h hv,
    ⟨padCount ((serialize root).length + (payload root b).length), by omega, ?_, ?_⟩, ?_,
    fun hk v hv => codeOf_length_of_dedup_length_one h hk hv⟩
  · rw [treeBits_eq_serialize]
    exact hmul
  · rw [bufferBits_eq_unpackMsb, compress_of_huffmanTree h, unpackMsb_packMsb _ (by omega), msbFirst_eq_bitsMsb,
      treeBits_eq_serialize]
    rfl
  · have htree := serialize_length root
    rw [leaves_length_eq_dedup h] at htree
    rw [compress_of_huffmanTree h, packMsb_length, ← payload_length]
    omega

end Sys2Proof.Machine
end

section
/-! PROOFS. The construction and access commands (R81 to R95): each is its checks in their order, then one update. -/
namespace Sys2Proof.Machine

/-! ## A command's checks, one at a time (R17) -/

section
variable {α : Type} {s : State} {x : Except FaultKind α} {f : α → Except FaultKind Result}

/-- A check that passes leaves what follows it to run. -/
theorem run_bind_of_ok {a : α} (h : x = .ok a) : run s (x >>= f) = run s (f a) := by rw [h, ok_bind]

/-- A check that fails ends the command in its fault (R226). -/
theorem run_bind_of_error {k : FaultKind} (h : x = .error k) :
    run s (x >>= f) = .next (faultState s k.code) := by rw [h, error_bind]; rfl

end

/-! ## CONSTRUCT, CONSTRUCTA and COPY (R81 to R83) -/

/-- Settles O19: a count that is not negative is its own number of bits, and only MAXBITS bounds it. -/
theorem constructMakesZeros : Obligations.ConstructMakesZeros := fun s _ _ n =>
  ⟨fun hn => run_bind_of_error (countArg_of_neg n hn),
    fun hn hc => (run_bind_of_ok (countArg_of_nonneg n hn)).trans (run_bind_of_error (fits_of_exceeds s _ hc)),
    fun hn hw => (run_bind_of_ok (countArg_of_nonneg n hn)).trans (run_bind_of_ok (fits_of_within s _ hw))⟩

theorem boolArray_getD {m : Memory} {k : Nat} (h : k < m.length) :
    (boolArray m).getD k false = decide (m[k] ≠ 0#8) := by
  have hbit : (m[k] != 0#8) = decide (m[k] ≠ 0#8) := by rw [bne, beq_eq_decide, decide_not]
  rw [boolArray, List.getD_eq_getElem _ _ (by rwa [List.length_map]), List.getElem_map, hbit]

/-- Settles O20: the bits are those of `boolArray`, one a byte. -/
theorem constructACopiesTheArray : Obligations.ConstructACopiesTheArray := fun s _ _ =>
  ⟨fun hm => run_bind_of_error (needInput_none s hm), fun m hm =>
    ⟨fun hc => (run_bind_of_ok (needInput_some s m hm)).trans (run_bind_of_error (fits_of_exceeds s _ hc)),
      fun hw => ⟨boolArray m, boolArray_length m, fun _ hk => boolArray_getD hk,
        (run_bind_of_ok (needInput_some s m hm)).trans (run_bind_of_ok (fits_of_within s _ hw))⟩⟩⟩

/-- Settles O21: the value that `need` finds is the value written. -/
theorem copyDuplicatesTheRegister : Obligations.CopyDuplicatesTheRegister := fun s _ rs1 =>
  ⟨exec_of_null List.mem_cons_self, fun x hx => run_bind_of_ok (need_some s rs1 x hx)⟩

/-! ## GET, SET and FLIP (R84, R85, R87) -/

theorem BitSeq.getBit_of_lt {x : BitSeq} {k : Nat} (h : k < x.bits.length) : x.getBit k = x.bits[k] :=
  List.getD_eq_getElem _ _ h

section
variable {s : State} {r : Reg} {x : BitSeq} (h : s.reg r = some x)
include h

/-- What follows `need` and an index check, for an index below the bound. -/
theorem run_need_indexBelow_of_lt {n : BitSeq → Nat} {f : BitSeq → Nat → Except FaultKind Result} {k : Nat}
    (hk : k < n x) :
    run s (need s r >>= fun x => indexBelow k (n x) >>= f x) = run s (f x k) :=
  (run_bind_of_ok (need_some s r x h)).trans (run_bind_of_ok (indexBelow_of_lt k _ hk))

/-- An index at or above the bound, or negative, is OutOfRange (R66). -/
theorem run_need_indexBelow_of_outside {n : BitSeq → Nat} {f : BitSeq → Nat → Except FaultKind Result} {i : Int}
    (hi : i < 0 ∨ i ≥ n x) :
    run s (need s r >>= fun x => indexBelow i (n x) >>= f x) = .next (faultState s 1#8) :=
  (run_bind_of_ok (need_some s r x h)).trans (run_bind_of_error (indexBelow_of_outside i _ hi))

end

/-- Settles O22: the three commands make the same two checks, and FLIP is SET of the inverted bit. -/
theorem indexedAccess : Obligations.IndexedAccess := by
  intro s r b i
  simp only [List.forall_mem_cons, List.not_mem_nil, false_imp_iff, implies_true, and_true]
  refine ⟨fun hn => ⟨exec_of_null List.mem_cons_self hn, exec_of_null List.mem_cons_self hn,
    exec_of_null List.mem_cons_self hn⟩, fun x hx => ⟨fun hi => ⟨run_need_indexBelow_of_outside hx hi,
    run_need_indexBelow_of_outside hx hi, run_need_indexBelow_of_outside hx hi⟩, ?_⟩⟩
  rintro k hk rfl
  rw [← BitSeq.getBit_of_lt hk]
  exact ⟨run_need_indexBelow_of_lt hx hk, run_need_indexBelow_of_lt hx hk, run_need_indexBelow_of_lt hx hk⟩

/-! ## ADD and APPEND (R86, R91) -/

/-- Settles O23: one bit more has to fit, and it goes behind the others. -/
theorem addPutsTheBitLast : Obligations.AddPutsTheBitLast := fun s rd _ =>
  ⟨exec_of_null List.mem_cons_self, fun x hx =>
    ⟨fun hc => (run_bind_of_ok (need_some s rd x hx)).trans (run_bind_of_error (fits_of_exceeds s _ hc)),
      fun hw => (run_bind_of_ok (need_some s rd x hx)).trans (run_bind_of_ok (fits_of_within s _ hw))⟩⟩

/-- Settles O24: the two registers are read before the write, so they may be the same. -/
theorem appendAddsTheSourceBits : Obligations.AppendAddsTheSourceBits := by
  intro s rd rs1
  refine ⟨?_, fun x y hx hy => ?_⟩
  · rintro (hn | hn)
    · exact exec_of_null List.mem_cons_self hn
    · exact exec_of_null (List.mem_cons_of_mem _ List.mem_cons_self) hn
  · have hread : exec (.append rd rs1) s =
        run s (fits s (x.count + y.count) >>= fun _ => done (s.setReg rd (x.appendBits y.bits))) :=
      (run_bind_of_ok (need_some s rd x hx)).trans (run_bind_of_ok (need_some s rs1 y hy))
    exact ⟨fun hc => hread.trans (run_bind_of_error (fits_of_exceeds s _ hc)),
      fun hw => hread.trans (run_bind_of_ok (fits_of_within s _ hw))⟩

/-! ## REVERSE (R88, R95) -/

theorem flipTag_eq_otherTag (t : Tag) : flipTag t = otherTag t := by cases t <;> rfl

/-- Settles O25: `reversed` keeps the value and is its own inverse. -/
theorem reverseKeepsValueAndIsItsOwnInverse : Obligations.ReverseKeepsValueAndIsItsOwnInverse := by
  intro s rd
  refine ⟨exec_of_null List.mem_cons_self, fun x hx => ?_⟩
  have hagain : ((s.setReg rd x.reversed).answer 0#64 0#64).reg rd = some x.reversed := by simp
  rw [← flipTag_eq_otherTag]
  refine ⟨x.reversed_val, _, rfl, exec_reverse_of_some hx, _, exec_reverse_of_some hagain, ?_⟩
  rw [State.answer_reg, State.setReg_reg_same, BitSeq.reversed_reversed]

/-! ## INSERT and REMOVE (R89, R90) -/

theorem BitSeq.insertBit_bits {x : BitSeq} {k : Nat} (b : Bool) (h : k ≤ x.bits.length) :
    (x.insertBit k b).bits = x.bits.insertIdx k b := by
  obtain ⟨l, t⟩ := x
  simp only [BitSeq.insertBit, List.append_assoc, List.singleton_append] at h ⊢
  induction l generalizing k with
  | nil => obtain rfl := Nat.le_zero.mp h; rfl
  | cons c l ih =>
    cases k with
    | zero => rfl
    | succ k => simp [ih (Nat.le_of_succ_le_succ h)]

theorem BitSeq.removeBit_bits (x : BitSeq) (k : Nat) : (x.removeBit k).bits = x.bits.eraseIdx k :=
  (List.eraseIdx_eq_take_drop_succ ..).symm

/-- Settles O26: the stored bits are `insertIdx` and `eraseIdx` of what they were. -/
theorem insertAndRemoveShiftTheBitsAbove : Obligations.InsertAndRemoveShiftTheBitsAbove := by
  intro s rd b i
  refine ⟨fun hn => ⟨exec_of_null List.mem_cons_self hn, exec_of_null List.mem_cons_self hn⟩, fun x hx =>
    ⟨fun hi => ?_, fun hi hle hc => ?_, ?_, fun hi => run_need_indexBelow_of_outside hx hi, ?_⟩⟩
  · exact run_need_indexBelow_of_outside hx (by simp only [BitSeq.count]; omega)
  · obtain ⟨k, rfl⟩ := Int.eq_ofNat_of_zero_le hi
    exact (run_need_indexBelow_of_lt hx (Nat.lt_add_one_of_le (by exact_mod_cast hle))).trans
      (run_bind_of_error (fits_of_exceeds s _ hc))
  · rintro k rfl hk hw
    have hbits := BitSeq.insertBit_bits b hk
    refine ⟨(x.insertBit k b).bits, x.insertBit_length k b hk, fun j hj => ?_, ?_, fun j hj => ?_,
      (run_need_indexBelow_of_lt hx (Nat.lt_add_one_of_le hk)).trans
        (run_bind_of_ok (fits_of_within s _ hw))⟩
    · rw [hbits, List.getElem?_insertIdx_of_lt hj]
    · rw [hbits, List.getElem?_insertIdx_self, if_pos hk]
    · rw [hbits, List.getElem?_insertIdx_of_gt (Nat.lt_add_one_of_le hj), Nat.add_sub_cancel]
  · rintro k rfl hk
    refine ⟨(x.removeBit k).bits, x.removeBit_length k hk, fun j hj => ?_, fun j hj => ?_,
      run_need_indexBelow_of_lt hx hk⟩
    · rw [BitSeq.removeBit_bits, List.getElem?_eraseIdx_of_lt hj]
    · rw [BitSeq.removeBit_bits, List.getElem?_eraseIdx_of_ge hj]

/-! ## COUNT and ENDIAN (R92, R93) -/

theorem tagWord_eq_ite (t : Tag) : tagWord t = if t = .LE then 0#64 else 1#64 := by cases t <;> rfl

/-- Settles O27: both read the register and write nothing. -/
theorem countAndEndianReadTheRegister : Obligations.CountAndEndianReadTheRegister := by
  intro s rs1
  refine ⟨fun hn => ⟨exec_of_null List.mem_cons_self hn, exec_of_null List.mem_cons_self hn⟩, fun x hx => ?_⟩
  rw [← tagWord_eq_ite]
  exact ⟨⟨lengthWord x.count, lengthWord_toNat x.count, run_bind_of_ok (need_some s rs1 x hx)⟩,
    run_bind_of_ok (need_some s rs1 x hx)⟩

end Sys2Proof.Machine
end

section
/-! PROOFS. The pad and trim commands (R100 to R105): what padding and trimming do to the stored bits and to the value,
said once, then each command as its checks and one update. -/
namespace Sys2Proof.Machine

/-! ## Padding (R100, R101) -/

@[simp] theorem BitSeq.padded_tag (x : BitSeq) (b : Bool) (n : Nat) : (x.padded b n).tag = x.tag := by
  obtain ⟨l, t⟩ := x
  cases t <;> rfl

theorem BitSeq.padded_bits (x : BitSeq) (b : Bool) (n : Nat) : (x.padded b n).bits =
    if x.tag = .BE then List.replicate n b ++ x.bits else x.bits ++ List.replicate n b := by
  obtain ⟨l, t⟩ := x
  cases t <;> rfl

/-- The added bits stand above every bit the register had, under either tag. -/
theorem BitSeq.padded_val (x : BitSeq) (b : Bool) (n : Nat) :
    (x.padded b n).val = x.val + 2 ^ x.bits.length * valLsb (List.replicate n b) := by
  obtain ⟨l, t⟩ := x
  cases t with
  | LE => exact valLsb_append l _
  | BE => simp [BitSeq.padded, BitSeq.val, valLsb_append]

@[simp] theorem BitSeq.padded_false_val (x : BitSeq) (n : Nat) : (x.padded false n).val = x.val := by
  simp [BitSeq.padded_val]

/-- `n` ones above a length weigh the difference of two powers. -/
theorem BitSeq.padded_true_val (x : BitSeq) (n : Nat) :
    (x.padded true n).val + 2 ^ x.bits.length = x.val + 2 ^ (x.bits.length + n) := by
  rw [BitSeq.padded_val, Nat.add_assoc, ← Nat.mul_succ, Nat.succ_eq_add_one, valLsb_replicate_true, Nat.pow_add]

section
variable {s : State} {rd : Reg} {x : BitSeq} (h : s.reg rd = some x)
include h

/-- PAD with a count that is not negative has one check left: the padded length. -/
theorem exec_pad_of_nonneg {n : Int} (hn : 0 ≤ n) (b : Bool) : exec (.pad rd b n) s =
    run s (fits s (x.count + n.toNat) >>= fun _ => done (s.setReg rd (x.padded b n.toNat))) :=
  (run_bind_of_ok (need_some s rd x h)).trans (run_bind_of_ok (countArg_of_nonneg n hn))

theorem exec_pad_of_within {n : Int} (hn : 0 ≤ n) (b : Bool)
    (hw : Within s.cfg.maxBits (x.bits.length + n.toNat)) :
    exec (.pad rd b n) s = .next ((s.setReg rd (x.padded b n.toNat)).answer 0#64 0#64) :=
  (exec_pad_of_nonneg h hn b).trans (run_bind_of_ok (fits_of_within s _ hw))

/-- PADTOBYTE on a register has one check left: the padded length. -/
theorem exec_padToByte_of_some : exec (.padToByte rd) s =
    run s (fits s (x.count + padCount x.count) >>= fun _ => done (s.setReg rd (x.padded false (padCount x.count)))) :=
  run_bind_of_ok (need_some s rd x h)

theorem exec_trimEndian_of_some (b : Bool) :
    exec (.trimEndian rd b) s = .next ((s.setReg rd (x.trimmedEndian b)).answer 0#64 0#64) :=
  run_bind_of_ok (need_some s rd x h)

end

/-- Settles O28: the value grows by that of the added bits, which weigh 2^Count and more. -/
theorem padAddsOnTheMostSignificantSide : Obligations.PadAddsOnTheMostSignificantSide := by
  intro s rd b n
  refine ⟨exec_of_null List.mem_cons_self, fun x hx => ⟨fun hn => ?_, fun hn hc => ?_, fun hn hw => ?_⟩⟩
  · exact (run_bind_of_ok (need_some s rd x hx)).trans (run_bind_of_error (countArg_of_neg n hn))
  · exact (exec_pad_of_nonneg hx hn b).trans (run_bind_of_error (fits_of_exceeds s _ hc))
  · refine ⟨x.padded b n.toNat, x.padded_tag b _, x.padded_bits b _, ?_, exec_pad_of_within hx hn b hw⟩
    cases b with
    | false => exact x.padded_false_val _
    | true => exact x.padded_true_val _

/-- Settles O29: the number of zeros is `padCount` of the length. -/
theorem padToByteReachesAMultipleOfEight : Obligations.PadToByteReachesAMultipleOfEight := by
  intro s rd
  refine ⟨exec_of_null List.mem_cons_self, fun x hx => ?_⟩
  obtain ⟨hlt, hmod⟩ := padCount_spec x.bits.length
  refine ⟨padCount x.bits.length, hlt, hmod, fun hc => ?_, fun hw => ?_⟩
  · exact (exec_padToByte_of_some hx).trans (run_bind_of_error (fits_of_exceeds s _ hc))
  · exact ⟨x.padded false (padCount x.bits.length), x.padded_tag _ _, x.padded_false_val _, x.padded_bits _ _,
      (exec_padToByte_of_some hx).trans (run_bind_of_ok (fits_of_within s _ hw))⟩

/-! ## Trimming (R102 to R104) -/

/-- Trimming the end splits off the run that trimming the start takes from the reversed bits (R103). -/
theorem trimTrailing_spec (b : Bool) (s : List Bool) :
    ∃ k, s = trimTrailing b s ++ List.replicate k b ∧ (trimTrailing b s).getLast? ≠ some b := by
  obtain ⟨k, hk, hh⟩ := trimLeading_spec b s.reverse
  refine ⟨k, ?_, by rwa [trimTrailing, List.getLast?_reverse]⟩
  rw [trimTrailing, ← List.reverse_replicate, ← List.reverse_append, ← hk, List.reverse_reverse]

/-- Settles O30: each command trims by its function, whose run is the whole one. -/
theorem trimsRemoveTheWholeRun : Obligations.TrimsRemoveTheWholeRun := by
  intro s rd b
  refine ⟨fun hn => ⟨exec_of_null List.mem_cons_self hn, exec_of_null List.mem_cons_self hn⟩,
    fun x hx => ⟨?_, ?_⟩⟩
  · obtain ⟨k, hk, hh⟩ := trimLeading_spec b x.bits
    exact ⟨k, trimLeading b x.bits, hk, hh, run_bind_of_ok (need_some s rd x hx)⟩
  · obtain ⟨k, hk, hl⟩ := trimTrailing_spec b x.bits
    exact ⟨k, trimTrailing b x.bits, hk, hl, run_bind_of_ok (need_some s rd x hx)⟩

/-- The zeros trimmed from the most significant side of either tag weigh nothing (R104). -/
theorem BitSeq.trimmedEndian_false_val (x : BitSeq) : (x.trimmedEndian false).val = x.val := by
  obtain ⟨l, t⟩ := x
  cases t with
  | LE =>
    obtain ⟨k, hk, -⟩ := trimTrailing_spec false l
    calc valLsb (trimTrailing false l)
        = valLsb (trimTrailing false l ++ List.replicate k false) := by simp [valLsb_append]
      _ = valLsb l := by rw [← hk]
  | BE =>
    obtain ⟨k, hk, -⟩ := trimLeading_spec false l
    calc valLsb (trimLeading false l).reverse
        = valLsb (List.replicate k false ++ trimLeading false l).reverse := by simp [valLsb_append]
      _ = valLsb l.reverse := by rw [← hk]

/-- Settles O31: the run is trimmed from the most significant bit of either tag downward. -/
theorem trimEndianTrimsTheMostSignificantSide : Obligations.TrimEndianTrimsTheMostSignificantSide := by
  intro s rd b
  refine ⟨exec_of_null List.mem_cons_self, fun x hx => ?_⟩
  have hexec := exec_trimEndian_of_some hx b
  have hval := x.trimmedEndian_false_val
  obtain ⟨l, t⟩ := x
  cases t with
  | LE =>
    obtain ⟨k, hk, hl⟩ := trimTrailing_spec b l
    have hh : (trimLeading b l.reverse).head? ≠ some b := by rwa [trimTrailing, List.getLast?_reverse] at hl
    exact ⟨k, trimLeading b l.reverse, hh, nofun, fun _ => ⟨hk, hexec⟩, fun hb => hb ▸ hval⟩
  | BE =>
    obtain ⟨k, hk, hh⟩ := trimLeading_spec b l
    exact ⟨k, trimLeading b l, hh, fun _ => ⟨hk, hexec⟩, nofun, fun hb => hb ▸ hval⟩

/-! ## Padding, then trimming (R105) -/

theorem trimLeading_replicate_append {b : Bool} {s : List Bool} (h : s.head? ≠ some b) (n : Nat) :
    trimLeading b (List.replicate n b ++ s) = s := by
  rw [trimLeading, List.dropWhile_append_of_pos fun _ hc => beq_iff_eq.mpr (List.eq_of_mem_replicate hc)]
  cases s with
  | nil => rfl
  | cons c s => exact List.dropWhile_cons_of_neg (by simpa using h)

theorem trimTrailing_append_replicate {b : Bool} {s : List Bool} (h : s.getLast? ≠ some b) (n : Nat) :
    trimTrailing b (s ++ List.replicate n b) = s := by
  rw [trimTrailing, List.reverse_append, List.reverse_replicate,
    trimLeading_replicate_append (by rwa [List.head?_reverse]), List.reverse_reverse]

/-- Trimming takes off what padding put on, and stops at the bit that differs. -/
theorem BitSeq.trimmedEndian_padded {x : BitSeq} {b : Bool} (hLE : x.tag = .LE → x.bits.getLast? ≠ some b)
    (hBE : x.tag = .BE → x.bits.head? ≠ some b) (n : Nat) : (x.padded b n).trimmedEndian b = x := by
  obtain ⟨l, t⟩ := x
  cases t with
  | LE => exact congrArg (BitSeq.mk · .LE) (trimTrailing_append_replicate (hLE rfl) n)
  | BE => exact congrArg (BitSeq.mk · .BE) (trimLeading_replicate_append (hBE rfl) n)

/-- Settles O32: TRIMENDIAN reads the padded register, and trimming undoes the padding. -/
theorem padThenTrimEndianRestores : Obligations.PadThenTrimEndianRestores := by
  intro s rd b n x hx hw hLE hBE
  have hpadded : ((s.setReg rd (x.padded b n)).answer 0#64 0#64).reg rd = some (x.padded b n) := by simp
  refine ⟨_, _, exec_pad_of_within hx (Int.natCast_nonneg n) b hw, exec_trimEndian_of_some hpadded b, ?_⟩
  rw [State.answer_reg, State.setReg_reg_same, BitSeq.trimmedEndian_padded hLE hBE]

end Sys2Proof.Machine
end

section
/-! PROOFS. Bytes and bits (R44, R45, R110, R120): the bits FROMBYTEARRAY stores are the big-endian stream of the bytes
read backwards, so TOBYTEARRAY and FROMBYTEARRAY undo each other up to the order of the bytes; and the integer
conversions undo each other (R132). -/
namespace Sys2Proof.Machine

/-! ## The bits of bytes, from either end (R14, R120) -/

/-- The 8 bits of a byte, least significant first: what FROMBYTEARRAY stores of it (R120). -/
def bitsLsb (v : Byte) : List Bool := (List.range 8).map fun t => v.getLsbD t

theorem unpackLsb_cons (v : Byte) (m : Memory) : unpackLsb (v :: m) = bitsLsb v ++ unpackLsb m := rfl

@[simp] theorem bitsLsb_length (v : Byte) : (bitsLsb v).length = 8 := by
  rw [bitsLsb, List.length_map, List.length_range]

theorem bitsLsb_getElem? {i : Nat} (hi : i < 8) (v : Byte) : (bitsLsb v)[i]? = some (v.getLsbD i) := by
  rw [bitsLsb, List.getElem?_map, List.getElem?_range hi, Option.map_some]

theorem bitsMsb_reverse (v : Byte) : (bitsMsb v).reverse = bitsLsb v := by
  rw [← msbFirst_eq_bitsMsb]; rfl

theorem valLsb_bitsLsb (v : Byte) : valLsb (bitsLsb v) = v.toNat := by
  simp only [bitsLsb, ← BitVec.testBit_toNat]
  exact (valLsb_map_testBit v.toNat 8).trans (Nat.mod_eq_of_lt v.isLt)

/-- Bit j of byte m stands at index 8m + j (R120). -/
theorem unpackLsb_getElem? {m : Memory} {i : Nat} (h : i / 8 < m.length) :
    (unpackLsb m)[i]? = some (m[i / 8].getLsbD (i % 8)) := by
  induction m generalizing i with
  | nil => exact absurd h (Nat.not_lt_zero _)
  | cons v m ih =>
    rw [unpackLsb_cons]
    rcases Nat.lt_or_ge i 8 with hi | hi
    · rw [List.getElem?_append_left (by rwa [bitsLsb_length]), bitsLsb_getElem? hi]
      simp only [Nat.div_eq_of_lt hi, Nat.mod_eq_of_lt hi, List.getElem_cons_zero]
    · obtain ⟨j, rfl⟩ := Nat.exists_eq_add_of_le' hi
      have hj : (j + 8) / 8 = j / 8 + 1 := Nat.add_div_right j (by decide)
      rw [List.getElem?_append_right (by rwa [bitsLsb_length]), bitsLsb_length, Nat.add_sub_cancel,
        ih (by simpa [hj] using h)]
      simp only [hj, Nat.add_mod_right, List.getElem_cons_succ]

/-- Both the bytes and the bits of each, in the opposite order. -/
theorem unpackLsb_reverse (m : Memory) : unpackLsb m.reverse = (unpackMsb m).reverse := by
  rw [unpackMsb, List.reverse_flatMap]
  exact congrArg (m.reverse.flatMap ·) (funext fun v => (bitsMsb_reverse v).symm)

/-! ## The value of bytes (R110, R120) -/

theorem valLsb_unpackLsb (m : Memory) : valLsb (unpackLsb m) = littleEndianValue m := by
  induction m with
  | nil => rfl
  | cons v m ih => rw [unpackLsb_cons, valLsb_append, valLsb_bitsLsb, bitsLsb_length, ih]; rfl

theorem littleEndianValue_reverse (m : Memory) : littleEndianValue m.reverse = bigEndianValue m := by
  simp only [littleEndianValue, bigEndianValue, List.foldr_reverse, Nat.add_comm, Nat.mul_comm]

/-- The bytes TOBYTEARRAY gives, read backwards by FROMBYTEARRAY, are the bits with the least significant first. -/
theorem unpackLsb_reverse_bytesOf {s : List Bool} (h : s.length % 8 = 0) (t : Tag) :
    unpackLsb (bytesOf s t).reverse = if t = .LE then s else s.reverse := by
  rw [unpackLsb_reverse]
  cases t with
  | LE => rw [bytesOf, unpackMsb_packMsb _ (by rwa [List.length_reverse]), List.reverse_reverse, if_pos rfl]
  | BE => rw [bytesOf, unpackMsb_packMsb _ h, if_neg nofun]

/-- Under either tag the big-endian value of the bytes is the logical value of the bits (R110). -/
theorem bigEndianValue_bytesOf {s : List Bool} (h : s.length % 8 = 0) (t : Tag) :
    bigEndianValue (bytesOf s t) = (BitSeq.mk s t).val := by
  rw [← littleEndianValue_reverse, ← valLsb_unpackLsb, unpackLsb_reverse_bytesOf h]
  cases t <;> rfl

/-- The bits FROMBYTEARRAY stores are packed into the bytes they came from, the last byte first. -/
theorem bytesOf_unpackLsb (m : Memory) : bytesOf (unpackLsb m) .LE = m.reverse := by
  rw [bytesOf, ← m.reverse_reverse, unpackLsb_reverse, List.reverse_reverse, packMsb_unpackMsb,
    List.reverse_reverse]

/-! ## TOBYTEARRAY (R110) -/

section
variable {s : State} {rs1 : Reg} {x : BitSeq} (h : s.reg rs1 = some x)
include h

theorem exec_toByteArray_of_outside {n o : Int} (hno : n ≤ 0 ∨ n % 8 ≠ 0 ∨ o < 0 ∨ o + n > x.bits.length) :
    exec (.toByteArray rs1 n o) s = .next (faultState s 1#8) := by
  refine (run_bind_of_ok (need_some s rs1 x h)).trans ?_
  by_cases hn : n ≤ 0 ∨ n % 8 ≠ 0
  · exact run_bind_of_error (raiseIf_of_true _ _ hn)
  · have ho : o < 0 ∨ o + n > x.count := by simp only [BitSeq.count]; omega
    exact (run_bind_of_ok (raiseIf_of_false _ _ hn)).trans (run_bind_of_error (raiseIf_of_true _ _ ho))

variable {k a : Nat} (hk : 1 ≤ k) (ha : a + 8 * k ≤ x.bits.length)
include hk ha

/-- For a range of whole bytes inside the register one check is left: the number of bytes. -/
theorem exec_toByteArray_of_inside : exec (.toByteArray rs1 (8 * k) a) s =
    run s (fitsBuffer s k >>= fun _ =>
      returning (s.setOutput (bytesOf (slice x.bits a (8 * k)) x.tag)) (lengthWord k)) := by
  have hn : ¬((8 * k : Int) ≤ 0 ∨ (8 * k : Int) % 8 ≠ 0) := by omega
  have ho : ¬((a : Int) < 0 ∨ (a : Int) + 8 * k > x.count) := by simp only [BitSeq.count]; omega
  have hbits : (8 * k : Int).toNat = 8 * k := by omega
  have hbytes : 8 * k / 8 = k := by omega
  refine (run_bind_of_ok (need_some s rs1 x h)).trans ((run_bind_of_ok (raiseIf_of_false _ _ hn)).trans
    ((run_bind_of_ok (raiseIf_of_false _ _ ho)).trans ?_))
  rw [hbits, hbytes, Int.toNat_natCast]

theorem exec_toByteArray_of_within (hw : Within s.cfg.bufCap k) : exec (.toByteArray rs1 (8 * k) a) s =
    .next (okState { s with obuf := bytesOf (slice x.bits a (8 * k)) x.tag } (lengthWord k) 0#64) :=
  (exec_toByteArray_of_inside h hk ha).trans (run_bind_of_ok (fitsBuffer_of_within s k hw))

end

/-- Settles O33: the slice is a whole number of bytes, so packing loses no bit of its value. -/
theorem toByteArrayGivesTheValueBigEndian : Obligations.ToByteArrayGivesTheValueBigEndian := by
  intro s rs1 n o
  refine ⟨exec_of_null List.mem_cons_self, fun x hx => ⟨exec_toByteArray_of_outside hx, ?_⟩⟩
  rintro k a rfl hk rfl ha
  have hlen : (slice x.bits a (8 * k)).length = 8 * k := slice_length _ _ _ ha
  have hbytes : (bytesOf (slice x.bits a (8 * k)) x.tag).length = k := by rw [bytesOf_length]; omega
  have hval := bigEndianValue_bytesOf (s := slice x.bits a (8 * k)) (by omega) x.tag
  exact ⟨fun hc => (exec_toByteArray_of_inside hx hk ha).trans
    (run_bind_of_error (fitsBuffer_of_exceeds s k hc)), fun hw => ⟨_, _, hbytes, hval, lengthWord_toNat k,
    exec_toByteArray_of_within hx hk ha hw⟩⟩

/-! ## FROMBYTEARRAY (R120) -/

section
variable {s : State} {m : Memory} (h : s.ibuf = some m) (rd : Reg)
include h

theorem exec_fromByteArray_of_exceeds (hc : Exceeds s.cfg.maxBits (8 * m.length)) :
    exec (.fromByteArray rd) s = .next (faultState s 7#8) :=
  (run_bind_of_ok (needInput_some s m h)).trans (run_bind_of_error (fits_of_exceeds s _ hc))

theorem exec_fromByteArray_of_within (hw : Within s.cfg.maxBits (8 * m.length)) :
    exec (.fromByteArray rd) s = .next (okState (withReg s rd (unpackLsb m) .LE) 0#64 0#64) :=
  (run_bind_of_ok (needInput_some s m h)).trans (run_bind_of_ok (fits_of_within s _ hw))

end

/-- Settles O35: the bits are those of `unpackLsb`, whose value is the bytes'. -/
theorem fromByteArrayStoresBytesLittleEndian : Obligations.FromByteArrayStoresBytesLittleEndian := fun s rd =>
  ⟨fun hm => run_bind_of_error (needInput_none s hm), fun m hm =>
    ⟨exec_fromByteArray_of_exceeds hm rd, fun hw => ⟨unpackLsb m, unpackLsb_length m,
      fun _ hi => unpackLsb_getElem? hi, valLsb_unpackLsb m, exec_fromByteArray_of_within hm rd hw⟩⟩⟩

/-! ## Bytes to a register and back (R130) -/

theorem slice_zero_of_length {s : List Bool} {n : Nat} (h : s.length = n) : slice s 0 n = s := by
  rw [slice, List.drop_zero, ← h, List.take_length]

theorem okState_withReg_reg (s : State) (r : Reg) (bits : List Bool) (t : Tag) (r0 r1 : Word64) :
    (okState (withReg s r bits t) r0 r1).reg r = some ⟨bits, t⟩ := s.setReg_reg_same r ⟨bits, t⟩

/-- Settles O39: both commands complete, and each undoes the other on the bytes in reversed order. -/
theorem byteConversionRoundTrip : Obligations.ByteConversionRoundTrip := by
  refine ⟨fun s rs rd x k hx hlen hk hcap hmax => ?_, fun s rd m hm hne hcap hmax => ?_⟩
  · have hbytes : (bytesOf x.bits x.tag).reverse.length = k := by
      rw [List.length_reverse, bytesOf_length]; omega
    have hto := exec_toByteArray_of_within (a := 0) hx hk (by omega) hcap
    rw [slice_zero_of_length hlen] at hto
    refine ⟨_, _, hto, exec_fromByteArray_of_within rfl rd (by rwa [← hbytes] at hmax), ?_⟩
    rw [okState_withReg_reg]
    show some (BitSeq.mk (unpackLsb (bytesOf x.bits x.tag).reverse) .LE) = _
    rw [unpackLsb_reverse_bytesOf (by omega)]
    obtain ⟨l, t⟩ := x
    cases t <;> rfl
  · have hreg := okState_withReg_reg s rd (unpackLsb m) .LE 0#64 0#64
    have hlen := unpackLsb_length m
    refine ⟨_, _, exec_fromByteArray_of_within hm rd hmax, exec_toByteArray_of_within (a := 0) hreg
      (List.length_pos_iff.mpr hne) (by simp [hlen]) hcap, ?_⟩
    show bytesOf (slice (unpackLsb m) 0 (8 * m.length)) .LE = _
    rw [slice_zero_of_length hlen, bytesOf_unpackLsb]

/-! ## An integer to a register and back (R132) -/

section
variable {w n : Nat} {v : Int} (hn : (n : Int) = v % 2 ^ w)
include hn

/-- The pattern of a signed value, sign-extended, stands for the value (R15). -/
theorem extended_signed_of_mem_typeRange (hpos : 0 < w) (hw : w ≤ 64) (hlo : (typeRange .signed w).1 ≤ v)
    (hhi : v ≤ (typeRange .signed w).2) : (extended .signed w n).toInt = v := by
  have hpat : BitVec.ofNat w n = BitVec.ofInt w v := by
    have hnat : (BitVec.ofInt w v).toNat = n := by exact_mod_cast (ofInt_toNat w v).trans hn.symm
    rw [← hnat, BitVec.ofNat_toNat, BitVec.setWidth_eq]
  calc (extended .signed w n).toInt
      = (BitVec.ofNat w n).toInt := BitVec.toInt_signExtend_of_le hw
    _ = v := by rw [hpat, BitVec.toInt_ofInt_eq_self hpos hlo (Int.lt_of_le_sub_one hhi)]

/-- The pattern of an unsigned value, zero-extended, is the value (R15). -/
theorem extended_unsigned_of_mem_typeRange (hw : w ≤ 64) (hlo : (typeRange .unsigned w).1 ≤ v)
    (hhi : v ≤ (typeRange .unsigned w).2) : ((extended .unsigned w n).toNat : Int) = v := by
  have hv : (n : Int) = v := hn.trans (Int.emod_eq_of_lt hlo (Int.lt_of_le_sub_one hhi))
  have hlt : (n : Int) < 2 ^ w := hv ▸ Int.lt_of_le_sub_one hhi
  rw [extended_unsigned_toNat hw (by exact_mod_cast hlt), hv]

end

/-- The commands of one row of both tables have one width and one type (R112 to R129). -/
theorem fromCommands_match_toCommands : ∀ p ∈ List.zip toCommands fromCommands,
    p.2.2.1 = p.1.2.1 ∧ p.2.2.2 = typeRange (signOf p.1.2.2) p.1.2.1 := by
  decide

/-- Settles O37: the register holds the value mod 2^W, and extension with the type's sign gives the value back. -/
theorem toAfterFromReturnsTheValue : Obligations.ToAfterFromReturnsTheValue := by
  rintro ⟨⟨toCommand, w, signed⟩, fromCommand, w', range⟩ hp s rd v hlo hhi
  obtain ⟨hto, hfrom⟩ := List.of_mem_zip hp
  obtain ⟨⟨hpos, hw⟩, hexecTo⟩ := exec_of_mem_toCommands _ hto
  obtain ⟨sg, (hrange : typeRange sg w' = range), hexecFrom⟩ := exec_of_mem_fromCommands _ hfrom
  obtain ⟨hwidth, htype⟩ := fromCommands_match_toCommands _ hp
  obtain rfl : w' = w := hwidth
  obtain rfl : range = typeRange (signOf signed) w' := htype
  have hin : (typeRange sg w').1 ≤ v ∧ v ≤ (typeRange sg w').2 := by rw [hrange]; exact ⟨hlo, hhi⟩
  have hstore := fromInteger_of_inside hin rd s
  have hreg := okState_withReg_reg s rd (lowBits w' v) .LE 0#64 0#64
  have hread := toInteger_of_inside w' (signOf signed) hreg (a := 0) (by simp)
  rw [slice_zero_of_length (lowBits_length w' v)] at hread
  refine ⟨_, _, (hexecFrom rd v s).trans hstore, (hexecTo rd 0 _).trans hread, ?_, ?_⟩
  · rintro rfl
    exact extended_signed_of_mem_typeRange (lowBits_val w' v) hpos hw hlo hhi
  · rintro rfl
    exact extended_unsigned_of_mem_typeRange (lowBits_val w' v) hw hlo hhi

end Sys2Proof.Machine
end

section
/-! PROOFS. The bitwise, rotate and counter commands (R140 to R154): what each does to the stored bits or to the value,
said once, then each command as its checks and one update. -/
namespace Sys2Proof.Machine

/-! ## AND, OR and XOR (R140 to R143) -/

/-- The operator where both lists have a bit, then the rest of the first list (R140). -/
theorem zipPrefix_eq_zipWith_append_drop (op : Bool → Bool → Bool) (l z : List Bool) :
    zipPrefix op l z = List.zipWith op l z ++ l.drop z.length := by
  fun_induction zipPrefix op l z with
  | case1 x l y z ih => simp [ih]
  | case2 l => simp
  | case3 z => simp

section
variable {l z : List Bool} {i : Nat} (op : Bool → Bool → Bool) (hz : z.length ≤ l.length)
include hz

theorem zipPrefix_getD_of_lt (hi : i < z.length) :
    (zipPrefix op l z).getD i false = op (l.getD i false) (z.getD i false) := by
  have hzip : i < (List.zipWith op l z).length := by rw [List.length_zipWith]; omega
  rw [zipPrefix_eq_zipWith_append_drop, List.getD_append _ _ _ _ hzip, List.getD_eq_getElem _ _ hzip,
    List.getElem_zipWith, List.getD_eq_getElem, List.getD_eq_getElem]

theorem zipPrefix_getElem?_of_ge (hi : z.length ≤ i) : (zipPrefix op l z)[i]? = l[i]? := by
  have hlen : (List.zipWith op l z).length = z.length := by rw [List.length_zipWith]; omega
  rw [zipPrefix_eq_zipWith_append_drop, List.getElem?_append_right (hlen.trans_le hi), hlen, List.getElem?_drop,
    Nat.add_sub_cancel' hi]

end

/-- The bits of the shorter operand `q`, as they are combined with the longer operand `l`: reversed when the tags and
the lengths differ (R140). -/
def alignedBits (l q : BitSeq) : List Bool :=
  if l.tag ≠ q.tag ∧ l.bits.length ≠ q.bits.length then q.bits.reverse else q.bits

theorem alignedBits_length (l q : BitSeq) : (alignedBits l q).length = q.bits.length := by
  unfold alignedBits
  split
  · exact List.length_reverse
  · rfl

theorem combineOnto_eq (op : Bool → Bool → Bool) (l q : BitSeq) :
    combineOnto op l q = ⟨zipPrefix op l.bits (alignedBits l q), l.tag⟩ := by
  rw [combineOnto, alignedBits, apply_ite BitSeq.bits]; rfl

/-- On itself a register needs no alignment, and no rest is left. -/
theorem combine_self (op : Bool → Bool → Bool) (x : BitSeq) :
    combine op x x = ⟨x.bits.map fun b => op b b, x.tag⟩ := by
  simp [combine, combineOnto_eq, alignedBits, zipPrefix_eq_zipWith_append_drop, List.zipWith_self]

/-- The longer operand comes first, rs1 when both are equally long (R140). -/
theorem combine_of_longer {a b l q : BitSeq} (op : Bool → Bool → Bool)
    (h : (l, q) = if b.bits.length > a.bits.length then (b, a) else (a, b)) :
    q.bits.length ≤ l.bits.length ∧ combine op a b = combineOnto op l q := by
  unfold combine
  split at h
  · next hlt => cases h; exact ⟨hlt.le, if_pos hlt⟩
  · next hle => cases h; exact ⟨Nat.le_of_not_lt hle, if_neg hle⟩

/-- Each row of the table is the common rule with its bit function (R141 to R143). -/
theorem exec_of_mem_bitwiseCommands : ∀ p ∈ bitwiseCommands, ∀ rd rs1 rs2,
    readRegs (p.1 rd rs1 rs2) = [rs1, rs2] ∧ exec (p.1 rd rs1 rs2) = bitwise p.2 rd rs1 rs2 := by
  have hand : (fun x y : Bool => x && y) = fun x y => decide (x = true ∧ y = true) := by decide
  have hor : (fun x y : Bool => x || y) = fun x y => decide (x = true ∨ y = true) := by decide
  have hxor : (fun x y : Bool => x != y) = fun x y => decide (x ≠ y) := by decide
  simp only [bitwiseCommands, List.forall_mem_cons, List.not_mem_nil, false_imp_iff, implies_true, and_true]
  exact ⟨fun _ _ _ => ⟨rfl, hand ▸ rfl⟩, fun _ _ _ => ⟨rfl, hor ▸ rfl⟩, fun _ _ _ => ⟨rfl, hxor ▸ rfl⟩⟩

section
variable {s : State} {rs1 rs2 : Reg} {a b : BitSeq} (op : Bool → Bool → Bool) (ha : s.reg rs1 = some a)
  (hb : s.reg rs2 = some b) (rd : Reg)
include ha hb

/-- With both registers read, the two checks for Count 0 are left. -/
theorem bitwise_of_some : bitwise op rd rs1 rs2 s =
    run s (nonEmpty a >>= fun _ => nonEmpty b >>= fun _ => done (s.setReg rd (combine op a b))) :=
  (run_bind_of_ok (need_some s rs1 a ha)).trans (run_bind_of_ok (need_some s rs2 b hb))

theorem bitwise_of_nil (h : a.bits = [] ∨ b.bits = []) :
    bitwise op rd rs1 rs2 s = .next (faultState s 3#8) := by
  refine (bitwise_of_some op ha hb rd).trans ?_
  by_cases hx : a.bits = []
  · exact run_bind_of_error (nonEmpty_of_nil a hx)
  · exact (run_bind_of_ok (nonEmpty_of_ne a hx)).trans
      (run_bind_of_error (nonEmpty_of_nil b (h.resolve_left hx)))

theorem bitwise_of_ne (hx : a.bits ≠ []) (hy : b.bits ≠ []) : bitwise op rd rs1 rs2 s =
    .next (okState (withReg s rd (combine op a b).bits (combine op a b).tag) 0#64 0#64) :=
  (bitwise_of_some op ha hb rd).trans
    ((run_bind_of_ok (nonEmpty_of_ne a hx)).trans (run_bind_of_ok (nonEmpty_of_ne b hy)))

end

/-- Settles O40: the common rule's cases; its result is the operator where both operands have a bit, and the rest. -/
theorem bitwiseCommandsCombineThePrefix : Obligations.BitwiseCommandsCombineThePrefix := by
  intro p hp s rd rs1 rs2
  obtain ⟨hread, hexec⟩ := exec_of_mem_bitwiseCommands p hp rd rs1 rs2
  refine ⟨fun hnull => ?_, fun a b ha hb => ?_⟩
  · rcases hnull with hn | hn
    · exact exec_of_null (by simp [hread]) hn
    · exact exec_of_null (by simp [hread]) hn
  · rw [hexec]
    refine ⟨bitwise_of_nil p.2 ha hb rd, ?_⟩
    rintro hx hy l q hlq _ rfl
    obtain ⟨hle, hcombine⟩ := combine_of_longer p.2 hlq
    have hz : (alignedBits l q).length ≤ l.bits.length := (alignedBits_length l q).trans_le hle
    have hdone := bitwise_of_ne p.2 ha hb rd hx hy
    rw [hcombine, combineOnto_eq] at hdone
    exact ⟨_, zipPrefix_length p.2 _ _ hz, fun _ => zipPrefix_getD_of_lt p.2 hz,
      fun _ => zipPrefix_getElem?_of_ge p.2 hz, hdone⟩

/-! ## The checks of a one-operand command (R144, R145, R150) -/

section
variable {s : State} {rs1 : Reg} {x : BitSeq} {f : BitSeq → Except FaultKind Result} (h : s.reg rs1 = some x)
include h

/-- An empty register is InvalidArgument. -/
theorem run_need_nonEmpty_of_nil (hx : x.bits = []) :
    run s (need s rs1 >>= fun x => nonEmpty x >>= fun _ => f x) = .next (faultState s 3#8) :=
  (run_bind_of_ok (need_some s rs1 x h)).trans (run_bind_of_error (nonEmpty_of_nil x hx))

/-- What follows the two checks, for a register with at least one bit. -/
theorem run_need_nonEmpty_of_ne (hx : x.bits ≠ []) :
    run s (need s rs1 >>= fun x => nonEmpty x >>= fun _ => f x) = run s (f x) :=
  (run_bind_of_ok (need_some s rs1 x h)).trans (run_bind_of_ok (nonEmpty_of_ne x hx))

end

/-! ## NOT (R144) -/

theorem exec_not_of_ne {s : State} {rs1 : Reg} {x : BitSeq} (h : s.reg rs1 = some x) (hx : x.bits ≠ []) (rd : Reg) :
    exec (.not rd rs1) s = .next (okState (withReg s rd (x.bits.map fun b => !b) x.tag) 0#64 0#64) :=
  run_need_nonEmpty_of_ne h hx

/-- Settles O41: after the two checks every bit is complemented. -/
theorem notComplementsEveryBit : Obligations.NotComplementsEveryBit := fun _ rd _ =>
  ⟨exec_of_null List.mem_cons_self, fun _ h =>
    ⟨run_need_nonEmpty_of_nil h, fun hx => exec_not_of_ne h hx rd⟩⟩

/-! ## ROL and ROR (R145 to R147) -/

theorem BitSeq.rotatedLeft_bits (x : BitSeq) (n : Nat) : (x.rotatedLeft n).bits = x.bits.rotate n :=
  List.rotate_eq_drop_append_take_mod.symm

@[simp] theorem BitSeq.rotatedLeft_tag (x : BitSeq) (n : Nat) : (x.rotatedLeft n).tag = x.tag := rfl

/-- Rotating the reversed bits to the left is rotating the bits by the rest of a full turn. -/
theorem BitSeq.rotatedRight_bits (x : BitSeq) (n : Nat) :
    (x.rotatedRight n).bits = x.bits.rotate (x.bits.length - n % x.bits.length) := by
  rw [rotatedRight, reversed_bits, rotatedLeft_bits, reversed_bits, List.rotate_reverse, List.reverse_reverse]

/-- The two reversals cancel on the tag (R147). -/
@[simp] theorem BitSeq.rotatedRight_tag (x : BitSeq) (n : Nat) : (x.rotatedRight n).tag = x.tag :=
  flipTag_flipTag x.tag

section
variable {x : BitSeq} {i : Nat} (hi : i < x.bits.length) (n : Nat)
include hi

theorem BitSeq.rotatedLeft_getElem? :
    (x.rotatedLeft n).bits[i]? = x.bits[(i + n % x.bits.length) % x.bits.length]? := by
  rw [rotatedLeft_bits, List.getElem?_rotate hi, Nat.add_mod_mod]

theorem BitSeq.rotatedRight_getElem? : (x.rotatedRight n).bits[i]? =
    x.bits[(((i : Int) - (n % x.bits.length : Nat)) % x.bits.length).toNat]? := by
  have hc : n % x.bits.length ≤ x.bits.length := (Nat.mod_lt n (Nat.zero_lt_of_lt hi)).le
  have hsum : ((i + (x.bits.length - n % x.bits.length) : Nat) : Int) =
      (i : Int) - (n % x.bits.length : Nat) + x.bits.length := by omega
  rw [rotatedRight_bits, List.getElem?_rotate hi, ← Int.add_emod_right, ← hsum, ← Int.natCast_emod,
    Int.toNat_natCast]

end

section
variable {s : State} {rs1 : Reg} {x : BitSeq} (f : BitSeq → Nat → BitSeq) (h : s.reg rs1 = some x) (rd : Reg)
include h

/-- The empty register is found before the negative count, but the fault is the same (R225). -/
theorem rotate_of_invalid {n : Int} (hn : x.bits = [] ∨ n < 0) :
    rotate f rd rs1 n s = .next (faultState s 3#8) := by
  by_cases hx : x.bits = []
  · exact run_need_nonEmpty_of_nil h hx
  · exact (run_need_nonEmpty_of_ne h hx).trans (run_bind_of_error (countArg_of_neg n (hn.resolve_left hx)))

theorem rotate_of_ne (hx : x.bits ≠ []) (k : Nat) : rotate f rd rs1 k s =
    .next (okState (withReg s rd (f x k).bits (f x k).tag) 0#64 0#64) :=
  (run_need_nonEmpty_of_ne h hx).trans (run_bind_of_ok ((countArg_eq_ok k k).mpr rfl))

end

/-- Settles O42: ROR's reversals make it a left rotation by n - c, and i + (n - c) is i - c modulo n. -/
theorem rotatesMoveEveryBit : Obligations.RotatesMoveEveryBit := by
  intro s rd rs1 n
  refine ⟨fun hnull => ⟨exec_of_null List.mem_cons_self hnull, exec_of_null List.mem_cons_self hnull⟩,
    fun x h => ⟨fun hn => ⟨rotate_of_invalid _ h rd hn, rotate_of_invalid _ h rd hn⟩, ?_⟩⟩
  rintro k _ hx rfl rfl
  exact ⟨⟨_, x.rotatedLeft_length k, fun _ hi => BitSeq.rotatedLeft_getElem? hi k, rotate_of_ne _ h rd hx k⟩,
    ⟨_, x.rotatedRight_length k, fun _ hi => BitSeq.rotatedRight_getElem? hi k,
      x.rotatedRight_tag k ▸ rotate_of_ne _ h rd hx k⟩⟩

/-! ## INC and DEC (R150 to R153) -/

/-- The ripple carry adds 1, and a carry out of the last bit is lost (R152). -/
theorem valLsb_incBits (l : List Bool) : valLsb (incBits l) = (valLsb l + 1) % 2 ^ l.length := by
  fun_induction incBits l with
  | case1 => rfl
  | case2 l =>
    have hlt := valLsb_lt l
    rw [Nat.mod_eq_of_lt (by simp [Nat.pow_succ]; omega)]
    simp [Nat.add_comm]
  | case3 l ih =>
    have hcarry : valLsb (true :: l) + 1 = 2 * (valLsb l + 1) := by rw [valLsb_cons, Bool.toNat_true]; ring
    rw [hcarry, List.length_cons, Nat.pow_succ', Nat.mul_mod_mul_left, ← ih, valLsb_cons, Bool.toNat_false,
      Nat.zero_add]

/-- The ripple borrow of DEC is undone by the ripple carry of INC. -/
@[simp] theorem incBits_decBits (l : List Bool) : incBits (decBits l) = l := by
  fun_induction decBits l with
  | case1 | case2 => rfl
  | case3 l ih => rw [incBits, ih]

/-- The value that INC steps to the given one is the given one less 1, modulo 2^Count (R153). -/
theorem valLsb_decBits (l : List Bool) :
    (valLsb (decBits l) : Int) = ((valLsb l : Int) - 1) % 2 ^ l.length := by
  have hinc : (valLsb l : Int) = (valLsb (decBits l) + 1) % 2 ^ l.length := by
    have h := valLsb_incBits (decBits l)
    rw [incBits_decBits, decBits_length] at h
    exact_mod_cast h
  have hlt : (valLsb (decBits l) : Int) < 2 ^ l.length := by
    have h := valLsb_lt (decBits l)
    rw [decBits_length] at h
    exact_mod_cast h
  rw [hinc, Int.emod_sub_emod, add_sub_cancel_right, Int.emod_eq_of_lt (Int.natCast_nonneg _) hlt]

/-- A counter step works on a bit list that has the register's value, whatever its tag (R150). -/
theorem BitSeq.exists_counted_val (f : List Bool → List Bool) (x : BitSeq) :
    ∃ l, l.length = x.bits.length ∧ valLsb l = x.val ∧ (x.counted f).val = valLsb (f l) := by
  obtain ⟨l, t⟩ := x
  cases t with
  | LE => exact ⟨l, rfl, rfl, rfl⟩
  | BE => exact ⟨l.reverse, List.length_reverse, rfl, BitSeq.reversed_val ⟨f l.reverse, .LE⟩⟩

theorem BitSeq.counted_incBits_val (x : BitSeq) :
    (x.counted incBits).val = (x.val + 1) % 2 ^ x.bits.length := by
  obtain ⟨l, hlen, hval, hstep⟩ := x.exists_counted_val incBits
  rw [hstep, valLsb_incBits, hlen, hval]

theorem BitSeq.counted_decBits_val (x : BitSeq) :
    ((x.counted decBits).val : Int) = ((x.val : Int) - 1) % 2 ^ x.bits.length := by
  obtain ⟨l, hlen, hval, hstep⟩ := x.exists_counted_val decBits
  rw [hstep, valLsb_decBits, hlen, hval]

/-- Settles O43: the carry and the borrow step the value of the bits counted from the least significant end. -/
theorem countersStepTheLogicalValue : Obligations.CountersStepTheLogicalValue := by
  intro s rd rs1
  refine ⟨fun hnull => ⟨exec_of_null List.mem_cons_self hnull, exec_of_null List.mem_cons_self hnull⟩,
    fun x h => ⟨fun hx => ⟨run_need_nonEmpty_of_nil h hx, run_need_nonEmpty_of_nil h hx⟩, fun hx => ⟨?_, ?_⟩⟩⟩
  · exact ⟨x.counted incBits, x.counted_tag _, x.counted_length _ incBits_length, x.counted_incBits_val,
      run_need_nonEmpty_of_ne h hx⟩
  · exact ⟨x.counted decBits, x.counted_tag _, x.counted_length _ decBits_length, x.counted_decBits_val,
      run_need_nonEmpty_of_ne h hx⟩

/-! ## The laws of R154 -/

section
variable {s : State} {r : Reg} {x : BitSeq} (h : s.reg r = some x) (hx : x.bits ≠ [])
include h hx

theorem not_not_restores :
    ∃ t u, exec (.not r r) s = .next t ∧ exec (.not r r) t = .next u ∧ u.reg r = some x := by
  have hreg := okState_withReg_reg s r (x.bits.map fun b => !b) x.tag 0#64 0#64
  refine ⟨_, _, exec_not_of_ne h hx r, exec_not_of_ne hreg (mt List.map_eq_nil_iff.mp hx) r, ?_⟩
  rw [okState_withReg_reg]
  simp [Function.comp_def]

/-- A binary operator on a register and itself maps every bit to the operator's value on it and itself. -/
theorem bitwise_self_reg (op : Bool → Bool → Bool) : ∃ t, bitwise op r r r s = .next t ∧
    t.reg r = some ⟨x.bits.map fun b => op b b, x.tag⟩ := by
  refine ⟨_, bitwise_of_ne op h h r hx hx, ?_⟩
  rw [okState_withReg_reg, combine_self]

end

/-- Settles O44: bit by bit, `!!b` is b, `b && b` is b, and `b != b` is false. -/
theorem bitwiseLaws : Obligations.BitwiseLaws := by
  intro s r x h hx
  have hand := bitwise_self_reg h hx (fun b c => b && c)
  have hxor := bitwise_self_reg h hx (fun b c => b != c)
  simp only [Bool.and_self, List.map_id'] at hand
  simp only [bne_self_eq_false, List.map_const'] at hxor
  exact ⟨not_not_restores h hx, hand, hxor⟩

end Sys2Proof.Machine
end

section
/-! PROOFS. The queue (R160 to R165): what each queue command leaves, that draining the queue is a stable sort, and that
the tree of COMPRESS is built on such a queue, its root weighing what all seeds weigh together (R171 to R174). -/
namespace Sys2Proof.Machine

/-! ## ENQUEUE (R161) -/

theorem valueWithin_of_inside {v lo hi : Int} (h : lo ≤ v ∧ v ≤ hi) : valueWithin v lo hi = .ok () :=
  (valueWithin_eq_ok v lo hi ()).mpr h

/-- With both operands in range, only the room in the queue decides. -/
theorem exec_enqueue_of_inside {s : State} {v w : Int} (hv : 0 ≤ v ∧ v ≤ 2 ^ s.cfg.itemBits - 1)
    (hw : -(2 ^ 31) ≤ w ∧ w ≤ 2 ^ 31 - 1) : exec (.enqueue v w) s =
      run s (raiseIf (admits s.cfg.qCap (s.q.length + 1) = false) .capacityExceeded >>= fun _ =>
        done (s.setQueue (enqueue s.q v.toNat w))) :=
  (run_bind_of_ok (valueWithin_of_inside hv)).trans (run_bind_of_ok (valueWithin_of_inside hw))

/-- Settles O45: the item is checked, then the weight, then the room. -/
theorem enqueueAppendsTheEntry : Obligations.EnqueueAppendsTheEntry := by
  intro s v w
  refine ⟨fun hbad => ?_, fun hv0 hv hw0 hw => ?_⟩
  · by_cases hv : 0 ≤ v ∧ v ≤ 2 ^ s.cfg.itemBits - 1
    · exact (run_bind_of_ok (valueWithin_of_inside hv)).trans
        (run_bind_of_error (raiseIf_of_true _ _ (by omega)))
    · exact run_bind_of_error (raiseIf_of_true _ _ (by omega))
  · rw [exec_enqueue_of_inside ⟨hv0, Int.le_sub_one_of_lt hv⟩ ⟨hw0, hw⟩]
    refine ⟨fun hfull => ?_, fun hroom => ?_⟩
    · have hno : Exceeds s.cfg.qCap (s.q.length + 1) := ⟨_, hfull, Nat.lt_succ_self _⟩
      exact run_bind_of_error (raiseIf_of_true _ _ ((admits_eq_false_iff_exceeds _ _).mpr hno))
    · exact run_bind_of_ok (raiseIf_of_false _ _ (ne_false_of_eq_true ((admits_iff_within _ _).mpr hroom)))

/-! ## QCOUNT and QCLEAR (R163, R164) -/

/-- Settles O47: the word is `lengthWord`, exact below 2^64. -/
theorem queueCountAndClear : Obligations.QueueCountAndClear := fun s =>
  ⟨⟨lengthWord s.q.length, lengthWord_toNat _, rfl⟩, rfl⟩

/-! ## DEQUEUE (R162) -/

theorem exec_dequeue_of_some {s : State} {e : Entry Nat} {rest : List (Entry Nat)}
    (h : dequeue s.q = some (e, rest)) :
    exec .dequeue s = .next (okState { s with q := rest } (zext64 e.item) (weightWord e.weight)) := by
  show execDequeue s = _
  rw [execDequeue, h]
  rfl

theorem exec_dequeue_of_nil {s : State} (h : s.q = []) : exec .dequeue s = .next (faultState s 8#8) := by
  show execDequeue s = _
  rw [execDequeue, h]
  rfl

/-- The words of an entry lose nothing of an item and a weight of the widths of R29. -/
theorem EntryOk.words {p : Params} {e : Entry Nat} (h : EntryOk p e) (hp : p.itemBits ≤ 63) :
    (zext64 e.item).toNat = e.item ∧ (weightWord e.weight).toInt = e.weight := by
  obtain ⟨hitem, hlo, hhi⟩ := h
  exact ⟨extended_unsigned_toNat (by omega) hitem, BitVec.toInt_ofInt_eq_self (by decide) (by omega) (by omega)⟩

/-- Settles O46: `dequeue` takes out the earliest entry of least weight. -/
theorem dequeueTakesTheEarliestLeastWeight : Obligations.DequeueTakesTheEarliestLeastWeight := by
  refine fun s => ⟨exec_dequeue_of_nil, fun hne hok hp => ?_⟩
  obtain ⟨e, rest, hd⟩ := exists_dequeue hne
  obtain ⟨before, after, hq, rfl, hbefore, hafter⟩ := dequeue_spec _ _ _ hd
  obtain ⟨hitem, hweight⟩ := (hok e (by simp [hq])).words hp
  exact ⟨before, e, after, hq, hbefore, hafter, _, _, hitem, hweight, exec_dequeue_of_some hd⟩

/-! ## The stable order by weight (R160, R165) -/

/-- The entries in the stable order by weight, put in place one by one from the last: each goes before
the entries of its own weight. -/
def byWeight {α : Type} (q : List (Entry α)) : List (Entry α) :=
  q.insertionSort fun x y => x.weight ≤ y.weight

/-- An element goes between those that it may not stand before and those that it may. -/
theorem orderedInsert_append {α : Type} {r : α → α → Prop} [DecidableRel r] {a : α} {l₁ l₂ : List α}
    (h₁ : ∀ b ∈ l₁, ¬r a b) (h₂ : ∀ b ∈ l₂, r a b) :
    (l₁ ++ l₂).orderedInsert r a = l₁ ++ a :: l₂ := by
  induction l₁ with
  | nil =>
    cases l₂ with
    | nil => rfl
    | cons b l₂ => exact List.orderedInsert_cons_of_le r l₂ (h₂ b List.mem_cons_self)
  | cons b l₁ ih =>
    rw [List.forall_mem_cons] at h₁
    rw [List.cons_append, List.orderedInsert_of_not_le r _ h₁.1, ih h₁.2]
    rfl

/-- The stable merge sort gives the same order, for it too puts an entry before its equals. -/
theorem mergeSort_eq_byWeight {α : Type} (q : List (Entry α)) :
    (q.mergeSort fun a b => decide (a.weight ≤ b.weight)) = byWeight q := by
  have htrans : ∀ a b c : Entry α, decide (a.weight ≤ b.weight) → decide (b.weight ≤ c.weight) →
      decide (a.weight ≤ c.weight) := fun _ _ _ hab hbc => by
    simpa using le_trans (of_decide_eq_true hab) (of_decide_eq_true hbc)
  have htotal : ∀ a b : Entry α, decide (a.weight ≤ b.weight) || decide (b.weight ≤ a.weight) := fun a b => by
    simpa using le_total a.weight b.weight
  induction q with
  | nil => exact List.mergeSort_nil
  | cons e q ih =>
    obtain ⟨l₁, l₂, hcons, hq, hbefore⟩ := List.mergeSort_cons htrans htotal e q
    have hsorted := List.pairwise_mergeSort htrans htotal (e :: q)
    rw [hcons, List.pairwise_append, List.pairwise_cons] at hsorted
    obtain ⟨-, ⟨hafter, -⟩, -⟩ := hsorted
    rw [byWeight, List.insertionSort_cons, ← byWeight, ← ih, hq, hcons,
      orderedInsert_append (by simpa using hbefore) (by simpa using hafter)]

/-- What a dequeue takes is the first entry of the order, and the others keep theirs. -/
theorem TakesLeast.byWeight_eq {α : Type} {q rest : List (Entry α)} {e : Entry α} (h : TakesLeast q e rest) :
    byWeight q = e :: byWeight rest := by
  obtain ⟨before, after, rfl, rfl, hbefore, hafter⟩ := h
  induction before with
  | nil => exact List.insertionSort_cons_of_forall_rel _ hafter
  | cons d before ih =>
    rw [List.forall_mem_cons] at hbefore
    have htail : byWeight (before ++ e :: after) = e :: byWeight (before ++ after) := ih hbefore.2
    simp only [byWeight, List.cons_append, List.insertionSort_cons] at htail ⊢
    rw [htail, List.orderedInsert_of_not_le (fun x y : Entry α => x.weight ≤ y.weight) _ (not_le.mpr hbefore.1)]

/-- The DEQUEUEs return the entries in the stable order by weight. -/
theorem dequeued_eq {n : Nat} {s : State} (hn : s.q.length = n) : dequeued n s =
    ((byWeight s.q).map fun e => some ⟨0#8, zext64 e.item, weightWord e.weight⟩, []) := by
  induction n generalizing s with
  | zero =>
    have hq := List.length_eq_zero_iff.mp hn
    rw [dequeued, hq]
    rfl
  | succ n ih =>
    obtain ⟨e, rest, hd⟩ := exists_dequeue (List.ne_nil_of_length_eq_add_one hn)
    have hlen := dequeue_length _ _ _ hd
    have hdrain := ih (s := okState { s with q := rest } (zext64 e.item) (weightWord e.weight))
      (show rest.length = n by omega)
    simp only [dequeued, exec_dequeue_of_some hd, hdrain, (takesLeast_of_dequeue hd).byWeight_eq, List.map_cons]
    rfl

/-- Settles O48: each DEQUEUE returns the first entry of the stable order and leaves the rest of it. -/
theorem drainingTheQueueIsAStableSort : Obligations.DrainingTheQueueIsAStableSort := fun s => by
  rw [dequeued_eq rfl, mergeSort_eq_byWeight]
  exact ⟨rfl, rfl⟩

/-! ## The weight of the tree (R171 to R174) -/

/-- An internal node's own weight is `n`; a leaf has none. -/
def Tree.WeighsIfNode (t : Tree) (n : Int) : Prop := ∀ l r w, t = .node l r w → w = n

theorem TakesLeast.perm {α : Type} {q rest : List (Entry α)} {e : Entry α} (h : TakesLeast q e rest) :
    q.Perm (e :: rest) := by
  obtain ⟨before, after, rfl, rfl, -⟩ := h
  exact List.perm_middle

/-- The combine loop keeps the sum of the weights, and in the end the root alone has it (R173). -/
theorem CombinesTo.weighsIfNode {q : List (Entry Tree)} {root : Tree} (h : CombinesTo q root)
    (hq : ∀ e ∈ q, e.item.WeighsIfNode e.weight) : root.WeighsIfNode (q.map Entry.weight).sum := by
  induction h with
  | root e => simpa using hq
  | combine q q1 q2 x y root hx hy _ ih =>
    have hperm : q.Perm (x :: y :: q2) := hx.perm.trans (hy.perm.cons x)
    have hnode : (Tree.node x.item y.item (x.weight + y.weight)).WeighsIfNode (x.weight + y.weight) := by
      rintro l r w ⟨⟩
      rfl
    have hq2 : ∀ e ∈ q2, e.item.WeighsIfNode e.weight := fun e he => hq e (hperm.mem_iff.mpr (by simp [he]))
    have hsum : (q.map Entry.weight).sum = (q2.map Entry.weight).sum + (x.weight + y.weight) := by
      rw [(hperm.map Entry.weight).sum_eq, List.map_cons, List.map_cons, List.sum_cons, List.sum_cons]
      ring
    have hroot := ih (by simpa [or_imp, forall_and] using ⟨hq2, hnode⟩)
    rwa [List.map_append, List.sum_append, List.map_singleton, List.sum_singleton, ← hsum] at hroot

theorem seeds_perm_dedup (b : Memory) : (seeds b).Perm b.dedup :=
  (List.perm_ext_iff_of_nodup (seeds_nodup b) b.nodup_dedup).mpr fun v => by rw [mem_seeds, List.mem_dedup]

/-- The seeds weigh what the input is long (R171, R172). -/
theorem seedQueue_weight (b : Memory) : ((seedQueue b).map Entry.weight).sum = b.length := by
  have hcount : ((seeds b).map fun v => b.count v).sum = b.length :=
    ((seeds_perm_dedup b).map _).sum_eq.trans b.sum_map_count_dedup_eq_length
  rw [seedQueue_eq_map, List.map_map, ← hcount, Nat.cast_list_sum, List.map_map]
  rfl

/-- An internal root weighs what the input is long (R173). -/
theorem weighsIfNode_of_huffmanTree {b : Memory} {root : Tree} (h : huffmanTree b = some root) :
    root.WeighsIfNode b.length := by
  rw [← seedQueue_weight]
  refine (combinesTo_of_huffmanTree h).weighsIfNode fun e he => ?_
  rw [seedQueue_eq_map] at he
  obtain ⟨v, -, rfl⟩ := List.mem_map.mp he
  exact fun _ _ _ hleaf => Tree.noConfusion hleaf

/-- Settles O50: the seeds are the distinct bytes in ascending value, and the model's loop is that of R173. -/
theorem huffmanTreeIsBuiltByTheStableQueue : Obligations.HuffmanTreeIsBuiltByTheStableQueue := by
  refine ⟨rfl, fun b hb => ?_⟩
  obtain ⟨root, h⟩ := exists_huffmanTree hb
  have hleaves := leaves_perm_seeds h
  have hcombines := combinesTo_of_huffmanTree h
  rw [seedQueue_eq_map] at hcombines
  exact ⟨root, h, ⟨seeds b, seeds_pairwise b, fun v => mem_seeds, hcombines⟩,
    hleaves.nodup_iff.mpr (seeds_nodup b), fun v => hleaves.mem_iff.trans mem_seeds,
    weighsIfNode_of_huffmanTree h⟩

end Sys2Proof.Machine
end

section
/-! PROOFS. COMPRESS (R170, R180): the input array and the room in OBUF are checked before its one update. -/
namespace Sys2Proof.Machine

section
variable {s : State} {m : Memory} (h : s.ibuf = some m)
include h

/-- With an input array one check is left: the room for the compressed bytes. -/
theorem exec_compress_of_input : exec .compress s =
    run s (fitsBuffer s (compress m).length >>= fun _ =>
      returning ((s.setOutput (compress m)).setQueue []) (lengthWord (compress m).length)) :=
  run_bind_of_ok (needInput_some s m h)

theorem exec_compress_of_exceeds (hc : Exceeds s.cfg.bufCap (compress m).length) :
    exec .compress s = .next (faultState s 7#8) :=
  (exec_compress_of_input h).trans (run_bind_of_error (fitsBuffer_of_exceeds s _ hc))

theorem exec_compress_of_within (hw : Within s.cfg.bufCap (compress m).length) : exec .compress s =
    .next (okState { s with obuf := compress m, q := [] } (lengthWord (compress m).length) 0#64) :=
  (exec_compress_of_input h).trans (run_bind_of_ok (fitsBuffer_of_within s _ hw))

end

/-- Settles O49: the two checks in their order, then the update; the word is exact below 2^64. -/
theorem compressReplacesTheOutputAndEmptiesTheQueue :
    Obligations.CompressReplacesTheOutputAndEmptiesTheQueue := fun s =>
  ⟨fun hm => run_bind_of_error (needInput_none s hm), fun m hm =>
    ⟨exec_compress_of_exceeds hm, fun hw => ⟨lengthWord (compress m).length,
      lengthWord_toNat (compress m).length, exec_compress_of_within hm hw⟩⟩⟩

end Sys2Proof.Machine
end

section
/-! PROOFS. The decoder (R190 to R201): its header checks, the faults it may raise, and how its walk takes one code
after another; how its parse treats a tree that is whole, too large or cut off; from that, what it does with any tree and
payload. -/
namespace Sys2Proof.Machine

/-! ## The stripped bits (R191, R192) -/

/-- The decoder on the bits that are left when the pad bits are stripped (R193 to R198). -/
def decodeBits (cfg : Params) (s : List Bool) : Except FaultKind Memory :=
  if s = [] then .ok []
  else parseTree cfg.nodeCap s.length 0 s >>= fun parsed => decodePayload cfg.bufCap parsed.1 parsed.2.2

theorem decodeBits_of_ne_nil (cfg : Params) {s : List Bool} (h : s ≠ []) : decodeBits cfg s =
    parseTree cfg.nodeCap s.length 0 s >>= fun parsed => decodePayload cfg.bufCap parsed.1 parsed.2.2 :=
  if_neg h

/-- DECOMPRESS's function is its two header checks, then the decoder on the stripped bits. -/
theorem decompress_cons (cfg : Params) (t : Byte) (m : Memory) : decompress cfg (t :: m) =
    if t.toNat > 7 ∨ t.toNat > 8 * m.length then .error .corruptData
    else decodeBits cfg ((bufferBits m).take (8 * m.length - t.toNat)) := by
  simp only [decompress, bufferBits_eq_unpackMsb, unpackMsb_length, ite_or]
  congr 2
  cases (unpackMsb m).take (8 * m.length - t.toNat) with
  | nil => rfl
  | cons x s =>
    rw [decodeBits_of_ne_nil cfg (List.cons_ne_nil x s), List.length_cons]
    dsimp only
    cases parseTree cfg.nodeCap (s.length + 1) 0 (x :: s) <;> rfl

/-- Settles O54: both checks stand before the decoding of the bits, and [0x00] has no bits. -/
theorem decoderHeaderChecks : Obligations.DecoderHeaderChecks := by
  refine fun p => ⟨rfl, fun t rest ht => ?_, fun t ht => ?_, rfl⟩
  · rw [decompress_cons, if_pos (.inl ht)]
  · have hpos : t.toNat > 8 * ([] : Memory).length := Nat.pos_of_ne_zero (BitVec.toNat_ne.mp ht)
    rw [decompress_cons, if_pos (.inr hpos)]

/-- Settles O55: of the bits, only the stripped ones reach the decoder. -/
theorem decoderIgnoresThePadBits : Obligations.DecoderIgnoresThePadBits := by
  intro p t m n hlen hbits
  rw [decompress_cons, decompress_cons, hbits, hlen]

/-! ## One emitted byte (R195, R196, R198) -/

/-- A byte emitted behind `n` others and before those of `rest`: the bound is checked as it is emitted (R198). -/
def emit (cap : Cap) (n : Nat) (v : Byte) (rest : Except FaultKind Memory) : Except FaultKind Memory :=
  if admits cap (n + 1) then rest.map (v :: ·) else .error .capacityExceeded

/-- The walk on reaching a leaf. -/
theorem walk_of_child_leaf (cap : Cap) (root : Tree) {cur : Tree} {x : Bool} {v : Byte} (h : cur.child x = .leaf v)
    (n : Nat) (s : List Bool) :
    walk cap root cur n (x :: s) = emit cap n v (walk cap root root (n + 1) s) := by
  simp only [walk, h, emit]
  cases walk cap root root (n + 1) s <;> rfl

/-- The walk on reaching an internal node. -/
theorem walk_of_child_node (cap : Cap) (root : Tree) {cur l r : Tree} {w : Int} {x : Bool}
    (h : cur.child x = .node l r w) (n : Nat) (s : List Bool) :
    walk cap root cur n (x :: s) = walk cap root (.node l r w) n s := by
  simp only [walk, h]

theorem repeatLeaf_false (cap : Cap) (v : Byte) (n : Nat) (s : List Bool) :
    repeatLeaf cap v n (false :: s) = emit cap n v (repeatLeaf cap v (n + 1) s) := by
  simp only [repeatLeaf, emit]
  cases repeatLeaf cap v (n + 1) s <;> rfl

/-! ## The decoder's faults and the bound of its output (R198, R200) -/

/-- The faults that the decoder raises (R200). -/
def DecoderFault (k : FaultKind) : Prop := k = .corruptData ∨ k = .capacityExceeded

/-- An outcome behind `n` emitted bytes: all bytes are within the bound, or the fault is one of the decoder's. -/
def DecodesWithin (cap : Cap) (n : Nat) : Except FaultKind Memory → Prop
  | .ok out => Within cap (n + out.length)
  | .error k => DecoderFault k

theorem DecodesWithin.emit {cap : Cap} {n : Nat} {rest : Except FaultKind Memory}
    (h : Within cap (n + 1) → DecodesWithin cap (n + 1) rest) (v : Byte) :
    DecodesWithin cap n (emit cap n v rest) := by
  unfold Machine.emit
  split
  · next hroom =>
    have hrest := h ((admits_iff_within _ _).mp hroom)
    cases rest with
    | error k => exact hrest
    | ok out => exact hrest.mono (by rw [List.length_cons]; omega)
  · exact .inr rfl

theorem walk_decodesWithin {cap : Cap} {root cur : Tree} {n : Nat} (hn : Within cap n) (s : List Bool) :
    DecodesWithin cap n (walk cap root cur n s) := by
  induction s generalizing cur n with
  | nil =>
    unfold walk
    split
    · exact hn
    · exact .inl rfl
  | cons x s ih =>
    cases hchild : cur.child x with
    | leaf v =>
      rw [walk_of_child_leaf cap root hchild]
      exact .emit (fun hroom => ih hroom) v
    | node l r w =>
      rw [walk_of_child_node cap root hchild]
      exact ih hn

theorem repeatLeaf_decodesWithin {cap : Cap} {v : Byte} {n : Nat} (hn : Within cap n) (s : List Bool) :
    DecodesWithin cap n (repeatLeaf cap v n s) := by
  induction s generalizing n with
  | nil => exact hn
  | cons x s ih =>
    cases x with
    | false =>
      rw [repeatLeaf_false]
      exact .emit (fun hroom => ih hroom) v
    | true => exact .inl rfl

theorem decodePayload_decodesWithin (cap : Cap) (root : Tree) (s : List Bool) :
    DecodesWithin cap 0 (decodePayload cap root s) := by
  cases root with
  | leaf v => exact repeatLeaf_decodesWithin (.zero cap) s
  | node l r w => exact walk_decodesWithin (.zero cap) s

@[simp] theorem parseTree_nil (cap : Cap) (fuel n : Nat) : parseTree cap fuel n [] = .error .corruptData := by
  cases fuel <;> rfl

/-- A 0 bit counts its node, then both subtrees are parsed (R194). -/
theorem parseTree_false (cap : Cap) (fuel n : Nat) (s : List Bool) :
    parseTree cap (fuel + 1) n (false :: s) =
      if admits cap (n + 1) then
        parseTree cap fuel (n + 1) s >>= fun left => parseTree cap fuel left.2.1 left.2.2 >>= fun right =>
          .ok (.node left.1 right.1 0, right.2)
      else .error .capacityExceeded := by
  simp only [parseTree]
  congr 1
  cases parseTree cap fuel (n + 1) s with
  | error k => rfl
  | ok left =>
    simp only [ok_bind]
    cases parseTree cap fuel left.2.1 left.2.2 <;> rfl

theorem parseTree_fault {cap : Cap} {fuel n : Nat} {s : List Bool} {k : FaultKind}
    (h : parseTree cap fuel n s = .error k) : DecoderFault k := by
  induction fuel generalizing n s k with
  | zero => cases h; exact .inl rfl
  | succ fuel ih =>
    match s with
    | [] => cases h; exact .inl rfl
    | true :: s =>
      unfold parseTree at h
      split_ifs at h <;> cases h
      · exact .inl rfl
      · exact .inr rfl
    | false :: s =>
      rw [parseTree_false] at h
      split_ifs at h
      · obtain hleft | ⟨left, -, h⟩ := (bind_eq_error_iff _ _ _).mp h
        · exact ih hleft
        · obtain hright | ⟨right, -, ⟨⟩⟩ := (bind_eq_error_iff _ _ _).mp h
          exact ih hright
      · cases h; exact .inr rfl

theorem decodeBits_decodesWithin (cfg : Params) (s : List Bool) : DecodesWithin cfg.bufCap 0 (decodeBits cfg s) := by
  unfold decodeBits
  split
  · exact .zero _
  · cases hparse : parseTree cfg.nodeCap s.length 0 s with
    | error k => exact parseTree_fault hparse
    | ok parsed => exact decodePayload_decodesWithin _ _ _

/-- Whatever the decoder gives is within BUF_CAP, and whatever it raises is one of its two faults (R198, R200). -/
theorem decompress_decodesWithin (cfg : Params) (m : Memory) : DecodesWithin cfg.bufCap 0 (decompress cfg m) := by
  cases m with
  | nil => exact .inl rfl
  | cons t m =>
    rw [decompress_cons]
    split
    · exact .inl rfl
    · exact decodeBits_decodesWithin _ _

theorem within_of_decompress {cfg : Params} {m out : Memory} (h : decompress cfg m = .ok out) :
    Within cfg.bufCap out.length := by
  have hbound := decompress_decodesWithin cfg m
  rw [h] at hbound
  exact hbound.mono (Nat.zero_add _).ge

theorem decoderFault_of_decompress {cfg : Params} {m : Memory} {k : FaultKind} (h : decompress cfg m = .error k) :
    DecoderFault k := by
  have hbound := decompress_decodesWithin cfg m
  rwa [h] at hbound

/-! ## The DECOMPRESS command (R190, R200) -/

section
variable {s : State} {m : Memory} (h : s.ibuf = some m)
include h

theorem exec_decompress_of_error {k : FaultKind} (hk : decompress s.cfg m = .error k) :
    exec .decompress s = .next (faultState s k.code) :=
  (run_bind_of_ok (needInput_some s m h)).trans (run_bind_of_error hk)

/-- The check of the room, which the decoder has made already, passes. -/
theorem exec_decompress_of_ok {out : Memory} (ho : decompress s.cfg m = .ok out) :
    exec .decompress s = .next (okState { s with obuf := out } (lengthWord out.length) 0#64) :=
  (run_bind_of_ok (needInput_some s m h)).trans ((run_bind_of_ok ho).trans
    (run_bind_of_ok (fitsBuffer_of_within s _ (within_of_decompress ho))))

end

/-- Settles O53: the command passes the decoder's outcome on, which is one of its two faults or within BUF_CAP. -/
theorem decompressReplacesTheOutputOrFails : Obligations.DecompressReplacesTheOutputOrFails := fun s =>
  ⟨fun hm => run_bind_of_error (needInput_none s hm), fun _ hm =>
    ⟨exec_decompress_of_error hm, exec_decompress_of_error hm, fun _ hk => decoderFault_of_decompress hk,
      fun out ho => ⟨within_of_decompress ho, lengthWord out.length, lengthWord_toNat out.length,
        exec_decompress_of_ok hm ho⟩⟩⟩

/-! ## Paths from the root (R195) -/

theorem symbolAt_nil {t : Tree} {v : Byte} (h : symbolAt t [] = some v) : t = .leaf v := by
  cases t with
  | leaf u => rw [Option.some.inj h]
  | node l r w => cases h

theorem symbolAt_child {t : Tree} {x : Bool} {p : List Bool} {v : Byte} (h : symbolAt t (x :: p) = some v) :
    symbolAt (t.child x) p = some v := by
  cases t with
  | leaf u => cases h
  | node l r w => cases x <;> exact h

theorem exists_node_of_symbolAt {t : Tree} {p : List Bool} {v : Byte} (h : symbolAt t p = some v) (hp : p ≠ []) :
    ∃ l r w, t = .node l r w := by
  cases t with
  | leaf u =>
    obtain ⟨x, p, rfl⟩ := List.exists_cons_of_ne_nil hp
    cases h
  | node l r w => exact ⟨l, r, w, rfl⟩

theorem leaves_child_length_le (t : Tree) (x : Bool) : (leaves (t.child x)).length ≤ (leaves t).length := by
  cases t with
  | leaf u => exact le_rfl
  | node l r w => cases x <;> simp [Tree.child, leaves]

theorem leaves_child_length_lt (l r : Tree) (w : Int) (x : Bool) :
    (leaves ((Tree.node l r w).child x)).length < (leaves (.node l r w)).length := by
  have hl := leaves_length_pos l
  have hr := leaves_length_pos r
  cases x <;> simp [Tree.child, leaves] <;> omega

/-- The walk along a path to a leaf emits the leaf's symbol and starts again at the root (R195). -/
theorem walk_path (cap : Cap) (root : Tree) {cur : Tree} {p : List Bool} {v : Byte} (h : symbolAt cur p = some v)
    (hp : p ≠ []) (n : Nat) (s : List Bool) :
    walk cap root cur n (p ++ s) = emit cap n v (walk cap root root (n + 1) s) := by
  induction p generalizing cur with
  | nil => exact absurd rfl hp
  | cons x p ih =>
    have hchild := symbolAt_child h
    rw [List.cons_append]
    by_cases hnil : p = []
    · subst hnil
      exact walk_of_child_leaf cap root (symbolAt_nil hchild) n s
    · obtain ⟨l, r, w, hnode⟩ := exists_node_of_symbolAt hchild hnil
      rw [walk_of_child_node cap root hnode, ← hnode, ih hchild hnil]

/-- A walk that ends before its path does is not at the root, when the path began below it (R197). -/
theorem walk_cutOff (cap : Cap) {root cur : Tree} {p q : List Bool} {v : Byte} (h : symbolAt cur (p ++ q) = some v)
    (hq : q ≠ []) (hcur : (leaves cur).length < (leaves root).length) (n : Nat) :
    walk cap root cur n p = .error .corruptData := by
  induction p generalizing cur with
  | nil =>
    have hne : cur ≠ root := fun heq => (heq ▸ hcur).false
    exact if_neg hne
  | cons x p ih =>
    have hchild := symbolAt_child h
    obtain ⟨l, r, w, hnode⟩ := exists_node_of_symbolAt hchild (List.append_ne_nil_of_right_ne_nil p hq)
    rw [walk_of_child_node cap root hnode, ← hnode]
    exact ih hchild ((leaves_child_length_le cur x).trans_lt hcur)

/-! ## The payload: codes, then a rest (R195, R196) -/

/-- The decoder of payload bits once `n` bytes are emitted, the walk being at the root. -/
def decodeFrom (cap : Cap) (root : Tree) (n : Nat) (s : List Bool) : Except FaultKind Memory :=
  match root with
  | .leaf v => repeatLeaf cap v n s
  | .node l r w => walk cap (.node l r w) (.node l r w) n s

theorem decodePayload_eq_decodeFrom (cap : Cap) (root : Tree) (s : List Bool) :
    decodePayload cap root s = decodeFrom cap root 0 s := by
  cases root <;> rfl

theorem decodeFrom_nil (cap : Cap) (root : Tree) (n : Nat) : decodeFrom cap root n [] = .ok [] := by
  cases root with
  | leaf v => rfl
  | node l r w => exact if_pos rfl

/-- The rest of the payload begins a path and ends inside it (R197). -/
theorem decodeFrom_cutOff (cap : Cap) {l r : Tree} {w : Int} {p q : List Bool} {v : Byte} (hp : p ≠ [])
    (hq : q ≠ []) (h : symbolAt (.node l r w) (p ++ q) = some v) (n : Nat) :
    decodeFrom cap (.node l r w) n p = .error .corruptData := by
  obtain ⟨x, p, rfl⟩ := List.exists_cons_of_ne_nil hp
  have hchild := symbolAt_child h
  obtain ⟨l', r', w', hnode⟩ := exists_node_of_symbolAt hchild (List.append_ne_nil_of_right_ne_nil p hq)
  rw [decodeFrom, walk_of_child_node cap _ hnode, ← hnode]
  exact walk_cutOff cap hchild hq (leaves_child_length_lt l r w x) n

/-- A symbol with its code: under an internal root the path to its leaf, under a single leaf the one bit 0. -/
def IsCode (root : Tree) (c : Byte × List Bool) : Prop :=
  match root with
  | .leaf v => c = (v, [false])
  | .node l r w => symbolAt (.node l r w) c.2 = some c.1

theorem decodeFrom_code (cap : Cap) {root : Tree} {c : Byte × List Bool} (h : IsCode root c) (n : Nat)
    (s : List Bool) :
    decodeFrom cap root n (c.2 ++ s) = emit cap n c.1 (decodeFrom cap root (n + 1) s) := by
  cases root with
  | leaf v =>
    obtain rfl : c = (v, [false]) := h
    exact repeatLeaf_false cap v n s
  | node l r w =>
    have hpath : symbolAt (.node l r w) c.2 = some c.1 := h
    have hne : c.2 ≠ [] := fun hnil => Tree.noConfusion (symbolAt_nil (hnil ▸ hpath))
    exact walk_path cap _ hpath hne n s

/-- A sequence of codes emits its symbols in order, when they fit (R195, R196, R198). -/
theorem decodeFrom_codes {cap : Cap} {root : Tree} {cs : List (Byte × List Bool)} (h : ∀ c ∈ cs, IsCode root c)
    {n : Nat} (hn : admits cap n = true) (s : List Bool) :
    decodeFrom cap root n (cs.flatMap Prod.snd ++ s) =
      if admits cap (n + cs.length) then (decodeFrom cap root (n + cs.length) s).map (cs.map Prod.fst ++ ·)
      else .error .capacityExceeded := by
  induction cs generalizing n with
  | nil =>
    rw [List.length_nil, Nat.add_zero, if_pos hn]
    show decodeFrom cap root n s = _
    cases decodeFrom cap root n s <;> rfl
  | cons c cs ih =>
    rw [List.forall_mem_cons] at h
    obtain ⟨hc, hcs⟩ := h
    have hlen : n + (c :: cs).length = n + 1 + cs.length := by rw [List.length_cons]; omega
    rw [List.flatMap_cons, List.append_assoc, decodeFrom_code cap hc, emit, hlen]
    by_cases hroom : admits cap (n + 1) = true
    · rw [if_pos hroom, ih hcs hroom]
      split
      · cases decodeFrom cap root (n + 1 + cs.length) s <;> rfl
      · rfl
    · rw [if_neg hroom, if_neg fun hall => hroom (admits_mono hall (Nat.le_add_right _ _))]

/-! ## The parsed tree has the codes of the serialized one (R194) -/

theorem symbolAt_unweighted (t : Tree) (p : List Bool) : symbolAt t.unweighted p = symbolAt t p := by
  fun_induction symbolAt t p with
  | case1 | case2 | case3 => rfl
  | case4 l r w p ih | case5 l r w p ih => exact ih

theorem IsCode.unweighted {root : Tree} {c : Byte × List Bool} (h : IsCode root c) : IsCode root.unweighted c := by
  cases root with
  | leaf v => exact h
  | node l r w => exact (symbolAt_unweighted (.node l r w) c.2).trans h

/-! ## The parse of a tree that is too large or cut off (R194, R225) -/

/-- A whole tree of more than NODE_CAP nodes (R194). -/
theorem parseTree_serialize_of_exceeds {cap : Cap} {t : Tree} {fuel n : Nat} (hf : (serialize t).length ≤ fuel)
    (hn : ¬admits cap (n + (2 * (leaves t).length - 1)) = true) (rest : List Bool) :
    parseTree cap fuel n (serialize t ++ rest) = .error .capacityExceeded := by
  induction t generalizing fuel n rest with
  | leaf v =>
    obtain ⟨fuel, rfl⟩ := Nat.exists_eq_add_of_le' (Nat.one_le_of_lt hf)
    have hlen : ¬((bitsMsb v ++ rest).take 8).length < 8 := by simp
    exact (if_neg hlen).trans (if_neg hn)
  | node l r w ihl ihr =>
    have hl := leaves_length_pos l
    have hr := leaves_length_pos r
    simp only [serialize, List.length_cons, List.length_append, leaves, List.cons_append,
      List.append_assoc] at hf hn ⊢
    obtain ⟨fuel, rfl⟩ := Nat.exists_eq_add_of_le' (Nat.one_le_of_lt hf)
    rw [parseTree_false]
    by_cases hnode : admits cap (n + 1) = true
    · rw [if_pos hnode]
      by_cases hleft : admits cap (n + 1 + (2 * (leaves l).length - 1)) = true
      · have hnodes : n + (2 * ((leaves l).length + (leaves r).length) - 1) =
            n + 1 + (2 * (leaves l).length - 1) + (2 * (leaves r).length - 1) := by omega
        rw [parseTree_serialize cap l fuel _ _ (by omega) hleft, ok_bind,
          ihr (by omega) (hnodes ▸ hn), error_bind]
      · rw [ihl (by omega) hleft, error_bind]
    · rw [if_neg hnode]

/-- A beginning of a tree fails, with CorruptData if the whole tree would be within NODE_CAP (R194, R225). -/
theorem parseTree_take {cap : Cap} {t : Tree} {fuel n j : Nat} (hf : j ≤ fuel) (hj : j < (serialize t).length) :
    ∃ k, parseTree cap fuel n ((serialize t).take j) = .error k ∧
      (admits cap (n + (2 * (leaves t).length - 1)) = true → k = .corruptData) := by
  induction t generalizing fuel n j with
  | leaf v =>
    match j, fuel with
    | 0, _ => exact ⟨_, parseTree_nil cap _ n, fun _ => rfl⟩
    | j + 1, fuel + 1 =>
      simp only [serialize, List.length_cons, bitsMsb_length] at hj
      have hcut : (((bitsMsb v).take j).take 8).length < 8 := by simp; omega
      exact ⟨_, if_pos hcut, fun _ => rfl⟩
  | node l r w ihl ihr =>
    match j, fuel with
    | 0, _ => exact ⟨_, parseTree_nil cap _ n, fun _ => rfl⟩
    | j + 1, fuel + 1 =>
      have hl := leaves_length_pos l
      have hr := leaves_length_pos r
      simp only [serialize, List.length_cons, List.length_append, leaves, List.take_succ_cons] at hj ⊢
      rw [parseTree_false]
      by_cases hnode : admits cap (n + 1) = true
      · rw [if_pos hnode]
        by_cases hinl : j < (serialize l).length
        · obtain ⟨k, hk, hcorrupt⟩ := ihl (n := n + 1) (Nat.le_of_succ_le_succ hf) hinl
          rw [List.take_append_of_le_length hinl.le, hk, error_bind]
          exact ⟨k, rfl, fun hall => hcorrupt (admits_mono hall (by omega))⟩
        · rw [List.take_append, List.take_of_length_le (by omega)]
          by_cases hleft : admits cap (n + 1 + (2 * (leaves l).length - 1)) = true
          · obtain ⟨k, hk, hcorrupt⟩ := ihr (fuel := fuel) (n := n + 1 + (2 * (leaves l).length - 1))
              (j := j - (serialize l).length) (by omega) (by omega)
            rw [parseTree_serialize cap l fuel _ _ (by omega) hleft, ok_bind, hk, error_bind]
            exact ⟨k, rfl, fun hall => hcorrupt (admits_mono hall (by omega))⟩
          · rw [parseTree_serialize_of_exceeds (by omega) hleft, error_bind]
            exact ⟨_, rfl, fun hall => absurd (admits_mono hall (by omega)) hleft⟩
      · rw [if_neg hnode]
        exact ⟨_, rfl, fun hall => absurd (admits_mono hall (by omega)) hnode⟩

/-! ## The decoder on a tree's bits (R193 to R198) -/

theorem treeBits_append_ne_nil (t : Tree) (s : List Bool) : treeBits t ++ s ≠ [] := by
  cases t <;> simp [treeBits]

theorem decodeBits_of_exceeds {cfg : Params} {root : Tree}
    (h : Exceeds cfg.nodeCap (2 * (leaves root).length - 1)) (s : List Bool) :
    decodeBits cfg (treeBits root ++ s) = .error .capacityExceeded := by
  have hn : ¬admits cfg.nodeCap (0 + (2 * (leaves root).length - 1)) = true := by
    simpa using (admits_eq_false_iff_exceeds _ _).mpr h
  rw [decodeBits_of_ne_nil cfg (treeBits_append_ne_nil root s), treeBits_eq_serialize,
    parseTree_serialize_of_exceeds (by simp) hn, error_bind]

theorem decodeBits_of_cutOff {cfg : Params} {root : Tree} {s missing : List Bool} (hs : s ≠ [])
    (hmissing : missing ≠ []) (h : s ++ missing = treeBits root) :
    ∃ k, decodeBits cfg s = .error k ∧ DecoderFault k ∧
      (Within cfg.nodeCap (2 * (leaves root).length - 1) → k = .corruptData) := by
  rw [treeBits_eq_serialize] at h
  have hlen : s.length < (serialize root).length := by
    have hpos := List.length_pos_of_ne_nil hmissing
    rw [← h, List.length_append]
    omega
  obtain ⟨k, hk, hcorrupt⟩ := parseTree_take (cap := cfg.nodeCap) (n := 0) le_rfl hlen
  rw [← h, List.take_left] at hk
  rw [decodeBits_of_ne_nil cfg hs, hk, error_bind]
  exact ⟨k, rfl, parseTree_fault hk, fun hw => hcorrupt ((admits_iff_within _ _).mpr (by simpa using hw))⟩

section
variable {cfg : Params} {root : Tree} (hnodes : Within cfg.nodeCap (2 * (leaves root).length - 1))
  {cs : List (Byte × List Bool)} (hcs : ∀ c ∈ cs, IsCode root c)
include hnodes hcs

/-- A whole tree within NODE_CAP, then codes, then a rest. -/
theorem decodeBits_codes (z : List Bool) : decodeBits cfg (treeBits root ++ (cs.flatMap Prod.snd ++ z)) =
    if admits cfg.bufCap cs.length then
      (decodeFrom cfg.bufCap root.unweighted cs.length z).map (cs.map Prod.fst ++ ·)
    else .error .capacityExceeded := by
  have hn : admits cfg.nodeCap (0 + (2 * (leaves root).length - 1)) = true :=
    (admits_iff_within _ _).mpr (by simpa using hnodes)
  rw [decodeBits_of_ne_nil cfg (treeBits_append_ne_nil root _), treeBits_eq_serialize,
    parseTree_serialize cfg.nodeCap root _ _ _ (by simp) hn, ok_bind, decodePayload_eq_decodeFrom,
    decodeFrom_codes (fun c hc => (hcs c hc).unweighted) ((admits_iff_within _ _).mpr (.zero _)), Nat.zero_add]

theorem decodeBits_codes_of_exceeds (hc : Exceeds cfg.bufCap cs.length) (z : List Bool) :
    decodeBits cfg (treeBits root ++ (cs.flatMap Prod.snd ++ z)) = .error .capacityExceeded := by
  rw [decodeBits_codes hnodes hcs, (admits_eq_false_iff_exceeds _ _).mpr hc]
  rfl

theorem decodeBits_codes_of_within (hw : Within cfg.bufCap cs.length) :
    decodeBits cfg (treeBits root ++ (cs.flatMap Prod.snd ++ [])) = .ok (cs.map Prod.fst) := by
  rw [decodeBits_codes hnodes hcs, if_pos ((admits_iff_within _ _).mpr hw), decodeFrom_nil, Except.map,
    List.append_nil]

theorem decodeBits_codes_of_corrupt (hw : Within cfg.bufCap cs.length) {z : List Bool}
    (hz : decodeFrom cfg.bufCap root.unweighted cs.length z = .error .corruptData) :
    decodeBits cfg (treeBits root ++ (cs.flatMap Prod.snd ++ z)) = .error .corruptData := by
  rw [decodeBits_codes hnodes hcs, if_pos ((admits_iff_within _ _).mpr hw), hz, Except.map]

end

/-- Settles O56: the payload is codes and a rest, under an internal root (paths) as under a single leaf (zeros). -/
theorem decoderWalksAnyTree : Obligations.DecoderWalksAnyTree := by
  intro p t m root bits ht hm hbits
  have hdecode : decompress p (t :: m) = decodeBits p bits := by
    rw [decompress_cons, if_neg (by omega), hbits]
  rw [hdecode]
  refine ⟨fun hne missing hmissing htree => decodeBits_of_cutOff hne hmissing htree, ?_⟩
  rintro rest rfl
  refine ⟨fun hc => decodeBits_of_exceeds hc rest, fun hnodes => ⟨?_, ?_⟩⟩
  · rintro l r w rfl paths z hpaths rfl
    refine ⟨fun hc => decodeBits_codes_of_exceeds hnodes hpaths hc z, fun hw => ⟨?_, ?_⟩⟩
    · rintro rfl
      exact decodeBits_codes_of_within hnodes hpaths hw
    · intro v y hz hy hv
      rw [← symbolAt_unweighted] at hv
      exact decodeBits_codes_of_corrupt hnodes hpaths hw (decodeFrom_cutOff p.bufCap hz hy hv _)
  · rintro v rfl k z rfl
    have hzeros : ∀ c ∈ List.replicate k (v, [false]), IsCode (.leaf v) c := fun c hc => List.eq_of_mem_replicate hc
    have hbits : List.replicate k false = (List.replicate k (v, [false])).flatMap Prod.snd := by
      rw [List.flatMap_replicate, List.flatten_replicate_singleton]
    have hlen : (List.replicate k (v, [false])).length = k := List.length_replicate
    rw [hbits]
    refine ⟨fun hc => decodeBits_codes_of_exceeds hnodes hzeros (by rwa [hlen]) z, fun hw => ?_⟩
    rw [← hlen] at hw
    refine ⟨?_, ?_⟩
    · rintro rfl
      rw [decodeBits_codes_of_within hnodes hzeros hw, List.map_replicate]
    · rintro s rfl
      exact decodeBits_codes_of_corrupt hnodes hzeros hw rfl

end Sys2Proof.Machine
end

section
/-! PROOFS. COMPRESS, OBTOIB, DECOMPRESS in turn restore the input (R199): the compressed form is a tree of at most 511
nodes and the codes of the input's bytes. -/
namespace Sys2Proof.Machine

theorem isCode_codeOf {root : Tree} {v : Byte} (hv : v ∈ leaves root) : IsCode root (v, codeOf root v) := by
  cases root with
  | leaf u =>
    obtain rfl := List.mem_singleton.mp hv
    rw [codeOf_leaf]
    rfl
  | node l r w => exact symbolAt_codeOf_node hv

/-- The bytes of an input, each with its code. -/
def codeSeq (root : Tree) (b : Memory) : List (Byte × List Bool) := b.map fun v => (v, codeOf root v)

theorem payload_eq_codeSeq (root : Tree) (b : Memory) : payload root b = (codeSeq root b).flatMap Prod.snd := by
  rw [codeSeq, List.flatMap_map, payload]

theorem codeSeq_symbols (root : Tree) (b : Memory) : (codeSeq root b).map Prod.fst = b := by
  rw [codeSeq, List.map_map]
  exact List.map_id b

theorem codeSeq_length (root : Tree) (b : Memory) : (codeSeq root b).length = b.length := List.length_map _

section
variable {b : Memory} {root : Tree} (h : huffmanTree b = some root)
include h

/-- The tree has a leaf for each distinct byte, of which there are at most 256. -/
theorem leaves_length_le_of_huffmanTree : (leaves root).length ≤ 256 := by
  rw [(leaves_perm_seeds h).length_eq]
  simpa [seeds] using List.length_filter_le (· ∈ b) ((List.range 256).map (BitVec.ofNat 8))

theorem isCode_of_mem_codeSeq : ∀ c ∈ codeSeq root b, IsCode root c := by
  intro c hc
  obtain ⟨v, hv, rfl⟩ := List.mem_map.mp hc
  exact isCode_codeOf (mem_leaves_of_huffmanTree h hv)

/-- The decoder strips the pad bits of the compressed form and is left with its tree and payload (R71, R192). -/
theorem decompress_compress_eq_decodeBits (cfg : Params) :
    decompress cfg (compress b) = decodeBits cfg (treeBits root ++ payload root b) := by
  obtain ⟨hpad, hmul⟩ := padCount_spec ((serialize root).length + (payload root b).length)
  rw [compress_of_huffmanTree h, assemble]
  generalize padCount ((serialize root).length + (payload root b).length) = pad at *
  have hbits : unpackMsb (packMsb (serialize root ++ payload root b ++ List.replicate pad false)) =
      serialize root ++ payload root b ++ List.replicate pad false := unpackMsb_packMsb _ (by simp; omega)
  have hbytes := congrArg List.length hbits
  have hbyte : (BitVec.ofNat 8 pad).toNat = pad := by rw [BitVec.toNat_ofNat]; omega
  rw [unpackMsb_length, List.length_append, List.length_replicate] at hbytes
  rw [List.append_assoc, List.append_assoc, packMsb_bitsMsb_append, ← List.append_assoc, decompress_cons, hbyte,
    if_neg (by omega), hbytes, Nat.add_sub_cancel, bufferBits_eq_unpackMsb, hbits, List.take_left,
    treeBits_eq_serialize]

end

/-- The decoder undoes the encoder (R199). -/
theorem decompress_compress {cfg : Params} (hcap : Within cfg.nodeCap 511) {b : Memory}
    (hb : Within cfg.bufCap b.length) : decompress cfg (compress b) = .ok b := by
  by_cases hnil : b = []
  · subst hnil
    rfl
  · obtain ⟨root, h⟩ := exists_huffmanTree hnil
    have hleaves := leaves_length_le_of_huffmanTree h
    have hnodes : Within cfg.nodeCap (2 * (leaves root).length - 1) := hcap.mono (by omega)
    have hdecode := decodeBits_codes_of_within hnodes (isCode_of_mem_codeSeq h) (by rwa [codeSeq_length])
    rwa [List.append_nil, ← payload_eq_codeSeq, codeSeq_symbols, ← decompress_compress_eq_decodeBits h] at hdecode

/-- Settles O57: OBTOIB hands the compressed form on, and the decoder gives the input back. -/
theorem decompressAfterCompressRestoresTheInput : Obligations.DecompressAfterCompressRestoresTheInput := by
  intro s b hp hb hin hout
  have hdecode := decompress_compress hp.nodeCap hin
  exact ⟨_, _, _, exec_compress_of_within hb hout, rfl, exec_decompress_of_ok rfl hdecode, rfl, rfl, ⟨_, rfl⟩,
    ⟨_, rfl⟩, _, rfl⟩

end Sys2Proof.Machine
end

section
/-! PROOFS. Fault entry (R226): a step that ends in a fault has made no update; and the commands that need the input array
check for it before anything else (R222). -/
namespace Sys2Proof.Machine

/-- A response with a status other than OK is that of fault entry on the unchanged state (R226). -/
theorem run_of_status_ne_ok {s t : State} {body : Except FaultKind Result} {r : Response}
    (h : run s body = .next t) (hr : t.resp = some r) (hne : r.status ≠ 0#8) :
    ∃ k : FaultKind, r.status = k.code ∧ t = s.enterFault k := by
  rcases (run_next_iff s body t).mp h with ⟨res, -, rfl⟩ | ⟨k, -, rfl⟩
  · cases hr
    exact absurd rfl hne
  · cases hr
    exact ⟨k, rfl, rfl⟩

/-- Settles O12: the step of a legal and of an illegal command is a run on the state with the command taken. -/
theorem faultsChangeNothingButErr : Obligations.FaultsChangeNothingButErr := by
  intro s t c rest r hc hstep hr hne
  obtain ⟨body, hrun⟩ := step_is_run s c rest hc
  obtain ⟨k, hk, rfl⟩ := run_of_status_ne_ok (hrun.symm.trans hstep) hr hne
  rw [hk]
  exact ⟨k.code_toNat_le, rfl⟩

/-- Settles O15: in each of the five the array is the first check. -/
theorem nullInputArrayRaisesNullArgument : Obligations.NullInputArrayRaisesNullArgument := by
  intro i s hi hm
  rcases hi with ⟨rd, e, rfl⟩ | ⟨rd, rfl⟩ | rfl | rfl | ⟨byte, rfl⟩ <;>
    exact run_bind_of_error (needInput_none s hm)

end Sys2Proof.Machine
end

section
/-! PROOFS. The host and system commands (R210 to R216). -/
namespace Sys2Proof.Machine

/-! ## IBCLR and IBPUSH (R210, R211) -/

theorem ofInt_byte_toNat {v : Int} (h : 0 ≤ v ∧ v ≤ 255) : ((BitVec.ofInt 8 v).toNat : Int) = v := by
  rw [BitVec.toNat_ofInt]
  omega

section
variable {s : State} {m : Memory} (h : s.ibuf = some m) {v : Int}
include h

theorem exec_ibpush_of_no_byte (hv : v < 0 ∨ v > 255) : exec (.ibpush v) s = .next (faultState s 3#8) :=
  (run_bind_of_ok (needInput_some s m h)).trans (run_bind_of_error (raiseIf_of_true _ _ hv))

/-- With an array and a byte one check is left: the room for one byte more. -/
theorem exec_ibpush_of_byte (hv : 0 ≤ v ∧ v ≤ 255) : exec (.ibpush v) s =
    run s (fitsBuffer s (m.length + 1) >>= fun _ => done (s.setInput (m.push (BitVec.ofInt 8 v)))) :=
  (run_bind_of_ok (needInput_some s m h)).trans (run_bind_of_ok (valueWithin_of_inside hv))

theorem exec_ibpush_of_exceeds (hv : 0 ≤ v ∧ v ≤ 255) (hc : Exceeds s.cfg.bufCap (m.length + 1)) :
    exec (.ibpush v) s = .next (faultState s 7#8) :=
  (exec_ibpush_of_byte h hv).trans (run_bind_of_error (fitsBuffer_of_exceeds s _ hc))

theorem exec_ibpush_of_within (hv : 0 ≤ v ∧ v ≤ 255) (hw : Within s.cfg.bufCap (m.length + 1)) :
    exec (.ibpush v) s = .next (okState { s with ibuf := some (m.push (BitVec.ofInt 8 v)) } 0#64 0#64) :=
  (exec_ibpush_of_byte h hv).trans (run_bind_of_ok (fitsBuffer_of_within s _ hw))

end

/-- Settles O58: the array is checked, then the value, then the room, and the byte goes behind the others. -/
theorem inputArrayClearAndPush : Obligations.InputArrayClearAndPush := by
  intro s v
  refine ⟨rfl, fun hm => run_bind_of_error (needInput_none s hm), fun m hm =>
    ⟨exec_ibpush_of_no_byte hm, fun hv0 hv hfull => ?_, fun hv0 hv hroom => ?_⟩⟩
  · exact exec_ibpush_of_exceeds hm ⟨hv0, hv⟩ ⟨_, hfull, Nat.lt_succ_self _⟩
  · exact ⟨m.push (BitVec.ofInt 8 v), BitVec.ofInt 8 v, ofInt_byte_toNat ⟨hv0, hv⟩, List.length_append,
      Memory.read_push_last m _, Memory.read_push_of_lt m _, exec_ibpush_of_within hm ⟨hv0, hv⟩ hroom⟩

/-! ## OBRD and OLENR (R212, R213) -/

/-- A byte's word has the byte's value (R15). -/
theorem zext64_byte_toNat (v : Byte) : (zext64 v.toNat).toNat = v.toNat :=
  extended_unsigned_toNat (w := 8) (by decide) v.isLt

theorem exec_obrd_of_outside {s : State} {i : Int} (h : i < 0 ∨ i ≥ s.obuf.length) :
    exec (.obrd i) s = .next (faultState s 1#8) := by
  show execObrd i s = _
  unfold execObrd
  by_cases hneg : i < 0
  · rw [if_pos hneg]
    rfl
  · rw [if_neg hneg, Memory.read_of_ge s.obuf i.toNat (by omega)]
    rfl

theorem exec_obrd_of_lt {s : State} {k : Nat} (h : k < s.obuf.length) :
    exec (.obrd k) s = .next (okState s (zext64 s.obuf[k].toNat) 0#64) := by
  have hread : Memory.read s.obuf (k : Int).toNat = some s.obuf[k] := List.getElem?_eq_getElem h
  show execObrd k s = _
  unfold execObrd
  rw [if_neg (by omega), hread]
  rfl

/-- Settles O59: a byte is read exactly at an index inside the array; the length's word is exact below 2^64. -/
theorem outputArrayReads : Obligations.OutputArrayReads := by
  refine fun s i => ⟨exec_obrd_of_outside, ?_, lengthWord s.olen, lengthWord_toNat s.olen, rfl⟩
  rintro k hk rfl
  exact ⟨_, zext64_byte_toNat s.obuf[k], exec_obrd_of_lt hk⟩

/-! ## OBTOIB, RDERR and CLRERR (R214 to R216) -/

/-- Settles O60: none of the three makes a check; the length's word is exact below 2^64. -/
theorem outputToInputAndErrorRegister : Obligations.OutputToInputAndErrorRegister := fun s =>
  ⟨⟨lengthWord s.olen, lengthWord_toNat s.olen, rfl⟩, ⟨zext64 s.err.toNat, zext64_byte_toNat s.err, rfl⟩, rfl⟩

end Sys2Proof.Machine
end
